-- ==== Sys2Proof/Word.lean ====
section
/-! DEFINITION. The word types of HUFFCORE (00_scope.md R9, R10; 10_state.md R31, R51, R53). -/

namespace Sys2Proof

/-- A register or bus word, bit 31 most significant (R9). -/
abbrev Word := BitVec 32

/-- A DMEM byte, which is also a symbol of the corpus (R7: SYM_W = 8). -/
abbrev Byte := BitVec 8

/-- A node index or a symbol id as a stored field (R7: IDX_W = 10). -/
abbrev Idx := BitVec 10

/-- A bit sequence in stream order, index 0 first; for a codeword, index 0 is nearest the root (R10). -/
abbrev Bits := List Bool

end Sys2Proof
end

