-- ==== Sys2Proof/Config.lean ====
section
/-! DEFINITION. What an implementation fixes (00_scope.md R7, R8) and the free values (10_state.md R47). -/

namespace Sys2Proof

/-- The parameters of one HUFFCORE (R7, R8). Every value of this type is legal: DMEM_SIZE is
`2 ^ (8 + dmemExp)`, a power of two from 2^8 to 2^23; SENTINEL_CP is any byte; BASE is
`baseUnit * 2^24`, a multiple of 2^24. They are data of the machine's state that no step changes
(DESIGN CHOICE, safe for statements over all states: log entry 1). -/
structure Params where
  /-- log2(DMEM_SIZE) - 8 -/
  dmemExp : Fin 16
  /-- SENTINEL_CP, the sentinel's code point in the leaf tie-break (R7, R173) -/
  sentinelCp : Byte
  /-- BASE / 2^24 -/
  baseUnit : Nat
  deriving DecidableEq, Repr

/-- The defaults of R7: DMEM_SIZE = 65536 and SENTINEL_CP = 0x04. BASE is OPEN and has no default:
0 is the model's (DESIGN CHOICE, unsafe for a claim about `State.reset` that needs BASE: log entry 1). -/
def Params.default : Params :=
  { dmemExp := 8, sentinelCp := 0x04, baseUnit := 0 }

namespace Config

/-- SENT, the sentinel's symbol id (R7). -/
abbrev sent : Nat := 256

/-- TOTAL_MAX, the largest corpus length (R7). -/
abbrev totalMax : Nat := 0xFFFFFFFE

/-- CW_MAX, the longest codeword (R7). -/
abbrev cwMax : Nat := 256

/-- DMEM_OFF, the offset of the DMEM window in the aperture (R7). -/
abbrev dmemOff : Nat := 0x10000

/-- APERTURE, the size of the block's bus aperture in bytes (R7). -/
abbrev aperture : Nat := 0x1000000

/-- The free values of R47: the word that the hardware returns for the `n`-th unspecified register read.
It has no body, so nothing proved can rest on a value of it (safe: log entry 5). -/
opaque freeWord : Nat → Word

end Config

end Sys2Proof
end

