-- ==== Sys2Proof/Syntax.lean ====
section
/-! DEFINITION. The nine commands (30_encoding.md R111), one constructor per row of spec/opcode_table.json. -/

namespace Sys2Proof

/-- A HUFFCORE command. `idx` is the IDX operand (R110, R115): a symbol id for CB_LOOKUP, a node index
for NODE_READ, a byte value for FREQ_READ. -/
inductive Instr where
  | nop
  | clear
  | count
  | build
  | encode
  | decode
  | cbLookup (idx : Nat)
  | nodeRead (idx : Nat)
  | freqRead (idx : Nat)
  deriving DecidableEq, Repr

end Sys2Proof
end

