-- ==== Sys2Proof/WellFormed.lean ====
section
/-! DEFINITION. Which commands have a word: IDX is a 10-bit field, so an index is 0 to 1023
(30_encoding.md R110, R121). -/

namespace Sys2Proof

/-- The command fits its encoding. An index outside the command's own range is well-formed here: it is
decoded, and then refused by the command with BAD_INDEX (R115). -/
abbrev Instr.wf : Instr → Prop
  | .nop => True
  | .clear => True
  | .count => True
  | .build => True
  | .encode => True
  | .decode => True
  | .cbLookup idx => idx < 1024
  | .nodeRead idx => idx < 1024
  | .freqRead idx => idx < 1024

/-- `Instr.wf` as a check that runs. -/
def Instr.wfCheck : Instr → Bool
  | .nop => true
  | .clear => true
  | .count => true
  | .build => true
  | .encode => true
  | .decode => true
  | .cbLookup idx => decide (idx < 1024)
  | .nodeRead idx => decide (idx < 1024)
  | .freqRead idx => decide (idx < 1024)

end Sys2Proof
end

