-- ==== Sys2Proof/Decode.lean ====
section
/-! DEFINITION. The decoder and the encoder of the command word (30_encoding.md R110, R111, R114, R118). -/

namespace Sys2Proof

/-- Why a word is no command (R118). Each reason completes with ILLEGAL_COMMAND (R114). -/
inductive DecodeReject where
  /-- RSV_HI, bits 31:26, is not 0 -/
  | reservedHigh
  /-- RSV_LO, bits 15:8, is not 0 -/
  | reservedLow
  /-- OP is 0x09 to 0xFF -/
  | reservedOpcode
  /-- IDX is not 0 and OP is 0x00 to 0x05 -/
  | indexNotZero
  deriving DecidableEq, Repr

/-- RSV_HI of a command word (R110). -/
def fieldRsvHi (w : Word) : BitVec 6 := w.extractLsb' 26 6

/-- IDX of a command word (R110). -/
def fieldIdx (w : Word) : Idx := w.extractLsb' 16 10

/-- RSV_LO of a command word (R110). -/
def fieldRsvLo (w : Word) : BitVec 8 := w.extractLsb' 8 8

/-- OP of a command word (R110). -/
def fieldOp (w : Word) : BitVec 8 := w.extractLsb' 0 8

/-- A command that takes no index: its IDX field must be 0 (R110). -/
def noIndex (idx : Nat) (i : Instr) : Except DecodeReject Instr :=
  if idx = 0 then .ok i else .error .indexNotZero

/-- The opcode map (R111). -/
def decodeOp (op idx : Nat) : Except DecodeReject Instr :=
  match op with
  | 0x00 => noIndex idx .nop
  | 0x01 => noIndex idx .clear
  | 0x02 => noIndex idx .count
  | 0x03 => noIndex idx .build
  | 0x04 => noIndex idx .encode
  | 0x05 => noIndex idx .decode
  | 0x06 => .ok (.cbLookup idx)
  | 0x07 => .ok (.nodeRead idx)
  | 0x08 => .ok (.freqRead idx)
  | _ => .error .reservedOpcode

/-- Decode a command word (R114): total, and every word that is no command is rejected by name. -/
def decode (w : Word) : Except DecodeReject Instr :=
  if fieldRsvHi w ≠ 0 then .error .reservedHigh
  else if fieldRsvLo w ≠ 0 then .error .reservedLow
  else decodeOp (fieldOp w).toNat (fieldIdx w).toNat

/-- The opcode of each command (R111). -/
def opcode : Instr → BitVec 8
  | .nop => 0x00
  | .clear => 0x01
  | .count => 0x02
  | .build => 0x03
  | .encode => 0x04
  | .decode => 0x05
  | .cbLookup _ => 0x06
  | .nodeRead _ => 0x07
  | .freqRead _ => 0x08

/-- The IDX operand of each command, 0 where it takes none (R111). -/
def indexOf : Instr → Nat
  | .nop => 0
  | .clear => 0
  | .count => 0
  | .build => 0
  | .encode => 0
  | .decode => 0
  | .cbLookup idx => idx
  | .nodeRead idx => idx
  | .freqRead idx => idx

/-- The word of a well-formed command (R110, R111): RSV_HI, IDX, RSV_LO, OP from the top. -/
def encode (i : Instr) : Word :=
  (0 : BitVec 6) ++ BitVec.ofNat 10 (indexOf i) ++ (0 : BitVec 8) ++ opcode i

/-- What `decode` reads from a row's word `w` of `nbits` bits as spec/opcode_table.json numbers them.
A HUFFCORE command is one 32-bit word written to CMD (R110), so bit n of `w` is bit n of that word,
and every bit at or above `nbits` is 0. -/
def decodeTableWord (nbits w : Nat) : Option Instr :=
  match decode (BitVec.ofNat 32 (w % 2 ^ nbits)) with
  | .ok i => some i
  | .error _ => none

end Sys2Proof
end

