-- ==== Sys2Proof/Machine/State.lean ====
section
/-! DEFINITION. Everything the spec gives the machine to remember (10_state.md), as plain data, and
its value after reset (R58). -/

namespace Sys2Proof.Machine

/-- DMEM (20_memory.md R80, R91): the bytes that have been written since reset, by byte offset. An
unlisted byte has no value. Canonical form: `Memory.wf`. -/
abbrev Memory := List Host.Cell

/-- The four argument registers (R38), or their latched copies (R39). -/
structure Args where
  srcAddr : Word
  srcLen : Word
  dstAddr : Word
  dstCap : Word
  deriving DecidableEq, Repr

/-- One entry of the node arena (R51). The kind is the constructor. -/
inductive Node where
  /-- holds one symbol and its aggregate weight -/
  | leaf (w : Word) (sym : Idx)
  /-- holds a summed weight and two children; it keeps no symbol (R179) -/
  | internal (w : Word) (left right : Idx)
  deriving DecidableEq, Repr

/-- The error kinds of R261, in the order of their codes. OK is no error. -/
inductive ErrKind where
  | unknownSymbol
  | truncatedInput
  | notBuilt
  | alreadyBuilt
  | outputOverflow
  | badRange
  | badIndex
  | corpusOverflow
  | illegalCommand
  deriving DecidableEq, Repr

/-- One host bus transaction (30_encoding.md R119) at a bus address: a size in bytes and, for a write,
the 32-bit bus value. -/
inductive BusTx where
  | read (addr size : Nat)
  | write (addr size : Nat) (data : Word)
  deriving DecidableEq, Repr

/-- What the host's program is made of: transactions and the polling loop WAIT (R119, R122). -/
inductive HostOp where
  | bus (t : BusTx)
  | wait
  deriving DecidableEq, Repr

/-- Who moves next: an agent of R30, or the platform asserting reset (R290). -/
inductive Turn where
  | host
  | engine
  | reset
  deriving DecidableEq, Repr

/-- The machine. Registers that are constants or views (ID, VERSION, PARAMS, STATUS, CTRL, irq) are
computed from these fields; a command's cursors live inside one atomic step (R40, R116). -/
structure State where
  /-- the instance parameters that PARAMS reports (R34) -/
  params : Params
  /-- CTRL.IE (R35) -/
  ie : Bool
  /-- STATUS.BUSY (R36) -/
  busy : Bool
  /-- STATUS.DONE (R36) -/
  done : Bool
  /-- STATUS.BUILT (R36, R54) -/
  built : Bool
  /-- STATUS.OVR (R36) -/
  ovr : Bool
  /-- STATUS.ERR (R36, R261) -/
  err : BitVec 8
  /-- SRC_ADDR, SRC_LEN, DST_ADDR, DST_CAP (R38) -/
  args : Args
  /-- RESULT_LEN (R42) -/
  resultLen : Word
  /-- RESULT_BITS (R42) -/
  resultBits : Word
  /-- ERR_POS (R42) -/
  errPos : Word
  /-- RES0 (R44) -/
  res0 : Word
  /-- RES1 (R44) -/
  res1 : Word
  /-- CWBITS0 to CWBITS7 (R44) -/
  cwbits : Vector Word 8
  /-- L_CMD (R39) -/
  lCmd : Word
  /-- L_SRC_ADDR, L_SRC_LEN, L_DST_ADDR, L_DST_CAP (R39) -/
  latch : Args
  /-- FREQ (R50) -/
  freq : Vector Word 256
  /-- TOTAL (R43, R50) -/
  total : Word
  /-- NODE (R51) -/
  node : Vector Node 513
  /-- NODE_COUNT (R43) -/
  nodeCount : Idx
  /-- ROOT (R43) -/
  root : Idx
  /-- INQ (R52) -/
  inq : Vector Bool 513
  /-- CB (R53): the codeword of each symbol id; its length is CB[k].len (log entry 19) -/
  cb : Vector Bits 257
  /-- DMEM (R80, R91) -/
  mem : Memory
  /-- MODEL'S OWN: the host's remaining program (R119; log entry 2) -/
  host : List HostOp
  /-- MODEL'S OWN: who moves next (R123, R290; log entry 3) -/
  schedule : List Turn
  /-- MODEL'S OWN: the data of the last completed bus read (R119; log entry 6) -/
  readData : Option Word
  /-- MODEL'S OWN: how many free values have been drawn (R47; log entry 5) -/
  draws : Nat
  deriving DecidableEq, Repr

/-- Why the machine stops. -/
inductive Fault where
  /-- SLVERR (R84; log entry 18). Raised by a host access of a size or alignment the block does not serve. Safe: a
  claim about a run that goes on after it is unprovable. -/
  | slaveError
  /-- DECERR (R85; log entry 18). Raised by a host access to the unmapped part of the aperture. Safe. -/
  | decodeError
  /-- A read of a DMEM byte never written since reset (R91). Raised by a host read, COUNT, ENCODE and
  DECODE. Safe. -/
  | unwrittenByte
  /-- A stuck state: DECODE's walk never ends or names no arena entry, or NODE_READ names none. Raised
  only in states that break the codec invariants of R54. Safe. -/
  | brokenTrie
  deriving DecidableEq, Repr

/-- Why the machine has no meaning for what was asked. -/
inductive Refusal where
  /-- Raised by `exec` for an instruction with no meaning yet, by its mnemonic. Safe. -/
  | notModelled (mnemonic : String)
  /-- A host DMEM access while BUSY = 1 (R100). Raised by the host's turn. Safe. -/
  | dmemWhileBusy
  /-- A bus address outside the aperture: not this block's, the platform decides (R85). Raised by the
  host's turn. Safe. -/
  | outsideAperture
  deriving DecidableEq, Repr

/-- The state right after reset of an instance with parameters `p` (R58, R290). NODE, INQ and the
latches have no reset value in the spec and are unobservable: the values here are a DESIGN CHOICE
(unsafe for a claim about those fields: log entry 8). -/
def State.resetWith (p : Params) : State where
  params := p
  ie := false
  busy := false
  done := false
  built := false
  ovr := false
  err := 0x00
  args := { srcAddr := 0, srcLen := 0, dstAddr := 0, dstCap := 0 }
  resultLen := 0
  resultBits := 0
  errPos := 0
  res0 := 0
  res1 := 0
  cwbits := Vector.replicate 8 0
  lCmd := 0
  latch := { srcAddr := 0, srcLen := 0, dstAddr := 0, dstCap := 0 }
  freq := Vector.replicate 256 0
  total := 0
  node := Vector.replicate 513 (.leaf 0 0)
  nodeCount := 0
  root := 0
  inq := Vector.replicate 513 false
  cb := Vector.replicate 257 []
  mem := []
  host := []
  schedule := []
  readData := none
  draws := 0

/-- The machine right after reset, at the default parameters (R7, R58), with no host program loaded. -/
def State.reset : State := State.resetWith Params.default

end Sys2Proof.Machine
end

