-- ==== Sys2Proof/Machine/Flags.lean ====
section
/-! DEFINITION. The status flags: who sets and clears each (10_state.md R36, R46), acceptance and
completion of a command (30_encoding.md R112, R113, R117), and the interrupt line (60_exceptions.md R266). -/

namespace Sys2Proof.Machine

/-- The STATUS word of the given field values; reserved bits read 0 (R36). -/
def statusWord (busy done built ovr : Bool) (err : BitVec 8) : Word :=
  (0 : BitVec 16) ++ err ++ (0 : BitVec 4) ++ BitVec.ofBool ovr ++ BitVec.ofBool built
    ++ BitVec.ofBool done ++ BitVec.ofBool busy

/-- The CTRL word: IE in bit 0, the rest RAZ (R35). -/
def ctrlWord (ie : Bool) : Word := (0 : BitVec 31) ++ BitVec.ofBool ie

/-- The interrupt line (R57, R266): a level, the value of CTRL.IE AND STATUS.DONE (log entry 16). -/
def irq (s : State) : Bool := s.ie && s.done

/-- The value of STATUS.ERR for each error (R261). -/
def errCode : ErrKind → BitVec 8
  | .unknownSymbol => 0x01
  | .truncatedInput => 0x02
  | .notBuilt => 0x03
  | .alreadyBuilt => 0x04
  | .outputOverflow => 0x05
  | .badRange => 0x06
  | .badIndex => 0x07
  | .corpusOverflow => 0x08
  | .illegalCommand => 0x09

/-- STATUS.ERR = OK (R261). -/
def errOk : BitVec 8 := 0x00

/-- Completion (R117), of a success and of an error alike. -/
def complete (code : BitVec 8) (s : State) : State :=
  { s with err := code, busy := false, done := true }

/-- Acceptance of the word `v` by the idle engine (R112, R39): the latches are written, BUSY is set and
DONE is cleared. -/
def accept (v : Word) (s : State) : State :=
  { s with lCmd := v, latch := s.args, busy := true, done := false }

/-- A host write of `v` to CMD: issued when idle (R112), dropped with OVR set when busy (R113). -/
def writeCmd (v : Word) (s : State) : State :=
  if s.busy then { s with ovr := true } else accept v s

/-- A host write of `v` to STATUS: DONE and OVR are write-1-to-clear (R36). -/
def writeStatus (v : Word) (s : State) : State :=
  { s with done := s.done && !v.getLsbD 1, ovr := s.ovr && !v.getLsbD 3 }

/-- A host write of `v` to CTRL (R35). -/
def writeCtrl (v : Word) (s : State) : State :=
  { s with ie := v.getLsbD 0 }

end Sys2Proof.Machine
end

