-- ==== Sys2Proof/Machine/Ops.lean ====
section
/-! DEFINITION. The operations over DMEM (20_memory.md R80, R81, R86), the bits of a stream (R89, R90),
raising an error (60_exceptions.md R260, R264) and reset (70_reset_and_hazards.md R290). -/

namespace Sys2Proof.Machine

/-- DMEM's canonical form: byte offsets strictly rise, so equal memories are equal lists. -/
abbrev Memory.wf (m : Memory) : Prop := m.Pairwise fun c d => c.1 < d.1

/-- One byte of DMEM. A byte that nothing has written has no value (R91; log entry 7). -/
def Memory.read : Memory → Nat → Option Byte
  | [], _ => none
  | c :: m, a => if c.1 = a then some c.2 else Memory.read m a

/-- Write one byte of DMEM (R81), keeping the canonical form. -/
def Memory.write : Memory → Nat → Byte → Memory
  | [], a, b => [(a, b)]
  | c :: m, a, b =>
    if a < c.1 then (a, b) :: c :: m
    else if a = c.1 then (a, b) :: m
    else c :: Memory.write m a b

/-- MemRead(a, n), little-endian (R81). No value if one of the bytes has none (R91). -/
def Memory.readLE (m : Memory) : (a n : Nat) → Option Word
  | _, 0 => some 0
  | a, n + 1 =>
    match m.read a, Memory.readLE m (a + 1) n with
    | some b, some rest => some (b.setWidth 32 ||| rest <<< 8)
    | _, _ => none

/-- MemWrite(a, n, v), little-endian (R81). -/
def Memory.writeLE (m : Memory) : (a n : Nat) → Word → Memory
  | _, 0, _ => m
  | a, n + 1, v => Memory.writeLE (m.write a (v.setWidth 8)) (a + 1) n (v >>> 8)

/-- The bytes at offsets a to a + n - 1, in order, if every one of them has a value (R86, R91). -/
def Memory.readBytes (m : Memory) : (a n : Nat) → Option (List Byte)
  | _, 0 => some []
  | a, n + 1 =>
    match m.read a with
    | none => none
    | some b => (Memory.readBytes m (a + 1) n).map (b :: ·)

/-- Write bytes at offsets a, a + 1, ... in order (R86). -/
def Memory.writeBytes (m : Memory) : (a : Nat) → List Byte → Memory
  | _, [] => m
  | a, b :: bs => Memory.writeBytes (m.write a b) (a + 1) bs

/-- Stream bit p of the bitstream at DMEM offset a (R90, R241). -/
def streamBit (m : Memory) (a p : Nat) : Option Bool :=
  (m.read (a + p / 8)).map fun b => b.getLsbD (7 - p % 8)

/-- The value of a bit sequence read most significant bit first (R89, R205). -/
def bitsValue (bs : Bits) : Nat := bs.foldl (fun v b => 2 * v + b.toNat) 0

/-- A bit sequence cut or zero-filled on the right to `n` bits. -/
def padTo (n : Nat) (bs : Bits) : Bits := bs.take n ++ List.replicate (n - bs.length) false

/-- Pack `n` bytes of a stream, 8 bits each, most significant bit first (R222). -/
def packBytes : (n : Nat) → Bits → List Byte
  | 0, _ => []
  | n + 1, bs => BitVec.ofNat 8 (bitsValue (padTo 8 bs)) :: packBytes n (bs.drop 8)

/-- The one answer a raised error gives (R260): nothing but the completion with its code (R117).
There is no trap entry and no return (R268, R269). -/
def raiseError (e : ErrKind) (s : State) : State := complete (errCode e) s

/-- An error of COUNT, ENCODE or DECODE also writes the bulk result registers (R264, R263). -/
def raiseBulk (e : ErrKind) (len pos : Word) (s : State) : State :=
  raiseError e { s with resultLen := len, resultBits := 0, errPos := pos }

/-- A success of COUNT, ENCODE or DECODE writes the bulk result registers (R264) and completes. -/
def finishBulk (len bits : Word) (s : State) : State :=
  complete errOk { s with resultLen := len, resultBits := bits, errPos := 0 }

/-- The platform asserts reset (R290): every piece of the block's state takes its value of R58. What is
outside the block (its parameters, the host's program, the turns, what the host has read) stays
(log entry 15). -/
def applyReset (s : State) : State :=
  { State.resetWith s.params with
    host := s.host, schedule := s.schedule, readData := s.readData, draws := s.draws }

end Sys2Proof.Machine
end

