-- ==== Sys2Proof/Machine/Operands.lean ====
section
/-! DEFINITION. The operand forms: instance parameters (00_scope.md R7, R8), latched ranges (10_state.md
R39, 20_memory.md R86 to R88), node and symbol indices (30_encoding.md R115), and the packed result
words (42_trie_builder.md R179, 43_codebook.md R205). -/

namespace Sys2Proof.Machine

/-- DMEM_SIZE (R7, R8). -/
def dmemSize (p : Params) : Nat := 2 ^ (8 + p.dmemExp.val)

/-- BASE (R7): the block's unit of the address space, times APERTURE = 2^24. -/
def busBase (p : Params) : Nat := p.baseUnit <<< 24

/-- PARAMS (R34): SENTINEL_CP, CNT_W = 32, log2(DMEM_SIZE), SYM_W = 8, from the top byte. -/
def paramsWord (p : Params) : Word :=
  p.sentinelCp ++ (32 : BitVec 8) ++ BitVec.ofNat 8 (8 + p.dmemExp.val) ++ (8 : BitVec 8)

/-- in_range(a, n), on unbounded naturals (R87). -/
abbrev inRange (p : Params) (a n : Nat) : Prop := a + n ≤ dmemSize p

/-- overlap(a, n, b, m) (R88). -/
abbrev overlap (a n b m : Nat) : Prop := 0 < n ∧ 0 < m ∧ a < b + m ∧ b < a + n

/-- The latched SRC_ADDR inside a command (R39). -/
def srcAddr (s : State) : Nat := s.latch.srcAddr.toNat

/-- The latched SRC_LEN inside a command (R39). -/
def srcLen (s : State) : Nat := s.latch.srcLen.toNat

/-- The latched DST_ADDR inside a command (R39). -/
def dstAddr (s : State) : Nat := s.latch.dstAddr.toNat

/-- The latched DST_CAP inside a command (R39). -/
def dstCap (s : State) : Nat := s.latch.dstCap.toNat

/-- The range check of COUNT (R87, R151). -/
abbrev srcOk (s : State) : Prop := inRange s.params (srcAddr s) (srcLen s)

/-- The range and overlap checks of ENCODE and DECODE (R87, R88, R220, R240). -/
abbrev rangesOk (s : State) : Prop :=
  srcOk s ∧ inRange s.params (dstAddr s) (dstCap s) ∧
    ¬ overlap (srcAddr s) (srcLen s) (dstAddr s) (dstCap s)

/-- CB[s] of a byte: a raw byte never selects the sentinel's entry (R206). -/
def codeOfByte (cb : Vector Bits 257) (b : Byte) : Bits :=
  cb[b.toNat]'(Nat.lt_of_lt_of_le b.isLt (by decide))

/-- CB[SENT], the sentinel's codeword (R53). -/
def codeOfSent (cb : Vector Bits 257) : Bits := cb[256]

/-- The weight of a node (R51). -/
def nodeWeight : Node → Word
  | .leaf w _ => w
  | .internal w _ _ => w

/-- The node info word (R179). -/
def nodeInfo : Node → Word
  | .leaf _ sym => sym.setWidth 32
  | .internal _ left right =>
    (1 : Word) <<< 31 ||| (right.setWidth 32 : Word) <<< 16 ||| (left.setWidth 32 : Word)

/-- pack(b, w) (R205): bits 32w to 32w + 31 of a codeword, most significant bit first, zeros beyond
its length. -/
def packWord (bs : Bits) (w : Nat) : Word :=
  BitVec.ofNat 32 (bitsValue (padTo 32 (bs.drop (32 * w))))

/-- The eight CWBITS words of a codeword (R204, R205). -/
def packCode (bs : Bits) : Vector Word 8 := Vector.ofFn fun w => packWord bs w.val

end Sys2Proof.Machine
end

