-- ==== Sys2Proof/Machine/Codebook.lean ====
section
/-! DEFINITION. The codebook: its derivation inside BUILD, and CB_LOOKUP (43_codebook.md). -/

namespace Sys2Proof.Machine

/-- visit(i, path) (R200): each leaf below node `i` gets its path. The first argument bounds the depth:
no path of a trie is longer than 256 (R176; DEDUCED, log entry 23), and a node that does not exist is not
visited. -/
def visit (node : Vector Node 513) : (depth i : Nat) → Bits → Vector Bits 257 → Vector Bits 257
  | 0, _, _, cb => cb
  | depth + 1, i, path, cb =>
    match node[i]? with
    | none => cb
    | some (.leaf _ sym) => cb.setIfInBounds sym.toNat path
    | some (.internal _ left right) =>
      visit node depth right.toNat (path ++ [true])
        (visit node depth left.toNat (path ++ [false]) cb)

/-- derive_codebook() (R200); a root that is a leaf gets the codeword "0" (R201). -/
def deriveCodebook (node : Vector Node 513) (root : Nat) : Vector Bits 257 :=
  match node[root]? with
  | some (.leaf _ sym) => (Vector.replicate 257 []).setIfInBounds sym.toNat [false]
  | _ => visit node 513 root [] (Vector.replicate 257 [])

/-- CB_LOOKUP (R204). An absent symbol is no error: its length reads 0. -/
def execCbLookup (idx : Nat) (s : State) : Host.Outcome State Fault Refusal :=
  if ¬ s.built then .next (raiseError .notBuilt s)
  else if h : idx < 257 then
    .next (complete errOk
      { s with
        res0 := BitVec.ofNat 32 s.cb[idx].length
        res1 := 0
        cwbits := packCode s.cb[idx] })
  else .next (raiseError .badIndex s)

end Sys2Proof.Machine
end

