-- ==== Sys2Proof/Machine/Control.lean ====
section
/-! DEFINITION. NOP and CLEAR (40_control.md). -/

namespace Sys2Proof.Machine

/-- NOP (R140): nothing but its completion. -/
def execNop (s : State) : Host.Outcome State Fault Refusal :=
  .next (complete errOk s)

/-- The codec state CLEAR leaves (R141). NODE and INQ are not assigned: they keep no observable value
(DEDUCED; log entry 9). -/
def clearCodec (s : State) : State :=
  { s with
    freq := Vector.replicate 256 0
    total := 0
    cb := Vector.replicate 257 []
    nodeCount := 0
    root := 0
    built := false }

/-- CLEAR (R141): discards the codec; the argument and result registers, CTRL and DMEM stay. -/
def execClear (s : State) : Host.Outcome State Fault Refusal :=
  .next (complete errOk (clearCodec s))

end Sys2Proof.Machine
end

