-- ==== Sys2Proof/Machine/Decoder.lean ====
section
/-! DEFINITION. DECODE (45_decoder.md). -/

namespace Sys2Proof.Machine

/-- Where the walk stands when it has followed leaves as far as no bit is needed (R240, R242). -/
inductive Standing where
  /-- AT_NODE: at an internal node with these children, needing a bit; `out` has been emitted -/
  | atNode (left right : Idx) (out : List Byte)
  /-- STOP: at the sentinel's leaf -/
  | stop (out : List Byte)
  /-- the walk would emit for ever or stands at no arena entry: no trie does this (log entry 13) -/
  | stuck
  deriving DecidableEq, Repr

/-- The loop of R240 from its head at the node `cur` up to the next bit: the sentinel's leaf stops, any
other leaf emits its symbol and restarts at the root. A root that is itself a leaf other than the
sentinel's would emit for ever. `out` is in reverse order. -/
def settle (node : Vector Node 513) (root cur : Nat) (out : List Byte) : Standing :=
  match node[cur]? with
  | none => .stuck
  | some (.internal _ left right) => .atNode left right out
  | some (.leaf _ sym) =>
    if sym.toNat = Config.sent then .stop out
    else
      match node[root]? with
      | none => .stuck
      | some (.internal _ left right) => .atNode left right (sym.setWidth 8 :: out)
      | some (.leaf _ rootSym) =>
        if rootSym.toNat = Config.sent then .stop (sym.setWidth 8 :: out) else .stuck

/-- What the walk ends with (R242). -/
inductive Walk where
  /-- the decoded symbols in order, and the number of bits consumed -/
  | stop (out : List Byte) (p : Nat)
  /-- FAIL: the bits ran out at an internal node (R244) -/
  | truncated
  /-- a needed byte that nothing has written (R91) -/
  | unwritten
  /-- the walk does not end (log entry 13) -/
  | stuck
  deriving DecidableEq, Repr

/-- The trie walk (R240, R241): `k` bits are left, bit `p` is next, and bit `p` is read only when it is
needed. The stream is at DMEM offset `a`. -/
def walk (node : Vector Node 513) (root : Nat) (m : Memory) (a : Nat) :
    (k cur p : Nat) → List Byte → Walk
  | 0, cur, p, out =>
    match settle node root cur out with
    | .stuck => .stuck
    | .stop out => .stop out.reverse p
    | .atNode _ _ _ => .truncated
  | k + 1, cur, p, out =>
    match settle node root cur out with
    | .stuck => .stuck
    | .stop out => .stop out.reverse p
    | .atNode left right out =>
      match streamBit m a p with
      | none => .unwritten
      | some b => walk node root m a k (if b then right.toNat else left.toNat) (p + 1) out

/-- DECODE's output stage (R240): capacity check, DMEM and result writes. -/
def emitSymbols (out : List Byte) (p : Nat) (s : State) : State :=
  if dstCap s < out.length then
    raiseBulk .outputOverflow (BitVec.ofNat 32 out.length) 0 s
  else
    finishBulk (BitVec.ofNat 32 out.length) (BitVec.ofNat 32 p)
      { s with mem := s.mem.writeBytes (dstAddr s) out }

/-- The walk of a DECODE of the latched source range, from the root at bit 0 (R240). -/
def decodeWalk (s : State) : Walk :=
  walk s.node s.root.toNat s.mem (srcAddr s) (8 * srcLen s) s.root.toNat 0 []

/-- DECODE (R240), with its checks in the order of R262. -/
def execDecode (s : State) : Host.Outcome State Fault Refusal :=
  if ¬ s.built then .next (raiseBulk .notBuilt 0 0 s)
  else if ¬ rangesOk s then .next (raiseBulk .badRange 0 0 s)
  else
    match decodeWalk s with
    | .unwritten => .fault .unwrittenByte
    | .stuck => .fault .brokenTrie
    | .truncated => .next (raiseBulk .truncatedInput 0 s.latch.srcLen s)
    | .stop out p => .next (emitSymbols out p s)

end Sys2Proof.Machine
end

