-- ==== Sys2Proof/Machine/Encoder.lean ====
section
/-! DEFINITION. ENCODE (44_encoder.md). -/

namespace Sys2Proof.Machine

/-- What ENCODE's translation of the message gives (R220). -/
inductive Translation where
  /-- the concatenated codewords -/
  | bits (bs : Bits)
  /-- the first message position whose byte has no codeword -/
  | unknown (pos : Nat)
  /-- a message byte that nothing has written (R91) -/
  | unwritten
  deriving DecidableEq, Repr

/-- Codeword `c` before what the rest of the message gives. -/
def prepend (c : Bits) : Translation → Translation
  | .bits bs => .bits (c ++ bs)
  | .unknown pos => .unknown pos
  | .unwritten => .unwritten

/-- The translation loop (R220), in message order: `n` bytes at DMEM offset a + i, message position i. -/
def translate (cb : Vector Bits 257) (m : Memory) (a : Nat) : (n i : Nat) → Translation
  | 0, _ => .bits []
  | n + 1, i =>
    match m.read (a + i) with
    | none => .unwritten
    | some b =>
      if codeOfByte cb b = [] then .unknown i
      else prepend (codeOfByte cb b) (translate cb m a n (i + 1))

/-- ceil(n / 8) (R11, R220). -/
def bytesFor (nbits : Nat) : Nat := (nbits + 7) / 8

/-- ENCODE's output stage (R220, R222): capacity check, padding, packing, DMEM and result writes. -/
def emitStream (bs : Bits) (s : State) : State :=
  if dstCap s < bytesFor bs.length then
    raiseBulk .outputOverflow (BitVec.ofNat 32 (bytesFor bs.length)) 0 s
  else
    finishBulk (BitVec.ofNat 32 (bytesFor bs.length)) (BitVec.ofNat 32 bs.length)
      { s with
        mem := s.mem.writeBytes (dstAddr s)
          (packBytes (bytesFor bs.length) (padTo (8 * bytesFor bs.length) bs)) }

/-- ENCODE (R220), with its checks in the order of R262. The sentinel's codeword always ends the stream. -/
def execEncode (s : State) : Host.Outcome State Fault Refusal :=
  if ¬ s.built then .next (raiseBulk .notBuilt 0 0 s)
  else if ¬ rangesOk s then .next (raiseBulk .badRange 0 0 s)
  else
    match translate s.cb s.mem (srcAddr s) (srcLen s) 0 with
    | .unwritten => .fault .unwrittenByte
    | .unknown pos => .next (raiseBulk .unknownSymbol 0 (BitVec.ofNat 32 pos) s)
    | .bits bs => .next (emitStream (bs ++ codeOfSent s.cb) s)

end Sys2Proof.Machine
end

