-- ==== Sys2Proof/Machine/Frequency.lean ====
section
/-! DEFINITION. COUNT and FREQ_READ (41_frequency.md). -/

namespace Sys2Proof.Machine

/-- FREQ[s] <- FREQ[s] + 1, on a 32-bit counter (R151, R153). -/
def bump (freq : Vector Word 256) (b : Byte) : Vector Word 256 :=
  freq.set b.toNat (freq[b.toNat]'b.isLt + 1) b.isLt

/-- COUNT's loop over the source bytes (R151). -/
def countBytes (freq : Vector Word 256) (bs : List Byte) : Vector Word 256 :=
  bs.foldl bump freq

/-- COUNT (R151), with its checks in the order of R262. -/
def execCount (s : State) : Host.Outcome State Fault Refusal :=
  if s.built then .next (raiseBulk .alreadyBuilt 0 0 s)
  else if ¬ srcOk s then .next (raiseBulk .badRange 0 0 s)
  else if Config.totalMax < s.total.toNat + srcLen s then .next (raiseBulk .corpusOverflow 0 0 s)
  else
    match s.mem.readBytes (srcAddr s) (srcLen s) with
    | none => .fault .unwrittenByte
    | some bs =>
      .next (finishBulk s.latch.srcLen 0
        { s with freq := countBytes s.freq bs, total := s.total + s.latch.srcLen })

/-- FREQ_READ (R152). -/
def execFreqRead (idx : Nat) (s : State) : Host.Outcome State Fault Refusal :=
  if h : idx < 256 then .next (complete errOk { s with res0 := s.freq[idx], res1 := 0 })
  else .next (raiseError .badIndex s)

end Sys2Proof.Machine
end

