-- ==== Sys2Proof/Machine/Trie.lean ====
section
/-! DEFINITION. The trie builder: BUILD and NODE_READ (42_trie_builder.md). -/

namespace Sys2Proof.Machine

/-- The builder's working state inside BUILD: the arena, the queue membership and the next free index
`n` (R171, R172). -/
structure Builder where
  node : Vector Node 513
  inq : Vector Bool 513
  n : Nat
  deriving DecidableEq, Repr

/-- NODE[n] <- x; INQ[n] <- 1; n <- n + 1 (R171, R172). -/
def push (x : Node) (b : Builder) : Builder :=
  { node := b.node.setIfInBounds b.n x, inq := b.inq.setIfInBounds b.n true, n := b.n + 1 }

/-- INQ[i] <- 0 (R172). -/
def dequeue (i : Nat) (b : Builder) : Builder :=
  { b with inq := b.inq.setIfInBounds i false }

/-- One leaf per byte value with a nonzero count, in ascending order; `s` is the byte value of the
first counter (R171). -/
def leavesFrom : (s : Nat) → List Word → List Node
  | _, [] => []
  | s, c :: cs =>
    if c = 0 then leavesFrom (s + 1) cs else .leaf c (BitVec.ofNat 10 s) :: leavesFrom (s + 1) cs

/-- The leaves of seed(): the corpus's, then the sentinel's, of weight 1 (R171). -/
def seedLeaves (freq : Vector Word 256) : List Node :=
  leavesFrom 0 freq.toList ++ [.leaf 1 (BitVec.ofNat 10 Config.sent)]

/-- seed() (R171). -/
def seed (node : Vector Node 513) (inq : Vector Bool 513) (freq : Vector Word 256) : Builder :=
  (seedLeaves freq).foldl (fun b x => push x b) { node := node, inq := inq, n := 0 }

/-- The queue: the indices below n with INQ = 1 (R52, R172). -/
def queue (b : Builder) : List Nat :=
  (List.range b.n).filter fun i => b.inq[i]? == some true

/-- tk of a leaf's symbol (R173): 2 * cp(k), plus 1 for the sentinel. -/
def symKey (cp : Byte) (sym : Idx) : Nat :=
  if sym.toNat = Config.sent then 2 * cp.toNat + 1 else 2 * sym.toNat

/-- key(i) = (weight, kind, tk) of node `i` (R173). -/
def nodeKey (cp : Byte) (i : Nat) : Node → Nat × Nat × Nat
  | .leaf w sym => (w.toNat, 0, symKey cp sym)
  | .internal w _ _ => (w.toNat, 1, i)

/-- Lexicographic order of keys (R173). -/
def keyLt (a b : Nat × Nat × Nat) : Bool :=
  decide (a.1 < b.1) || (decide (a.1 = b.1) &&
    (decide (a.2.1 < b.2.1) || (decide (a.2.1 = b.2.1) && decide (a.2.2 < b.2.2))))

/-- The tie-break arbiter (R173). -/
def precedes (cp : Byte) (node : Vector Node 513) (i j : Nat) : Bool :=
  match node[i]?, node[j]? with
  | some x, some y => keyLt (nodeKey cp i x) (nodeKey cp j y)
  | _, _ => false

/-- min_by(S, lt) (R11): the member that precedes the others. -/
def minBy (lt : Nat → Nat → Bool) : List Nat → Option Nat
  | [] => none
  | i :: is =>
    match minBy lt is with
    | none => some i
    | some j => if lt j i then some j else some i

/-- The least queued node (R172). -/
def least (cp : Byte) (b : Builder) : Option Nat := minBy (precedes cp b.node) (queue b)

/-- The weight of node `i` (R51). -/
def weightAt (node : Vector Node 513) (i : Nat) : Word := ((node[i]?).map nodeWeight).getD 0

/-- The parent of the extracted nodes x and y: x is its left child and y its right, and its weight is
their 32-bit sum (R172, R175). -/
def parentOf (node : Vector Node 513) (x y : Nat) : Node :=
  .internal (weightAt node x + weightAt node y) (BitVec.ofNat 10 x) (BitVec.ofNat 10 y)

/-- merge() (R172): while two nodes can be taken, take the two least and queue their parent. The first
argument bounds the rounds: each takes one node from the queue (R176; DEDUCED, log entry 23). -/
def merge (cp : Byte) : (rounds : Nat) → Builder → Builder
  | 0, b => b
  | k + 1, b =>
    match least cp b with
    | none => b
    | some x =>
      match least cp (dequeue x b) with
      | none => b
      | some y => merge cp k (push (parentOf b.node x y) (dequeue y (dequeue x b)))

/-- seed() and merge() together (R170): a trie from the counts and SENTINEL_CP. -/
def buildTrie (cp : Byte) (node : Vector Node 513) (inq : Vector Bool 513) (freq : Vector Word 256) :
    Builder :=
  merge cp (seed node inq freq).n (seed node inq freq)

/-- The index left in the queue (R170). -/
def rootOf (b : Builder) : Nat := (queue b).headD 0

/-- BUILD (R170). -/
def execBuild (s : State) : Host.Outcome State Fault Refusal :=
  if s.built then .next (raiseError .alreadyBuilt s)
  else
    let b := buildTrie s.params.sentinelCp s.node s.inq s.freq
    .next (complete errOk
      { s with
        node := b.node
        inq := b.inq
        nodeCount := BitVec.ofNat 10 b.n
        root := BitVec.ofNat 10 (rootOf b)
        cb := deriveCodebook b.node (rootOf b)
        built := true })

/-- NODE_READ (R178). -/
def execNodeRead (idx : Nat) (s : State) : Host.Outcome State Fault Refusal :=
  if ¬ s.built then .next (raiseError .notBuilt s)
  else if s.nodeCount.toNat ≤ idx then .next (raiseError .badIndex s)
  else
    match s.node[idx]? with
    | none => .fault .brokenTrie
    | some x => .next (complete errOk { s with res0 := nodeWeight x, res1 := nodeInfo x })

end Sys2Proof.Machine
end

