-- ==== Sys2Proof/Machine/Dispatch.lean ====
section
/-! DEFINITION. One engine step for a decoded command: its rule and its completion (30_encoding.md
R111, R116, R117). -/

namespace Sys2Proof.Machine

/-- The command's rule and its completion as one step (R116). -/
def exec (i : Instr) (s : State) : Host.Outcome State Fault Refusal :=
  match i with
  | .nop => Sys2Proof.Machine.execNop s
  | .clear => Sys2Proof.Machine.execClear s
  | .count => Sys2Proof.Machine.execCount s
  | .build => Sys2Proof.Machine.execBuild s
  | .encode => Sys2Proof.Machine.execEncode s
  | .decode => Sys2Proof.Machine.execDecode s
  | .cbLookup idx => Sys2Proof.Machine.execCbLookup idx s
  | .nodeRead idx => Sys2Proof.Machine.execNodeRead idx s
  | .freqRead idx => Sys2Proof.Machine.execFreqRead idx s

end Sys2Proof.Machine
end

