-- ==== Sys2Proof/Machine/Engine.lean ====
section
/-! DEFINITION. The engine's step for a pending command (30_encoding.md R114, R116, R117, R123 (b)). -/

namespace Sys2Proof.Machine

/-- Decode L_CMD and run the command; an illegal word completes with ILLEGAL_COMMAND and nothing else
(R114, R118). -/
def engineStep (s : State) : Host.Outcome State Fault Refusal :=
  match decode s.lCmd with
  | .ok i => exec i s
  | .error _ => .next (raiseError .illegalCommand s)

/-- The engine's turn: enabled only while BUSY = 1 (R123); an idle engine waits (R291; log entry 4). -/
def engineTurn (s : State) : Host.Outcome State Fault Refusal :=
  if s.busy then engineStep s else .next s

end Sys2Proof.Machine
end

