-- ==== Sys2Proof/Machine/HostBus.lean ====
section
/-! DEFINITION. The host's bus accesses: the register map (10_state.md R31 to R47), the aperture and its
errors (20_memory.md R81 to R85, R91, R93, R100), and the host's turn (30_encoding.md R119, R122, R123 (a)). -/

namespace Sys2Proof.Machine

/-- The host-visible registers (R31) and the reserved words (R45). -/
inductive Reg where
  | id
  | version
  | params
  | ctrl
  | status
  | cmd
  | srcAddr
  | srcLen
  | dstAddr
  | dstCap
  | resultLen
  | resultBits
  | errPos
  | total
  | nodeCount
  | root
  | res0
  | res1
  | cwbits (k : Fin 8)
  | reserved
  deriving DecidableEq, Repr

/-- The register at an aligned offset of the register space (R31, R45). -/
def regAt (o : Nat) : Reg :=
  match o with
  | 0x000 => .id
  | 0x004 => .version
  | 0x008 => .params
  | 0x00C => .ctrl
  | 0x010 => .status
  | 0x014 => .cmd
  | 0x018 => .srcAddr
  | 0x01C => .srcLen
  | 0x020 => .dstAddr
  | 0x024 => .dstCap
  | 0x028 => .resultLen
  | 0x02C => .resultBits
  | 0x030 => .errPos
  | 0x034 => .total
  | 0x038 => .nodeCount
  | 0x03C => .root
  | 0x040 => .res0
  | 0x044 => .res1
  | 0x048 => .cwbits 0
  | 0x04C => .cwbits 1
  | 0x050 => .cwbits 2
  | 0x054 => .cwbits 3
  | 0x058 => .cwbits 4
  | 0x05C => .cwbits 5
  | 0x060 => .cwbits 6
  | 0x064 => .cwbits 7
  | _ => .reserved

/-- The defined value of a register read (R31 to R45). -/
def regValue (r : Reg) (s : State) : Word :=
  match r with
  | .id => 0x48554646
  | .version => 0x00000001
  | .params => paramsWord s.params
  | .ctrl => ctrlWord s.ie
  | .status => statusWord s.busy s.done s.built s.ovr s.err
  | .cmd => 0
  | .srcAddr => s.args.srcAddr
  | .srcLen => s.args.srcLen
  | .dstAddr => s.args.dstAddr
  | .dstCap => s.args.dstCap
  | .resultLen => s.resultLen
  | .resultBits => s.resultBits
  | .errPos => s.errPos
  | .total => s.total
  | .nodeCount => s.nodeCount.setWidth 32
  | .root => s.root.setWidth 32
  | .res0 => s.res0
  | .res1 => s.res1
  | .cwbits k => s.cwbits[k]
  | .reserved => 0

/-- The registers whose whole value is unspecified while BUSY = 1 (R47; log entry 17). Of STATUS only ERR
and BUILT are: `busyValue`. -/
def freeWhileBusy : Reg → Bool
  | .id => false
  | .version => false
  | .params => false
  | .ctrl => false
  | .status => false
  | .cmd => false
  | .srcAddr => false
  | .srcLen => false
  | .dstAddr => false
  | .dstCap => false
  | .resultLen => true
  | .resultBits => true
  | .errPos => true
  | .total => true
  | .nodeCount => true
  | .root => true
  | .res0 => true
  | .res1 => true
  | .cwbits _ => true
  | .reserved => false

/-- What a register read gives while BUSY = 1, when the free value drawn for it is `f` (R47). -/
def busyValue (r : Reg) (f : Word) (s : State) : Word :=
  if freeWhileBusy r then f
  else if r = .status then statusWord s.busy s.done (f.getLsbD 2) s.ovr (f.extractLsb' 8 8)
  else regValue r s

/-- Whether a register read draws a free value: one that depends on it (R47; log entry 5). -/
def drawsFree (r : Reg) (s : State) : Bool := s.busy && (freeWhileBusy r || r == .status)

/-- The value a register read returns (R31, R47). -/
def readValue (r : Reg) (s : State) : Word :=
  if s.busy then busyValue r (Config.freeWord s.draws) s else regValue r s

/-- A completed read hands `v` to the host (R119). -/
def answer (v : Word) (s : State) : State := { s with readData := some v }

/-- A register read: no effect on the block (R93). -/
def readReg (r : Reg) (s : State) : State :=
  answer (readValue r s) { s with draws := if drawsFree r s then s.draws + 1 else s.draws }

/-- A register write (R31, R93): read-only registers and reserved words ignore it. -/
def writeReg (r : Reg) (v : Word) (s : State) : State :=
  match r with
  | .id => s
  | .version => s
  | .params => s
  | .ctrl => writeCtrl v s
  | .status => writeStatus v s
  | .cmd => writeCmd v s
  | .srcAddr => { s with args := { s.args with srcAddr := v } }
  | .srcLen => { s with args := { s.args with srcLen := v } }
  | .dstAddr => { s with args := { s.args with dstAddr := v } }
  | .dstCap => { s with args := { s.args with dstCap := v } }
  | .resultLen => s
  | .resultBits => s
  | .errPos => s
  | .total => s
  | .nodeCount => s
  | .root => s
  | .res0 => s
  | .res1 => s
  | .cwbits _ => s
  | .reserved => s

/-- Where a bus address leads (R85). -/
inductive Region where
  /-- the register space, at this offset -/
  | registers (o : Nat)
  /-- DMEM, at this byte offset -/
  | dmem (a : Nat)
  /-- the unmapped rest of the aperture -/
  | unmapped
  /-- not this block's address -/
  | outside
  deriving DecidableEq, Repr

/-- Aperture decode (R85); an address outside the aperture is the platform's (DEDUCED, safe: log entry 11). -/
def regionOf (p : Params) (addr : Nat) : Region :=
  if addr < busBase p ∨ Config.aperture ≤ addr - busBase p then .outside
  else
    let o := addr - busBase p
    if o < Config.dmemOff then .registers o
    else if o < Config.dmemOff + dmemSize p then .dmem (o - Config.dmemOff)
    else .unmapped

/-- A legal access to the register space (R83). -/
abbrev regAligned (o size : Nat) : Prop := size = 4 ∧ o % 4 = 0

/-- A legal access to DMEM (R82). -/
abbrev dmemAligned (a size : Nat) : Prop := (size = 1 ∨ size = 2 ∨ size = 4) ∧ a % size = 0

/-- A host read (R82 to R85, R91, R100). The size and alignment are checked before the use of DMEM
during BUSY (DEDUCED, safe: log entry 12). -/
def busRead (addr size : Nat) (s : State) : Host.Outcome State Fault Refusal :=
  match regionOf s.params addr with
  | .outside => .refused .outsideAperture
  | .unmapped => .fault .decodeError
  | .registers o => if regAligned o size then .next (readReg (regAt o) s) else .fault .slaveError
  | .dmem a =>
    if ¬ dmemAligned a size then .fault .slaveError
    else if s.busy then .refused .dmemWhileBusy
    else
      match s.mem.readLE a size with
      | none => .fault .unwrittenByte
      | some v => .next (answer v s)

/-- A host write (R82 to R85, R100). -/
def busWrite (addr size : Nat) (v : Word) (s : State) : Host.Outcome State Fault Refusal :=
  match regionOf s.params addr with
  | .outside => .refused .outsideAperture
  | .unmapped => .fault .decodeError
  | .registers o => if regAligned o size then .next (writeReg (regAt o) v s) else .fault .slaveError
  | .dmem a =>
    if ¬ dmemAligned a size then .fault .slaveError
    else if s.busy then .refused .dmemWhileBusy
    else .next { s with mem := s.mem.writeLE a size v }

/-- One host transaction (R119, R123 (a)). -/
def busAccess (t : BusTx) (s : State) : Host.Outcome State Fault Refusal :=
  match t with
  | .read addr size => busRead addr size s
  | .write addr size v => busWrite addr size v s

/-- One poll of WAIT (R122): RD STATUS, and the loop goes on while bit 0 of the value read is 1. -/
def pollStatus (rest : List HostOp) (s : State) : State :=
  if (readValue .status s).getLsbD 0 then readReg .status s
  else { readReg .status s with host := rest }

/-- The host's turn: its next transaction, or one poll of a WAIT. A host whose program has ended does
nothing (R301; log entry 4). -/
def hostTurn (s : State) : Host.Outcome State Fault Refusal :=
  match s.host with
  | [] => .next s
  | .bus t :: rest => busAccess t { s with host := rest }
  | .wait :: rest => .next (pollStatus rest s)

end Sys2Proof.Machine
end

