-- ==== Sys2Proof/Machine/HostProgram.lean ====
section
/-! DEFINITION. The host program lines and their expansion into transactions (30_encoding.md R120 to R122). -/

namespace Sys2Proof.Machine

/-- The offset of a register (R31); the reserved word named here is the first one, 0x068 (R45). -/
def regOffset : Reg → Nat
  | .id => 0x000
  | .version => 0x004
  | .params => 0x008
  | .ctrl => 0x00C
  | .status => 0x010
  | .cmd => 0x014
  | .srcAddr => 0x018
  | .srcLen => 0x01C
  | .dstAddr => 0x020
  | .dstCap => 0x024
  | .resultLen => 0x028
  | .resultBits => 0x02C
  | .errPos => 0x030
  | .total => 0x034
  | .nodeCount => 0x038
  | .root => 0x03C
  | .res0 => 0x040
  | .res1 => 0x044
  | .cwbits k => 0x048 + 4 * k.val
  | .reserved => 0x068

/-- A line of a host program (R120) or a pseudo-instruction (R122). -/
inductive HostLine where
  | wr (r : Reg) (v : Word)
  | rd (r : Reg)
  | sb (off : Nat) (v : Byte)
  | sh (off : Nat) (v : BitVec 16)
  | sw (off : Nat) (v : Word)
  | lb (off : Nat)
  | lh (off : Nat)
  | lw (off : Nat)
  | cmd (i : Instr)
  | wait
  | run (i : Instr)
  | setArgs (sa sl da dc : Word)
  | str (off : Nat) (text : List Char)
  | bytes (off : Nat) (bs : List Byte)
  | expect (r : Reg) (v : Word)
  | expectb (off : Nat) (v : Byte)
  deriving DecidableEq, Repr

/-- A write of a register (R120). -/
def writeOp (p : Params) (r : Reg) (v : Word) : HostOp :=
  .bus (.write (busBase p + regOffset r) 4 v)

/-- A read of a register (R120). -/
def readOp (p : Params) (r : Reg) : HostOp := .bus (.read (busBase p + regOffset r) 4)

/-- The bus address of DMEM offset `off` (R80, R120). -/
def dmemAddr (p : Params) (off : Nat) : Nat := busBase p + Config.dmemOff + off

/-- BYTES: one SB per byte (R122). -/
def storeBytes (p : Params) : (off : Nat) → List Byte → List HostOp
  | _, [] => []
  | off, b :: bs => .bus (.write (dmemAddr p off) 1 (b.setWidth 32)) :: storeBytes p (off + 1) bs

/-- The byte of a character: its ASCII code (R121; PRESUMED by the spec as general knowledge, log entry 21). -/
def asciiByte (c : Char) : Byte := BitVec.ofNat 8 c.toNat

/-- The transactions of a line (R120, R122). EXPECT and EXPECTB are reads: the comparison is the test's,
not a bus effect. -/
def expand (p : Params) : HostLine → List HostOp
  | .wr r v => [writeOp p r v]
  | .rd r => [readOp p r]
  | .sb off v => [.bus (.write (dmemAddr p off) 1 (v.setWidth 32))]
  | .sh off v => [.bus (.write (dmemAddr p off) 2 (v.setWidth 32))]
  | .sw off v => [.bus (.write (dmemAddr p off) 4 v)]
  | .lb off => [.bus (.read (dmemAddr p off) 1)]
  | .lh off => [.bus (.read (dmemAddr p off) 2)]
  | .lw off => [.bus (.read (dmemAddr p off) 4)]
  | .cmd i => [writeOp p .cmd (encode i)]
  | .wait => [.wait]
  | .run i => [writeOp p .cmd (encode i), .wait]
  | .setArgs sa sl da dc =>
    [writeOp p .srcAddr sa, writeOp p .srcLen sl, writeOp p .dstAddr da, writeOp p .dstCap dc]
  | .str off text => storeBytes p off (text.map asciiByte)
  | .bytes off bs => storeBytes p off bs
  | .expect r _ => [readOp p r]
  | .expectb off _ => [.bus (.read (dmemAddr p off) 1)]

/-- A host program's transactions, in order (R119). -/
def assemble (p : Params) (lines : List HostLine) : List HostOp := lines.flatMap (expand p)

/-- The machine `s` with a host program and the turns to come (log entry 14). -/
def load (lines : List HostLine) (turns : List Turn) (s : State) : State :=
  { s with host := assemble s.params lines, schedule := turns }

end Sys2Proof.Machine
end

