-- ==== Sys2Proof/Machine/Step.lean ====
section
/-! DEFINITION. One step of the machine (30_encoding.md R123): the host's, the engine's, or reset. -/

namespace Sys2Proof.Machine

/-- One agent's step. The schedule says whose turn it is, so every interleaving of R123 is a schedule.
When no turn is left, a pending command is executed first (the fairness of R300; log entry 3) and then
the host goes on. -/
def step (s : State) : Host.Outcome State Fault Refusal :=
  match s.schedule with
  | [] => if s.busy then engineStep s else hostTurn s
  | .host :: rest => hostTurn { s with schedule := rest }
  | .engine :: rest => engineTurn { s with schedule := rest }
  | .reset :: rest => .next (applyReset { s with schedule := rest })

/-- `s` just after the host has written the command word `w` to CMD and it was accepted (R112), with the
engine's turn next. A word of `nbits` bits has zeros above them. HUFFCORE fetches nothing (R98, R291):
this stands for the CMD write that brings the command (log entry 14). -/
def State.withFetchWord (s : State) (nbits w : Nat) : State :=
  { accept (BitVec.ofNat 32 (w % 2 ^ nbits)) s with schedule := .engine :: s.schedule }

end Sys2Proof.Machine
end

