-- ==== Sys2Proof/Safety.lean ====
section
/-! DEFINITION. What counts as a good state and a good step, in the terms the statements use: contents of
DMEM, frames, the invariants of 10_state.md R54, and the shape of a trie (42_trie_builder.md R172 to R176). -/

namespace Sys2Proof.Machine

/-! ## Contents of DMEM -/

/-- DMEM holds the bytes `bs` from offset `a` on. -/
abbrev holdsBytes (m : Memory) (a : Nat) (bs : List Byte) : Prop :=
  ∀ k (h : k < bs.length), m.read (a + k) = some bs[k]

/-- DMEM at offset `a` holds a bitstream that begins with the bits `bs` (R90). -/
abbrev holdsBits (m : Memory) (a : Nat) (bs : Bits) : Prop :=
  ∀ p (h : p < bs.length), streamBit m a p = some bs[p]

/-- The value of bytes read little-endian, the first byte lowest (R81). -/
def leValue (bs : List Byte) : Nat := bs.foldr (fun b v => b.toNat + 2 ^ 8 * v) 0

/-- Every byte outside the `n` bytes at offset `a` reads in `m'` as it reads in `m`. -/
def sameOutside (m m' : Memory) (a n : Nat) : Prop :=
  ∀ x, x < a ∨ a + n ≤ x → m'.read x = m.read x

/-! ## Frames -/

/-- The completion of R117 with an error code (R261). -/
structure Completed (t : State) (code : BitVec 8) : Prop where
  err : t.err = code
  busy : t.busy = false
  done : t.done = true

/-- The codec state of R15 is unchanged, as far as the spec lets anyone see it: INQ and the arena at and
above NODE_COUNT are unobservable (R51, R52). -/
structure SameCodec (s t : State) : Prop where
  freq : t.freq = s.freq
  total : t.total = s.total
  built : t.built = s.built
  nodeCount : t.nodeCount = s.nodeCount
  root : t.root = s.root
  cb : t.cb = s.cb
  node : ∀ i < s.nodeCount.toNat, t.node[i]? = s.node[i]?

/-- RESULT_LEN, RESULT_BITS and ERR_POS are unchanged (R42). -/
structure SameResults (s t : State) : Prop where
  resultLen : t.resultLen = s.resultLen
  resultBits : t.resultBits = s.resultBits
  errPos : t.errPos = s.errPos

/-- RES0, RES1 and CWBITS0 to CWBITS7 are unchanged (R44). -/
structure SameLookup (s t : State) : Prop where
  res0 : t.res0 = s.res0
  res1 : t.res1 = s.res1
  cwbits : t.cwbits = s.cwbits

/-- What no command ever writes is unchanged: the parameters, CTRL, OVR, the argument registers and the
latches, and what is outside the block (R35, R36, R38, R39). -/
structure SameRest (s t : State) : Prop where
  params : t.params = s.params
  ie : t.ie = s.ie
  ovr : t.ovr = s.ovr
  args : t.args = s.args
  lCmd : t.lCmd = s.lCmd
  latch : t.latch = s.latch
  host : t.host = s.host
  schedule : t.schedule = s.schedule
  readData : t.readData = s.readData
  draws : t.draws = s.draws

/-! ## Command words -/

/-- The words R118 calls illegal, by their value: RSV_HI, RSV_LO, OP, and IDX where it must be 0. -/
abbrev illegalWord (w : Nat) : Prop :=
  w / 2 ^ 26 ≠ 0 ∨ w / 2 ^ 8 % 2 ^ 8 ≠ 0 ∨ 8 < w % 2 ^ 8 ∨ (w % 2 ^ 8 < 6 ∧ w / 2 ^ 16 % 2 ^ 10 ≠ 0)

/-! ## The register map (R31) by value -/

/-- What a 4-byte read at each register offset returns while BUSY = 0 (R31 to R44), written as numbers. -/
def registerMap (s : State) : List (Nat × Word) :=
  [(0x000, 0x48554646), (0x004, 1),
   (0x008, BitVec.ofNat 32
      (8 + 2 ^ 8 * (8 + s.params.dmemExp.val) + 2 ^ 16 * 32 + 2 ^ 24 * s.params.sentinelCp.toNat)),
   (0x00C, BitVec.ofNat 32 s.ie.toNat),
   (0x010, BitVec.ofNat 32
      (s.busy.toNat + 2 * s.done.toNat + 4 * s.built.toNat + 8 * s.ovr.toNat + 2 ^ 8 * s.err.toNat)),
   (0x014, 0), (0x018, s.args.srcAddr), (0x01C, s.args.srcLen), (0x020, s.args.dstAddr),
   (0x024, s.args.dstCap), (0x028, s.resultLen), (0x02C, s.resultBits), (0x030, s.errPos),
   (0x034, s.total), (0x038, BitVec.ofNat 32 s.nodeCount.toNat), (0x03C, BitVec.ofNat 32 s.root.toNat),
   (0x040, s.res0), (0x044, s.res1), (0x048, s.cwbits[0]), (0x04C, s.cwbits[1]), (0x050, s.cwbits[2]),
   (0x054, s.cwbits[3]), (0x058, s.cwbits[4]), (0x05C, s.cwbits[5]), (0x060, s.cwbits[6]),
   (0x064, s.cwbits[7])]

/-- The offsets a host write can change something through: CTRL, STATUS, CMD and the argument registers
(R31, R93). -/
def writableOffsets : List Nat := [0x00C, 0x010, 0x014, 0x018, 0x01C, 0x020, 0x024]

/-- The offsets whose whole value is unspecified while BUSY = 1 (R47). -/
def unspecifiedOffsets : List Nat :=
  [0x028, 0x02C, 0x030, 0x034, 0x038, 0x03C, 0x040, 0x044, 0x048, 0x04C, 0x050, 0x054, 0x058, 0x05C,
   0x060, 0x064]

/-! ## Tries -/

/-- The symbol id of node `i`, if it is a leaf. -/
def leafSym (node : Vector Node 513) (i : Nat) : Option Nat :=
  match node[i]? with
  | some (.leaf _ sym) => some sym.toNat
  | _ => none

/-- Node `j` is an internal node and node `i` is one of its children. -/
def isChild (node : Vector Node 513) (i j : Nat) : Bool :=
  match node[j]? with
  | some (.internal _ left right) => left.toNat == i || right.toNat == i
  | _ => false

/-- The node reached from node `i` by a bit sequence, 0 left and 1 right (R202). -/
def follow (node : Vector Node 513) : Nat → Bits → Option Nat
  | i, [] => some i
  | i, b :: bs =>
    match node[i]? with
    | some (.internal _ left right) => follow node (if b then right.toNat else left.toNat) bs
    | _ => none

/-- The first `n` nodes are one binary tree with root `root` (R54): every leaf weight is > 0, every
internal weight is the sum of its children's, children come before their parent, every node but the root
is the child of exactly one node, and each symbol has at most one leaf, the sentinel exactly one. -/
structure TrieOk (node : Vector Node 513) (n root : Nat) : Prop where
  size : n ≤ 513
  rootLast : root + 1 = n
  leaves : ∀ i < n, ∀ w sym, node[i]? = some (.leaf w sym) → 0 < w.toNat ∧ sym.toNat ≤ Config.sent
  internals : ∀ i < n, ∀ w left right, node[i]? = some (.internal w left right) →
    left.toNat < i ∧ right.toNat < i ∧ left ≠ right ∧
      w.toNat = (weightAt node left.toNat).toNat + (weightAt node right.toNat).toNat
  oneParent : ∀ i < root, ((List.range n).filter (isChild node i)).length = 1
  distinct : ∀ i < n, ∀ j < n, leafSym node i ≠ none → leafSym node i = leafSym node j → i = j
  sentinel : ∃ i < n, leafSym node i = some Config.sent

/-- The codebook is the trie's (R200 to R202): with a root that is a leaf the sentinel's codeword is "0"
and there is no other; else a codeword leads from the root to its symbol's leaf, and every leaf's symbol
has one. -/
structure CodebookOk (node : Vector Node 513) (n root : Nat) (cb : Vector Bits 257) : Prop where
  oneLeaf : leafSym node root ≠ none → cb = (Vector.replicate 257 []).setIfInBounds Config.sent [false]
  paths : leafSym node root = none → ∀ k (h : k < 257), cb[k] ≠ [] →
    (follow node root cb[k]).bind (leafSym node) = some k
  present : ∀ i < n, ∀ k, leafSym node i = some k → ∃ h : k < 257, cb[k] ≠ []
  short : ∀ k (h : k < 257), cb[k].length ≤ Config.cwMax

/-! ## Invariants -/

/-- DMEM is in canonical form and holds only offsets below DMEM_SIZE (R80). -/
structure MemOk (s : State) : Prop where
  wf : Memory.wf s.mem
  bound : ∀ c ∈ s.mem, c.1 < dmemSize s.params

/-- BUSY and DONE are never both 1 (R112, R117), and STATUS.ERR is a code that is produced (R261). -/
structure HandshakeOk (s : State) : Prop where
  busyDone : s.busy = true → s.done = false
  err : s.err.toNat ≤ 9

/-- TOTAL is the sum of the counters and at most TOTAL_MAX (R50, R153). -/
structure CountsOk (s : State) : Prop where
  sum : (s.freq.toList.map BitVec.toNat).sum = s.total.toNat
  bound : s.total.toNat ≤ Config.totalMax

/-- The codec-state invariants (R54). -/
structure CodecOk (s : State) : Prop where
  unbuilt : s.built = false →
    s.nodeCount = 0 ∧ s.root = 0 ∧ s.cb = Vector.replicate 257 []
  trie : s.built = true → TrieOk s.node s.nodeCount.toNat s.root.toNat
  codebook : s.built = true → CodebookOk s.node s.nodeCount.toNat s.root.toNat s.cb

/-- The end of a run (R301): the host has performed its last transaction and BUSY = 0. -/
def runEnded (s : State) : Prop := s.host = [] ∧ s.busy = false

/-! ## BUILD -/

/-- cp(k), the code point of a symbol id in the leaf tie-break (R173). -/
def codePoint (cp : Byte) (k : Nat) : Nat := if k = Config.sent then cp.toNat else k

/-- How many byte values below `k` are in the corpus (R171). -/
def corpusBelow (freq : Vector Word 256) (k : Nat) : Nat :=
  ((List.range k).filter fun j => decide (freq[j]? ≠ some 0)).length

/-- L, the number of leaves: one per distinct corpus byte, and the sentinel's (R171). -/
def leafCount (freq : Vector Word 256) : Nat := corpusBelow freq 256 + 1

/-- Symbol id `k` has a leaf: a byte in the corpus, or the sentinel (R202). -/
abbrev hasLeaf (freq : Vector Word 256) (k : Nat) : Prop :=
  k = Config.sent ∨ (k < 256 ∧ freq[k]? ≠ some 0)

/-- Node `j` is in the queue when node `m` is created: it exists, and no earlier node is its parent
(R172). -/
def queuedAt (node : Vector Node 513) (m j : Nat) : Prop :=
  j < m ∧ ∀ i < m, isChild node j i = false

/-! ## Messages -/

/-- The concatenated codewords of a message (R220). -/
def codeBits (cb : Vector Bits 257) (msg : List Byte) : Bits := msg.flatMap (codeOfByte cb)

/-- The bits of an encoded message before padding: its codewords and the sentinel's (R220). -/
def streamOf (cb : Vector Bits 257) (msg : List Byte) : Bits := codeBits cb msg ++ codeOfSent cb

/-- Every byte of the message has a codeword. -/
abbrev encodable (cb : Vector Bits 257) (msg : List Byte) : Prop := ∀ b ∈ msg, codeOfByte cb b ≠ []

/-! ## What can be observed -/

/-- Two machines that differ at most in what the spec calls unobservable: INQ, the arena at and above
NODE_COUNT, and the latches of an idle engine (R39, R51, R52, R56). -/
structure SameVisible (s t : State) : Prop where
  params : t.params = s.params
  ie : t.ie = s.ie
  busy : t.busy = s.busy
  done : t.done = s.done
  built : t.built = s.built
  ovr : t.ovr = s.ovr
  err : t.err = s.err
  args : t.args = s.args
  resultLen : t.resultLen = s.resultLen
  resultBits : t.resultBits = s.resultBits
  errPos : t.errPos = s.errPos
  res0 : t.res0 = s.res0
  res1 : t.res1 = s.res1
  cwbits : t.cwbits = s.cwbits
  freq : t.freq = s.freq
  total : t.total = s.total
  nodeCount : t.nodeCount = s.nodeCount
  root : t.root = s.root
  cb : t.cb = s.cb
  mem : t.mem = s.mem
  host : t.host = s.host
  schedule : t.schedule = s.schedule
  readData : t.readData = s.readData
  draws : t.draws = s.draws
  pending : s.busy = true → t.lCmd = s.lCmd ∧ t.latch = s.latch
  node : ∀ i < s.nodeCount.toNat, t.node[i]? = s.node[i]?

end Sys2Proof.Machine
end

