-- ==== Sys2Proof/Certificates/Slice0/Obligations.lean ====
section
/-! DEFINITION. The statements for the provers, from the spec's numbered rules. -/

open Sys2Proof Sys2Proof.Machine

/-! ## Encoding -/

/-- R111, by words written out from the field table of R110: each opcode's word, three index forms, and
the illegal words T-C2 to T-C7 of 95_test_vectors.md. -/
def Obligations.CommandWordsDecode : Prop :=
  decode 0x00000000 = .ok .nop ∧ decode 0x00000001 = .ok .clear ∧ decode 0x00000002 = .ok .count ∧
  decode 0x00000003 = .ok .build ∧ decode 0x00000004 = .ok .encode ∧ decode 0x00000005 = .ok .decode ∧
  decode 0x01000006 = .ok (.cbLookup 256) ∧ decode 0x00040007 = .ok (.nodeRead 4) ∧
  decode 0x00610008 = .ok (.freqRead 0x61) ∧
  decode 0x00000009 = .error .reservedOpcode ∧ decode 0x000000FF = .error .reservedOpcode ∧
  decode 0x00010000 = .error .indexNotZero ∧ decode 0x00000106 = .error .reservedLow ∧
  decode 0x04000006 = .error .reservedHigh ∧ decode 0xFFFFFFFF = .error .reservedHigh

/-- R118: the illegal words are exactly those the rule names, and each completes with ILLEGAL_COMMAND and
no other effect. -/
def Obligations.IllegalWordsOnlyReportIllegalCommand : Prop :=
  (∀ w : Word, illegalWord w.toNat ↔ ∃ e, decode w = .error e) ∧
  ∀ s : State, illegalWord s.lCmd.toNat →
    engineStep s = .next { s with err := 0x09, busy := false, done := true }

/-- R110, R111: decoding the word of a well-formed command gives the command, at every index. -/
def Obligations.EncodeThenDecode : Prop :=
  ∀ i : Instr, i.wf → decode (encode i) = .ok i

/-- R110, R114: a word that decodes is the word of the command it decodes to, so each legal word has one
meaning. -/
def Obligations.DecodeThenEncode : Prop :=
  ∀ (w : Word) (i : Instr), decode w = .ok i → i.wf ∧ encode i = w

/-! ## Steps -/

/-- R114, R116, R123: an engine turn with a pending word is the engine's step, whatever the word: it runs
exactly the decoded command, or completes an illegal word with ILLEGAL_COMMAND and nothing else. The host's
turn is its next transaction. The model's own schedule (log entries 3 and 4) says whose turn it is. -/
def Obligations.StepRunsTheDecodedCommand : Prop :=
  (∀ (s : State) (rest : List Turn), s.busy = true → s.schedule = .engine :: rest →
    step s = engineStep { s with schedule := rest }) ∧
  (∀ s : State, s.busy = true → s.schedule = [] → step s = engineStep s) ∧
  (∀ (s : State) (rest : List Turn), s.busy = true → illegalWord s.lCmd.toNat →
    s.schedule = .engine :: rest →
    step s = .next { s with schedule := rest, err := 0x09, busy := false, done := true }) ∧
  (∀ s : State, s.busy = true → illegalWord s.lCmd.toNat → s.schedule = [] →
    step s = .next { s with err := 0x09, busy := false, done := true }) ∧
  (∀ (s : State) (i : Instr) (rest : List Turn), s.busy = true → decode s.lCmd = .ok i →
    s.schedule = .engine :: rest → step s = exec i { s with schedule := rest }) ∧
  (∀ (s : State) (i : Instr), s.busy = true → decode s.lCmd = .ok i → s.schedule = [] →
    step s = exec i s) ∧
  (∀ (s : State) (rest : List Turn), s.busy = false → s.schedule = .engine :: rest →
    step s = .next { s with schedule := rest }) ∧
  (∀ (s : State) (tx : BusTx) (rest : List Turn) (ops : List HostOp), s.schedule = .host :: rest →
    s.host = .bus tx :: ops → step s = busAccess tx { s with schedule := rest, host := ops }) ∧
  (∀ (s : State) (tx : BusTx) (ops : List HostOp), s.busy = false → s.schedule = [] →
    s.host = .bus tx :: ops → step s = busAccess tx { s with host := ops })

/-- R122, R300 (with the model's schedule, log entry 3): a host that polls in WAIT `n` times before the
engine's turn comes goes on after `n + 2` steps, with the engine's step done and nothing else changed but
what the host has read and the counter of free values. For an illegal word and for NOP, CLEAR, BUILD,
CB_LOOKUP and FREQ_READ in every state; for every command if the codec invariants hold and the source bytes
of COUNT, ENCODE and DECODE have been written. -/
def Obligations.WaitEndsWhenTheCommandCompletes : Prop :=
  ∀ (n : Nat) (s : State) (rest : List HostOp), s.busy = true →
    (illegalWord s.lCmd.toNat ∨ ∃ i, decode s.lCmd = .ok i ∧
      (i = .nop ∨ i = .clear ∨ i = .build ∨ (∃ k, i = .cbLookup k) ∨ (∃ k, i = .freqRead k) ∨
        (CodecOk s ∧ (i = .count ∨ i = .encode ∨ i = .decode →
          ∀ k < srcLen s, s.mem.read (srcAddr s + k) ≠ none)))) →
    s.host = .wait :: rest → s.schedule = List.replicate n .host →
    ∃ t u : State, core.run (n + 2) s = .next t ∧ t.busy = false ∧ engineStep s = .next u ∧
      t = { u with host := rest, schedule := [], readData := t.readData, draws := t.draws }

/-! ## Handshake and interrupt -/

/-- R112: a write of any word to CMD while idle is accepted, and changes nothing else; irq falls. An
illegal word is accepted too, and the engine's step then completes it with ILLEGAL_COMMAND. -/
def Obligations.IdleCommandWriteIsAccepted : Prop :=
  ∀ (s : State) (v : Word), s.busy = false →
    busWrite (busBase s.params + 0x014) 4 v s =
      .next { s with lCmd := v, latch := s.args, busy := true, done := false } ∧
    irq { s with lCmd := v, latch := s.args, busy := true, done := false } = false ∧
    (illegalWord v.toNat →
      engineStep { s with lCmd := v, latch := s.args, busy := true, done := false } =
        .next { s with lCmd := v, latch := s.args, busy := false, done := true, err := 0x09 })

/-- R113: a write to CMD while BUSY = 1 is dropped and only sets OVR; the running command then ends as it
would have; and OVR stays 1 until the host writes 1 to STATUS bit 3 (or reset is asserted, R290). -/
def Obligations.BusyCommandWriteIsDropped : Prop :=
  (∀ (s : State) (v : Word), s.busy = true →
    busWrite (busBase s.params + 0x014) 4 v s = .next { s with ovr := true }) ∧
  (∀ s t : State, engineStep s = .next t →
    engineStep { s with ovr := true } = .next { t with ovr := true }) ∧
  ∀ s t : State, s.ovr = true → step s = .next t →
    t.ovr = true ∨ (∃ rest, s.schedule = .reset :: rest) ∨
    ∃ w ops, s.host = .bus (.write (busBase s.params + 0x010) 4 w) :: ops ∧ t.host = ops ∧
      w.getLsbD 3 = true

/-- R35, R36, R38: what a write of CTRL, STATUS and each argument register does, at any time and to nothing
else; a running command keeps its latched arguments (R39, R297). -/
def Obligations.RegisterWritesTakeEffect : Prop :=
  ∀ (s : State) (v : Word),
    busWrite (busBase s.params + 0x00C) 4 v s = .next { s with ie := v.getLsbD 0 } ∧
    busWrite (busBase s.params + 0x010) 4 v s =
      .next { s with done := s.done && !v.getLsbD 1, ovr := s.ovr && !v.getLsbD 3 } ∧
    busWrite (busBase s.params + 0x018) 4 v s = .next { s with args := { s.args with srcAddr := v } } ∧
    busWrite (busBase s.params + 0x01C) 4 v s = .next { s with args := { s.args with srcLen := v } } ∧
    busWrite (busBase s.params + 0x020) 4 v s = .next { s with args := { s.args with dstAddr := v } } ∧
    busWrite (busBase s.params + 0x024) 4 v s = .next { s with args := { s.args with dstCap := v } }

/-- R117: every command that ends, well or with an error, clears BUSY, sets DONE and leaves a code that
R261 lists; and no command writes CTRL, OVR, the argument registers, the latches or anything outside the
block (R35, R38, R46). -/
def Obligations.EveryCompletionSetsTheFlags : Prop :=
  ∀ (i : Instr) (s t : State), exec i s = .next t →
    Completed t t.err ∧ t.err.toNat ≤ 9 ∧ SameRest s t

/-- R262: the error codes each command can report. -/
def Obligations.ErrorCodesOfEachCommand : Prop :=
  ∀ s t : State,
    (exec .nop s = .next t → t.err = 0x00) ∧
    (exec .clear s = .next t → t.err = 0x00) ∧
    (exec .count s = .next t → t.err ∈ [0x00, 0x04, 0x06, 0x08]) ∧
    (exec .build s = .next t → t.err ∈ [0x00, 0x04]) ∧
    (exec .encode s = .next t → t.err ∈ [0x00, 0x03, 0x06, 0x01, 0x05]) ∧
    (exec .decode s = .next t → t.err ∈ [0x00, 0x03, 0x06, 0x02, 0x05]) ∧
    ∀ idx, (exec (.cbLookup idx) s = .next t → t.err ∈ [0x00, 0x03, 0x07]) ∧
      (exec (.nodeRead idx) s = .next t → t.err ∈ [0x00, 0x03, 0x07]) ∧
      (exec (.freqRead idx) s = .next t → t.err ∈ [0x00, 0x07])

/-- R266: irq is CTRL.IE AND STATUS.DONE in every state; every completion raises it when IE = 1, success,
error and illegal word alike; and no step raises it but a completion, or a CTRL write that sets IE while
DONE = 1 (R267): not a dropped CMD write and not reset. -/
def Obligations.InterruptLineFollowsCompletion : Prop :=
  (∀ s : State, irq s = true ↔ s.ie = true ∧ s.done = true) ∧
  (∀ s t : State, engineStep s = .next t → irq t = s.ie) ∧
  ∀ s t : State, step s = .next t → irq s = false → irq t = true →
    (s.busy = true ∧ t.busy = false ∧ t.done = true) ∨
    (s.done = true ∧ s.ie = false ∧ ∃ w ops,
      s.host = .bus (.write (busBase s.params + 0x00C) 4 w) :: ops ∧ t.host = ops ∧
      w.getLsbD 0 = true)

/-! ## The host's bus -/

/-- R31 to R44: what a read of each register returns while BUSY = 0. -/
def Obligations.RegistersReadTheirValues : Prop :=
  ∀ s : State, s.busy = false → ∀ e ∈ registerMap s,
    busRead (busBase s.params + e.1) 4 s = .next { s with readData := some e.2 }

/-- R47: while BUSY = 1, STATUS shows BUSY = 1, DONE = 0, OVR and zeros in its reserved bits (its other
bits are free); the unspecified registers answer some word; all others read as they do when idle. What is
said holds for every value of the free words (log entry 5). -/
def Obligations.BusyReadsShowTheDefinedFields : Prop :=
  ∀ s : State, HandshakeOk s → s.busy = true →
    (∀ o ∈ unspecifiedOffsets, ∃ v, busRead (busBase s.params + o) 4 s =
      .next { s with readData := some v, draws := s.draws + 1 }) ∧
    (∃ v : Word, busRead (busBase s.params + 0x010) 4 s =
        .next { s with readData := some v, draws := s.draws + 1 } ∧
      v.getLsbD 0 = true ∧ v.getLsbD 1 = false ∧ v.getLsbD 3 = s.ovr ∧
      ∀ b, ((4 ≤ b ∧ b < 8) ∨ 16 ≤ b) → v.getLsbD b = false) ∧
    ∀ e ∈ registerMap s, e.1 ∉ unspecifiedOffsets → e.1 ≠ 0x010 →
      busRead (busBase s.params + e.1) 4 s = .next { s with readData := some e.2 }

/-- R93: a host read that completes changes nothing of the block, only what the host has read and the
model's counter of free values (log entries 5 and 6). -/
def Obligations.ReadsHaveNoSideEffect : Prop :=
  ∀ (addr size : Nat) (s t : State), busRead addr size s = .next t →
    t = { s with readData := t.readData, draws := t.draws }

/-- R45, R93: a write of any register but CTRL, STATUS, CMD and the argument registers is ignored, and so
is a write of a reserved word; a reserved word reads 0. -/
def Obligations.ReadOnlyAndReservedWordsIgnoreWrites : Prop :=
  (∀ (s : State) (o : Nat) (v : Word), o < 0x10000 → o % 4 = 0 → o ∉ writableOffsets →
    busWrite (busBase s.params + o) 4 v s = .next s) ∧
  ∀ (s : State) (o : Nat), 0x068 ≤ o → o < 0x10000 → o % 4 = 0 →
    busRead (busBase s.params + o) 4 s = .next { s with readData := some 0 }

/-- R84, R85, R100: which accesses get SLVERR and DECERR (host faults), which are refused because BUSY = 1,
and that an address outside the aperture is not this block's. -/
def Obligations.StoppedBusAccesses : Prop :=
  ∀ (s : State) (size : Nat) (v : Word),
    (∀ o, o < 0x10000 → (size ≠ 4 ∨ o % 4 ≠ 0) →
      busRead (busBase s.params + o) size s = .fault .slaveError ∧
      busWrite (busBase s.params + o) size v s = .fault .slaveError) ∧
    (∀ a, a < dmemSize s.params → ¬ ((size = 1 ∨ size = 2 ∨ size = 4) ∧ a % size = 0) →
      busRead (busBase s.params + 0x10000 + a) size s = .fault .slaveError ∧
      busWrite (busBase s.params + 0x10000 + a) size v s = .fault .slaveError) ∧
    (∀ a, a < dmemSize s.params → (size = 1 ∨ size = 2 ∨ size = 4) ∧ a % size = 0 → s.busy = true →
      busRead (busBase s.params + 0x10000 + a) size s = .refused .dmemWhileBusy ∧
      busWrite (busBase s.params + 0x10000 + a) size v s = .refused .dmemWhileBusy) ∧
    (∀ o, 0x10000 + dmemSize s.params ≤ o → o < 2 ^ 24 →
      busRead (busBase s.params + o) size s = .fault .decodeError ∧
      busWrite (busBase s.params + o) size v s = .fault .decodeError) ∧
    (∀ addr, addr < busBase s.params ∨ busBase s.params + 2 ^ 24 ≤ addr →
      busRead addr size s = .refused .outsideAperture ∧
      busWrite addr size v s = .refused .outsideAperture)

/-- R81, R82, R93: an aligned host write to DMEM while idle stores the value's low bytes, the lowest byte
first, and changes nothing else. -/
def Obligations.DmemWriteIsLittleEndianAndLocal : Prop :=
  ∀ (s : State) (a size : Nat) (v : Word), s.busy = false → a < dmemSize s.params →
    (size = 1 ∨ size = 2 ∨ size = 4) → a % size = 0 →
    ∃ t, busWrite (busBase s.params + 0x10000 + a) size v s = .next t ∧
      (∀ j < size, t.mem.read (a + j) = some (BitVec.ofNat 8 (v.toNat / 2 ^ (8 * j)))) ∧
      sameOutside s.mem t.mem a size ∧ t = { s with mem := t.mem }

/-- R81, R82: an aligned host read of written bytes while idle returns them little-endian, zero-extended. -/
def Obligations.DmemReadIsLittleEndian : Prop :=
  ∀ (s : State) (a : Nat) (bs : List Byte), s.busy = false → a < dmemSize s.params →
    (bs.length = 1 ∨ bs.length = 2 ∨ bs.length = 4) → a % bs.length = 0 → holdsBytes s.mem a bs →
    busRead (busBase s.params + 0x10000 + a) bs.length s =
      .next { s with readData := some (BitVec.ofNat 32 (leValue bs)) }

/-- R91: a host read or a command read (COUNT, ENCODE, DECODE) of a byte that nothing has written is a
fault and not a value. For ENCODE the bytes before it have codewords; for DECODE the bits before it are
those of whole codewords and a partial one. -/
def Obligations.UnwrittenBytesFault : Prop :=
  (∀ (s : State) (a size k : Nat), s.busy = false → a < dmemSize s.params →
    (size = 1 ∨ size = 2 ∨ size = 4) → a % size = 0 → k < size → s.mem.read (a + k) = none →
    busRead (busBase s.params + 0x10000 + a) size s = .fault .unwrittenByte) ∧
  (∀ (s : State) (k : Nat), s.built = false → srcOk s →
    s.total.toNat + srcLen s ≤ Config.totalMax → k < srcLen s → s.mem.read (srcAddr s + k) = none →
    exec .count s = .fault .unwrittenByte) ∧
  (∀ (s : State) (pre : List Byte), s.built = true → rangesOk s → encodable s.cb pre →
    holdsBytes s.mem (srcAddr s) pre → pre.length < srcLen s →
    s.mem.read (srcAddr s + pre.length) = none → exec .encode s = .fault .unwrittenByte) ∧
  ∀ (s : State) (msg : List Byte) (q : Bits) (i k : Nat), CodecOk s → s.built = true → rangesOk s →
    encodable s.cb msg → holdsBits s.mem (srcAddr s) (codeBits s.cb msg ++ q) →
    (codeBits s.cb msg ++ q).length = 8 * k → follow s.node s.root.toNat q = some i →
    leafSym s.node i = none → k < srcLen s → s.mem.read (srcAddr s + k) = none →
    exec .decode s = .fault .unwrittenByte

/-! ## NOP and CLEAR -/

/-- R140: NOP completes with OK and changes nothing else. -/
def Obligations.NopOnlyCompletes : Prop :=
  ∀ s : State, exec .nop s = .next { s with err := 0x00, busy := false, done := true }

/-- R141: CLEAR empties the codec and completes; CTRL, the argument and result registers and all of DMEM
stay. -/
def Obligations.ClearEmptiesTheCodec : Prop :=
  ∀ s : State, ∃ t, exec .clear s = .next t ∧ Completed t 0x00 ∧
    (∀ k (h : k < 256), t.freq[k] = 0) ∧ t.total = 0 ∧ (∀ k (h : k < 257), t.cb[k] = []) ∧
    t.nodeCount = 0 ∧ t.root = 0 ∧ t.built = false ∧
    SameResults s t ∧ SameLookup s t ∧ SameRest s t ∧ ∀ a, t.mem.read a = s.mem.read a

/-! ## COUNT and FREQ_READ -/

/-- R151: COUNT of a readable range in an unbuilt codec adds the number of occurrences of each byte to its
counter and SRC_LEN to TOTAL, and writes the result registers; nothing else changes. -/
def Obligations.CountAddsTheSourceBytes : Prop :=
  ∀ (s : State) (bs : List Byte), s.built = false → srcOk s →
    s.total.toNat + srcLen s ≤ Config.totalMax → bs.length = srcLen s →
    holdsBytes s.mem (srcAddr s) bs →
    ∃ t, exec .count s = .next t ∧ Completed t 0x00 ∧
      (∀ k (h : k < 256), t.freq[k] = s.freq[k] + BitVec.ofNat 32 (bs.count (BitVec.ofNat 8 k))) ∧
      t.total.toNat = s.total.toNat + srcLen s ∧
      t.resultLen = s.latch.srcLen ∧ t.resultBits = 0 ∧ t.errPos = 0 ∧
      t.built = s.built ∧ t.node = s.node ∧ t.nodeCount = s.nodeCount ∧ t.root = s.root ∧
      t.cb = s.cb ∧ SameLookup s t ∧ SameRest s t ∧ ∀ a, t.mem.read a = s.mem.read a

/-- R151, R262, R264: when COUNT raises which error, in this order, and what the error writes. -/
def Obligations.CountRefusesInOrder : Prop :=
  ∀ s : State,
    (s.built = true → exec .count s = .next
      { s with err := 0x04, busy := false, done := true, resultLen := 0, resultBits := 0, errPos := 0 }) ∧
    (s.built = false → dmemSize s.params < srcAddr s + srcLen s → exec .count s = .next
      { s with err := 0x06, busy := false, done := true, resultLen := 0, resultBits := 0, errPos := 0 }) ∧
    (s.built = false → srcAddr s + srcLen s ≤ dmemSize s.params →
      0xFFFFFFFE < s.total.toNat + srcLen s → exec .count s = .next
      { s with err := 0x08, busy := false, done := true, resultLen := 0, resultBits := 0, errPos := 0 })

/-- R151: counting a range in two pieces gives the same table and TOTAL as counting it at once. -/
def Obligations.CountInPiecesEqualsCountAtOnce : Prop :=
  ∀ (s t u : State) (a n m d c : Word),
    exec .count { s with latch := { srcAddr := a, srcLen := n, dstAddr := d, dstCap := c } } = .next t →
    t.err = 0x00 →
    exec .count { t with latch := { srcAddr := a + n, srcLen := m, dstAddr := d, dstCap := c } } = .next u →
    u.err = 0x00 →
    ∃ v, exec .count { s with latch := { srcAddr := a, srcLen := n + m, dstAddr := d, dstCap := c } } =
        .next v ∧ v.err = 0x00 ∧ v.freq = u.freq ∧ v.total = u.total

/-- R152: FREQ_READ of a byte value returns its counter, built or not; another index is BAD_INDEX and
leaves RES0 and RES1. Nothing else changes. -/
def Obligations.FreqReadReturnsTheCounter : Prop :=
  (∀ (s : State) (idx : Nat) (h : idx < 256), exec (.freqRead idx) s = .next
    { s with err := 0x00, busy := false, done := true, res0 := s.freq[idx], res1 := 0 }) ∧
  ∀ (s : State) (idx : Nat), 256 ≤ idx → exec (.freqRead idx) s = .next
    { s with err := 0x07, busy := false, done := true }

/-- R50, R153: in every step TOTAL stays the sum of the counters and at most TOTAL_MAX, so no counter ever
wraps. -/
def Obligations.CountsStayExact : Prop :=
  ∀ s t : State, CountsOk s → step s = .next t → CountsOk t

/-! ## BUILD and NODE_READ -/

/-- R170: BUILD of an unbuilt codec always succeeds, sets BUILT, and leaves FREQ, TOTAL, the result
registers and DMEM; of a built one it is ALREADY_BUILT and nothing changes. -/
def Obligations.BuildFreezesTheCodec : Prop :=
  (∀ s : State, s.built = false → ∃ t, exec .build s = .next t ∧ Completed t 0x00 ∧ t.built = true ∧
    t.freq = s.freq ∧ t.total = s.total ∧ SameResults s t ∧ SameLookup s t ∧ SameRest s t ∧
    ∀ a, t.mem.read a = s.mem.read a) ∧
  ∀ s : State, s.built = true →
    exec .build s = .next { s with err := 0x04, busy := false, done := true }

/-- R171: the leaves stand at the lowest indices, one per byte of the corpus in ascending order with its
count as weight, and the sentinel's, of weight 1, last. -/
def Obligations.BuildSeedsTheLeavesInOrder : Prop :=
  ∀ s : State, s.built = false → ∃ t, exec .build s = .next t ∧
    (∀ k (h : k < 256), s.freq[k] ≠ 0 →
      t.node[corpusBelow s.freq k]? = some (.leaf s.freq[k] (BitVec.ofNat 10 k))) ∧
    t.node[leafCount s.freq - 1]? = some (.leaf 1 256)

/-- R176: with L leaves there are 2L - 1 nodes, the leaves first; the last is the root; each internal node
has two different children below it in index, and every node but the root has exactly one parent. -/
def Obligations.BuildMakesOneBinaryTree : Prop :=
  ∀ s : State, s.built = false → ∃ t, exec .build s = .next t ∧
    leafCount s.freq ≤ 257 ∧ t.nodeCount.toNat = 2 * leafCount s.freq - 1 ∧
    t.root.toNat + 1 = t.nodeCount.toNat ∧
    (∀ i < leafCount s.freq, leafSym t.node i ≠ none) ∧
    (∀ i, leafCount s.freq ≤ i → i < t.nodeCount.toNat → ∃ w left right,
      t.node[i]? = some (.internal w left right) ∧ left.toNat < i ∧ right.toNat < i ∧ left ≠ right) ∧
    ∀ i < t.root.toNat, ∃ p < t.nodeCount.toNat, isChild t.node i p = true ∧
      ∀ p' < t.nodeCount.toNat, isChild t.node i p' = true → p' = p

/-- R172: each internal node is the parent of the two least queued nodes, the least on its left, and its
weight is their 32-bit sum (R175). A node is queued if it exists and has no parent yet. -/
def Obligations.BuildMergesTheTwoLeast : Prop :=
  ∀ s : State, s.built = false → ∃ t, exec .build s = .next t ∧
    ∀ m w left right, m < t.nodeCount.toNat → t.node[m]? = some (.internal w left right) →
      queuedAt t.node m left.toNat ∧ queuedAt t.node m right.toNat ∧
      (∀ j, queuedAt t.node m j → j ≠ left.toNat →
        precedes s.params.sentinelCp t.node left.toNat j = true) ∧
      (∀ j, queuedAt t.node m j → j ≠ left.toNat → j ≠ right.toNat →
        precedes s.params.sentinelCp t.node right.toNat j = true) ∧
      w = weightAt t.node left.toNat + weightAt t.node right.toNat

/-- R173: the tie-break: weight ascending; then leaves by code point, the sentinel just after a byte of the
same value; then a leaf before an internal node; then the internal node created first. SENTINEL_CP is a
parameter, 0x04 by default. -/
def Obligations.TieBreakFollowsTheFourKeys : Prop :=
  Params.default.sentinelCp = 0x04 ∧ ∀ (cp : Byte) (node : Vector Node 513) (i j : Nat),
    (∀ w v a b, node[i]? = some (.leaf w a) → node[j]? = some (.leaf v b) →
      (precedes cp node i j = true ↔ w.toNat < v.toNat ∨ (w = v ∧
        (codePoint cp a.toNat < codePoint cp b.toNat ∨
          (codePoint cp a.toNat = codePoint cp b.toNat ∧ a.toNat ≠ 256 ∧ b.toNat = 256))))) ∧
    (∀ w v a l r, node[i]? = some (.leaf w a) → node[j]? = some (.internal v l r) →
      (precedes cp node i j = true ↔ w.toNat ≤ v.toNat) ∧
      (precedes cp node j i = true ↔ v.toNat < w.toNat)) ∧
    (∀ w v l r l' r', node[i]? = some (.internal w l r) → node[j]? = some (.internal v l' r') →
      (precedes cp node i j = true ↔ w.toNat < v.toNat ∨ (w = v ∧ i < j)))

/-- R174: where different leaves hold different symbols, as in every BUILD, the arbiter is a strict total
order of the nodes. -/
def Obligations.ArbiterIsAStrictTotalOrder : Prop :=
  ∀ (cp : Byte) (node : Vector Node 513) (n : Nat), n ≤ 513 →
    (∀ i < n, ∀ j < n, leafSym node i ≠ none → leafSym node i = leafSym node j → i = j) →
    ∀ i < n, ∀ j < n, ∀ k < n,
      precedes cp node i i = false ∧
      (i ≠ j → precedes cp node i j = !precedes cp node j i) ∧
      (precedes cp node i j = true → precedes cp node j k = true → precedes cp node i k = true)

/-- R174: the trie and the codebook are a function of FREQ and SENTINEL_CP alone: two machines that agree
on these build the same, whatever else they hold. -/
def Obligations.BuildDependsOnCountsAndCodePointOnly : Prop :=
  ∀ s s' : State, s.built = false → s'.built = false → s'.freq = s.freq →
    s'.params.sentinelCp = s.params.sentinelCp →
    ∃ t t', exec .build s = .next t ∧ exec .build s' = .next t' ∧ t'.nodeCount = t.nodeCount ∧
      t'.root = t.root ∧ t'.cb = t.cb ∧ ∀ i < t.nodeCount.toNat, t'.node[i]? = t.node[i]?

/-- R177, R201: an empty corpus builds the sentinel's leaf alone, with the codeword "0"; a corpus of one
distinct byte builds two leaves, the sentinel on the left exactly if the byte's count is at least 2 or its
value is above SENTINEL_CP. -/
def Obligations.DegenerateCorporaBuildOneOrTwoLeaves : Prop :=
  (∀ s : State, s.built = false → (∀ k (h : k < 256), s.freq[k] = 0) → ∃ t, exec .build s = .next t ∧
    t.nodeCount = 1 ∧ t.root = 0 ∧ t.node[0]? = some (.leaf 1 256) ∧ t.cb[256] = [false] ∧
    ∀ k (h : k < 256), t.cb[k] = []) ∧
  ∀ (s : State) (a : Nat) (ha : a < 256), s.built = false → s.freq[a] ≠ 0 →
    (∀ k (h : k < 256), k ≠ a → s.freq[k] = 0) → ∃ t, exec .build s = .next t ∧
    t.nodeCount = 3 ∧ t.root = 2 ∧
    t.node[0]? = some (.leaf s.freq[a] (BitVec.ofNat 10 a)) ∧ t.node[1]? = some (.leaf 1 256) ∧
    if 2 ≤ s.freq[a].toNat ∨ s.params.sentinelCp.toNat < a
    then t.node[2]? = some (.internal (s.freq[a] + 1) 1 0) ∧ t.cb[256] = [false] ∧ t.cb[a] = [true]
    else t.node[2]? = some (.internal (s.freq[a] + 1) 0 1) ∧ t.cb[256] = [true] ∧ t.cb[a] = [false]

/-- R200, R202: after BUILD exactly the corpus bytes and the sentinel have codewords; with two leaves or
more each codeword leads from the root to its symbol's leaf and is at most L - 1 bits long; with one leaf
the sentinel's has 1 bit. -/
def Obligations.CodewordsAreRootToLeafPaths : Prop :=
  ∀ s : State, s.built = false → ∃ t, exec .build s = .next t ∧
    (∀ k (h : k < 257), t.cb[k] ≠ [] ↔ hasLeaf s.freq k) ∧
    (2 ≤ leafCount s.freq → ∀ k (h : k < 257), hasLeaf s.freq k →
      (follow t.node t.root.toNat t.cb[k]).bind (leafSym t.node) = some k ∧
      t.cb[k].length ≤ leafCount s.freq - 1) ∧
    (leafCount s.freq = 1 → t.cb[256].length = 1)

/-- R202: no codeword of a built codebook is the beginning of another's. -/
def Obligations.CodebookIsPrefixFree : Prop :=
  ∀ s : State, s.built = false → ∃ t, exec .build s = .next t ∧
    ∀ j k (hj : j < 257) (hk : k < 257), j ≠ k → t.cb[j] ≠ [] → t.cb[k] ≠ [] → ¬ t.cb[j] <+: t.cb[k]

/-- R178, R179: NODE_READ returns the node's weight and its info word, written as a number; before BUILD it
is NOT_BUILT and at or above NODE_COUNT BAD_INDEX, and nothing else changes. -/
def Obligations.NodeReadReturnsTheNode : Prop :=
  ∀ (s : State) (idx : Nat),
    (∀ w sym, s.built = true → idx < s.nodeCount.toNat → s.node[idx]? = some (.leaf w sym) →
      exec (.nodeRead idx) s = .next { s with
        err := 0x00, busy := false, done := true, res0 := w, res1 := BitVec.ofNat 32 sym.toNat }) ∧
    (∀ w left right, s.built = true → idx < s.nodeCount.toNat →
      s.node[idx]? = some (.internal w left right) →
      exec (.nodeRead idx) s = .next { s with
        err := 0x00, busy := false, done := true, res0 := w
        res1 := BitVec.ofNat 32 (2 ^ 31 + 2 ^ 16 * right.toNat + left.toNat) }) ∧
    (s.built = false → exec (.nodeRead idx) s = .next
      { s with err := 0x03, busy := false, done := true }) ∧
    (s.built = true → s.nodeCount.toNat ≤ idx → exec (.nodeRead idx) s = .next
      { s with err := 0x07, busy := false, done := true })

/-- R204, R205: CB_LOOKUP returns the codeword's length and its bits, most significant bit first, zeros
beyond them; before BUILD it is NOT_BUILT and for idx above 256 BAD_INDEX, and nothing else changes. -/
def Obligations.CbLookupReturnsTheCodeword : Prop :=
  (∀ (s : State) (idx : Nat) (h : idx < 257), s.built = true →
    ∃ t, exec (.cbLookup idx) s = .next t ∧ Completed t 0x00 ∧
      t.res0 = BitVec.ofNat 32 s.cb[idx].length ∧ t.res1 = 0 ∧
      (∀ w (hw : w < 8) j, j < 32 →
        t.cwbits[w].getLsbD (31 - j) = s.cb[idx].getD (32 * w + j) false) ∧
      SameCodec s t ∧ SameResults s t ∧ SameRest s t ∧ ∀ a, t.mem.read a = s.mem.read a) ∧
  ∀ (s : State) (idx : Nat),
    (s.built = false → exec (.cbLookup idx) s = .next
      { s with err := 0x03, busy := false, done := true }) ∧
    (s.built = true → 257 ≤ idx → exec (.cbLookup idx) s = .next
      { s with err := 0x07, busy := false, done := true })

/-! ## ENCODE -/

/-- R220, R222, R223: ENCODE of a message whose bytes all have codewords writes the codewords, the
sentinel's and zero bits up to a byte, most significant bit first, at DST_ADDR, and nothing else of DMEM;
or, if that needs more than DST_CAP bytes, it raises OUTPUT_OVERFLOW with the needed length and writes no
DMEM. -/
def Obligations.EncodeWritesThePaddedStream : Prop :=
  ∀ (s : State) (msg : List Byte), s.built = true → rangesOk s → msg.length = srcLen s →
    holdsBytes s.mem (srcAddr s) msg → encodable s.cb msg →
    let bits := streamOf s.cb msg
    let n := (bits.length + 7) / 8
    (n ≤ dstCap s → ∃ t, exec .encode s = .next t ∧ Completed t 0x00 ∧
      t.resultLen = BitVec.ofNat 32 n ∧ t.resultBits = BitVec.ofNat 32 bits.length ∧ t.errPos = 0 ∧
      holdsBits t.mem (dstAddr s) (bits ++ List.replicate (8 * n - bits.length) false) ∧
      sameOutside s.mem t.mem (dstAddr s) n ∧
      SameCodec s t ∧ SameLookup s t ∧ SameRest s t) ∧
    (dstCap s < n → exec .encode s = .next
      { s with err := 0x05, busy := false, done := true
               resultLen := BitVec.ofNat 32 n, resultBits := 0, errPos := 0 })

/-- R220, R263: ENCODE of a message with a byte that has no codeword raises UNKNOWN_SYMBOL at the first
such byte, whatever the capacity and whatever follows it, and writes no DMEM. -/
def Obligations.EncodeReportsTheFirstUnknownByte : Prop :=
  ∀ (s : State) (pre : List Byte) (b : Byte), s.built = true → rangesOk s →
    pre.length < srcLen s → holdsBytes s.mem (srcAddr s) (pre ++ [b]) → encodable s.cb pre →
    codeOfByte s.cb b = [] → exec .encode s = .next
      { s with err := 0x01, busy := false, done := true
               resultLen := 0, resultBits := 0, errPos := BitVec.ofNat 32 pre.length }

/-- R87, R88, R220, R240, R262: ENCODE and DECODE raise NOT_BUILT before BUILD, and else BAD_RANGE when a
range leaves DMEM or the source overlaps the destination's whole capacity; only the registers of R264
change. -/
def Obligations.EncodeAndDecodeRefuseInOrder : Prop :=
  ∀ (s : State) (i : Instr), i = .encode ∨ i = .decode →
    (s.built = false → exec i s = .next
      { s with err := 0x03, busy := false, done := true, resultLen := 0, resultBits := 0, errPos := 0 }) ∧
    (s.built = true →
      (dmemSize s.params < srcAddr s + srcLen s ∨ dmemSize s.params < dstAddr s + dstCap s ∨
        (0 < srcLen s ∧ 0 < dstCap s ∧ srcAddr s < dstAddr s + dstCap s ∧
          dstAddr s < srcAddr s + srcLen s)) →
      exec i s = .next
        { s with err := 0x06, busy := false, done := true, resultLen := 0, resultBits := 0, errPos := 0 })

/-- R221: RESULT_BITS of a successful ENCODE is the sum of the codeword lengths and at least 1, RESULT_LEN
is that in whole bytes and at least 1, and the padding is 0 to 7 bits. -/
def Obligations.EncodeLengthLaws : Prop :=
  ∀ (s t : State) (msg : List Byte), CodecOk s → exec .encode s = .next t → t.err = 0x00 →
    msg.length = srcLen s → holdsBytes s.mem (srcAddr s) msg →
    t.resultBits.toNat =
      (msg.map fun b => (codeOfByte s.cb b).length).sum + (codeOfSent s.cb).length ∧
    1 ≤ t.resultBits.toNat ∧ 1 ≤ t.resultLen.toNat ∧
    t.resultLen.toNat = (t.resultBits.toNat + 7) / 8 ∧
    t.resultBits.toNat ≤ 8 * t.resultLen.toNat ∧
    8 * t.resultLen.toNat - t.resultBits.toNat ≤ 7

/-! ## DECODE -/

/-- R240, R248: in a trie of two leaves or more, DECODE of a bitstream that begins with the codewords of a
message and the sentinel's writes the message at DST_ADDR, and nothing else of DMEM, whatever follows; or,
if the message is longer than DST_CAP, it raises OUTPUT_OVERFLOW with the needed length and writes no DMEM. -/
def Obligations.DecodeReturnsTheMessage : Prop :=
  ∀ (s : State) (msg : List Byte), CodecOk s → s.built = true → rangesOk s →
    leafSym s.node s.root.toNat = none → encodable s.cb msg →
    (streamOf s.cb msg).length ≤ 8 * srcLen s → holdsBits s.mem (srcAddr s) (streamOf s.cb msg) →
    (msg.length ≤ dstCap s → ∃ t, exec .decode s = .next t ∧ Completed t 0x00 ∧
      t.resultLen = BitVec.ofNat 32 msg.length ∧
      t.resultBits = BitVec.ofNat 32 (streamOf s.cb msg).length ∧ t.errPos = 0 ∧
      holdsBytes t.mem (dstAddr s) msg ∧ sameOutside s.mem t.mem (dstAddr s) msg.length ∧
      SameCodec s t ∧ SameLookup s t ∧ SameRest s t) ∧
    (dstCap s < msg.length → exec .decode s = .next
      { s with err := 0x05, busy := false, done := true
               resultLen := BitVec.ofNat 32 msg.length, resultBits := 0, errPos := 0 })

/-- R244: a source that ends inside the trie, after any whole codewords, is TRUNCATED_INPUT with ERR_POS =
SRC_LEN and writes no output, whatever the capacity. -/
def Obligations.DecodeReportsTruncation : Prop :=
  ∀ (s : State) (msg : List Byte) (q : Bits) (i : Nat), CodecOk s → s.built = true → rangesOk s →
    encodable s.cb msg → holdsBits s.mem (srcAddr s) (codeBits s.cb msg ++ q) →
    (codeBits s.cb msg ++ q).length = 8 * srcLen s → follow s.node s.root.toNat q = some i →
    leafSym s.node i = none → exec .decode s = .next
      { s with err := 0x02, busy := false, done := true
               resultLen := 0, resultBits := 0, errPos := s.latch.srcLen }

/-- R243: a DECODE that stops at the sentinel depends on no byte beyond the one holding the last bit it
consumed: with any other DMEM that agrees on those bytes it stops with the same results and output. -/
def Obligations.DecodeIgnoresWhatFollowsTheSentinel : Prop :=
  ∀ (s t : State) (m : Memory), exec .decode s = .next t → t.err = 0x00 →
    (∀ k, 8 * k < t.resultBits.toNat → m.read (srcAddr s + k) = s.mem.read (srcAddr s + k)) →
    ∃ t', exec .decode { s with mem := m } = .next t' ∧ t'.err = 0x00 ∧ t'.resultLen = t.resultLen ∧
      t'.resultBits = t.resultBits ∧
      ∀ k < t.resultLen.toNat, t'.mem.read (dstAddr s + k) = t.mem.read (dstAddr s + k)

/-- R246: in the one-leaf trie DECODE stops at once for every input: it reads no DMEM, writes none, and
gives RESULT_LEN = 0 and RESULT_BITS = 0. -/
def Obligations.DecodeOfTheOneLeafTrieReadsNothing : Prop :=
  ∀ s : State, s.built = true → rangesOk s → leafSym s.node s.root.toNat = some 256 →
    exec .decode s = .next
      { s with err := 0x00, busy := false, done := true, resultLen := 0, resultBits := 0, errPos := 0 }

/-! ## All commands -/

/-- R13, R260: a command that raises an error changes no DMEM byte, no codec state and no lookup result
register. -/
def Obligations.ErrorsChangeNoMemoryAndNoCodec : Prop :=
  ∀ (i : Instr) (s t : State), exec i s = .next t → t.err ≠ 0x00 →
    (∀ a, t.mem.read a = s.mem.read a) ∧ SameCodec s t ∧ SameLookup s t

/-- R42, R43, R44, R203, R264: which commands can write which registers. -/
def Obligations.CommandsWriteOnlyTheirRegisters : Prop :=
  ∀ (i : Instr) (s t : State), exec i s = .next t →
    (i ≠ .count → i ≠ .encode → i ≠ .decode → SameResults s t) ∧
    ((∀ k, i ≠ .cbLookup k) → (∀ k, i ≠ .nodeRead k) → (∀ k, i ≠ .freqRead k) → SameLookup s t) ∧
    ((∀ k, i ≠ .cbLookup k) → t.cwbits = s.cwbits) ∧
    (i ≠ .encode → i ≠ .decode → ∀ a, t.mem.read a = s.mem.read a) ∧
    (i ≠ .clear → i ≠ .count → i ≠ .build → SameCodec s t) ∧
    (i ≠ .clear → i ≠ .build → t.cb = s.cb ∧ t.built = s.built) ∧
    (i ≠ .clear → i ≠ .count → t.freq = s.freq ∧ t.total = s.total)

/-- R245, R247, R300: every command ends, with a success or an error, in every state that meets the codec
invariants, if the source bytes of COUNT, ENCODE and DECODE have been written; no input is an invalid
code. -/
def Obligations.EveryCommandCompletes : Prop :=
  ∀ (i : Instr) (s : State), CodecOk s →
    (i = .count ∨ i = .encode ∨ i = .decode → ∀ k < srcLen s, s.mem.read (srcAddr s + k) ≠ none) →
    ∃ t, exec i s = .next t

/-- R225: the round trip. In every built codec, ENCODE of a message of bytes with codewords succeeds when
its stream fits, and DECODE of the RESULT_LEN bytes it wrote, into any other range that holds the message,
gives the message back. -/
def Obligations.DecodeOfEncodeIsTheMessage : Prop :=
  ∀ (s : State) (msg : List Byte), CodecOk s → s.built = true → rangesOk s →
    msg.length = srcLen s → holdsBytes s.mem (srcAddr s) msg → encodable s.cb msg →
    ((streamOf s.cb msg).length + 7) / 8 ≤ dstCap s →
    ∃ t, exec .encode s = .next t ∧ t.err = 0x00 ∧ ∀ a c : Word,
      inRange s.params a.toNat c.toNat → msg.length ≤ c.toNat →
      ¬ overlap (dstAddr s) t.resultLen.toNat a.toNat c.toNat →
      ∃ u, exec .decode { t with latch :=
          { srcAddr := s.latch.dstAddr, srcLen := t.resultLen, dstAddr := a, dstCap := c } } = .next u ∧
        u.err = 0x00 ∧ u.resultLen = BitVec.ofNat 32 msg.length ∧ holdsBytes u.mem a.toNat msg

/-! ## Reset and invariants -/

/-- R58, R290, R292: reset gives every register and the codec its reset value in any state, BUSY or not; no
DMEM byte has a value then; the codec state is the one a CLEAR leaves. That the parameters, the host's
program, the turns left, what the host has read and the counter of free values stay is the model's (log
entry 15). -/
def Obligations.ResetGivesTheResetValues : Prop :=
  ∀ (s : State) (rest : List Turn), s.schedule = .reset :: rest → ∃ t, step s = .next t ∧
    t.ie = false ∧ t.busy = false ∧ t.done = false ∧ t.built = false ∧ t.ovr = false ∧ t.err = 0x00 ∧
    t.args = { srcAddr := 0, srcLen := 0, dstAddr := 0, dstCap := 0 } ∧
    t.resultLen = 0 ∧ t.resultBits = 0 ∧ t.errPos = 0 ∧ t.total = 0 ∧ t.nodeCount = 0 ∧ t.root = 0 ∧
    t.res0 = 0 ∧ t.res1 = 0 ∧ (∀ w (h : w < 8), t.cwbits[w] = 0) ∧ (∀ k (h : k < 256), t.freq[k] = 0) ∧
    (∀ k (h : k < 257), t.cb[k] = []) ∧ irq t = false ∧ (∀ a, t.mem.read a = none) ∧
    t.params = s.params ∧ t.host = s.host ∧ t.schedule = rest ∧ t.readData = s.readData ∧
    t.draws = s.draws ∧
    ∀ u v, exec .clear u = .next v → v.freq = t.freq ∧ v.total = t.total ∧ v.cb = t.cb ∧
      v.nodeCount = t.nodeCount ∧ v.root = t.root ∧ v.built = t.built

/-- R58: the state right after reset, at the default parameters and at all others, meets every invariant. -/
def Obligations.ResetStateMeetsTheInvariants : Prop :=
  State.reset = State.resetWith Params.default ∧
  ∀ p : Params, MemOk (State.resetWith p) ∧ HandshakeOk (State.resetWith p) ∧
    CountsOk (State.resetWith p) ∧ CodecOk (State.resetWith p)

/-- R80, R86: every step keeps DMEM in its canonical form and inside DMEM_SIZE. -/
def Obligations.MemoryStaysCanonical : Prop :=
  ∀ s t : State, MemOk s → step s = .next t → MemOk t

/-- R46, R47, R261: in every step BUSY and DONE are never both 1 afterwards, and STATUS.ERR stays a code
that is produced. -/
def Obligations.HandshakeStaysConsistent : Prop :=
  ∀ s t : State, HandshakeOk s → step s = .next t → HandshakeOk t

/-- R54: every step keeps the codec-state invariants: an unbuilt codec is empty, and a built one is one
binary tree with exact weights and its codebook. -/
def Obligations.CodecStaysATrieAndItsCodebook : Prop :=
  ∀ s t : State, CountsOk s → CodecOk s → step s = .next t → CodecOk t

/-- R39, R51, R52, R56: what the spec calls unobservable cannot be observed: two machines that differ only
in INQ, the arena at and above NODE_COUNT and the latches of an idle engine take the same step and still
differ only there. So nothing rests on the values the model leaves there (log entries 8 and 9). -/
def Obligations.HiddenStateIsUnobservable : Prop :=
  ∀ s t s' : State, CodecOk s → SameVisible s t → step s = .next s' →
    ∃ t', step t = .next t' ∧ SameVisible s' t'

/-- R54, R203: a built codec is frozen until reset or the step that completes a CLEAR; only reset and the
steps that complete a CLEAR or a BUILD ever write the codebook; and no step changes the instance parameters
(R34). -/
def Obligations.BuiltCodecIsFrozen : Prop :=
  ∀ s t : State, step s = .next t →
    t.params = s.params ∧
    (s.built = true → SameCodec s t ∨ (∃ rest, s.schedule = .reset :: rest) ∨
      (s.busy = true ∧ t.busy = false ∧ decode s.lCmd = .ok .clear)) ∧
    (t.cb = s.cb ∨ (∃ rest, s.schedule = .reset :: rest) ∨
      (s.busy = true ∧ t.busy = false ∧
        (decode s.lCmd = .ok .clear ∨ decode s.lCmd = .ok .build)))

/-- R93, R122: a poll of WAIT reads STATUS, whose bit 0 is BUSY, goes on to the next operation exactly if it
is 0, and changes only what the host has read, the counter of free values and whose turn it is (log entries 3,
5 and 6). -/
def Obligations.WaitPollChangesOnlyTheHost : Prop :=
  ∀ (s : State) (rest : List HostOp) (turns : List Turn), s.host = .wait :: rest →
    (s.schedule = .host :: turns ∨ (s.busy = false ∧ s.schedule = [] ∧ turns = [])) →
    ∃ (t : State) (v : Word), step s = .next t ∧ v.getLsbD 0 = s.busy ∧
      t = { s with
        host := if s.busy then s.host else rest
        schedule := turns, readData := some v, draws := t.draws }
end

