-- ==== Sys2Proof/Laws/Memory.lean ====
section
/-! SUPPORT. The laws of DMEM: a read after a write, and every memory operation keeps the canonical form. -/

namespace Sys2Proof.Machine

theorem Memory.read_nil (a : Nat) : Memory.read [] a = none := rfl

theorem Memory.read_write_same (m : Memory) (a : Nat) (b : Byte) : (m.write a b).read a = some b := by
  induction m with
  | nil => simp [Memory.write, Memory.read]
  | cons c m ih =>
    simp only [Memory.write]
    split
    · simp [Memory.read]
    · split
      · simp [Memory.read]
      · simp only [Memory.read]
        rw [if_neg (by omega)]
        exact ih

theorem Memory.read_write_other (m : Memory) {a x : Nat} (b : Byte) (h : x ≠ a) :
    (m.write a b).read x = m.read x := by
  induction m with
  | nil => simp [Memory.write, Memory.read, h.symm]
  | cons c m ih =>
    simp only [Memory.write]
    split
    · simp [Memory.read, h.symm]
    · split
      · simp only [Memory.read]
        rw [if_neg (by omega), if_neg (by omega)]
      · simp only [Memory.read]
        split <;> simp_all

@[simp] theorem Memory.read_write (m : Memory) (a x : Nat) (b : Byte) :
    (m.write a b).read x = if x = a then some b else m.read x := by
  split
  · subst x; exact m.read_write_same a b
  · exact m.read_write_other b ‹_›

/-- The addresses of a written memory are the old ones and the new one. -/
theorem Memory.mem_write {m : Memory} {a : Nat} {b : Byte} {c : Host.Cell} (h : c ∈ m.write a b) :
    c.1 = a ∨ c ∈ m := by
  induction m with
  | nil => simp [Memory.write] at h; exact .inl (by simp [h])
  | cons d m ih =>
    simp only [Memory.write] at h
    split at h
    · rcases List.mem_cons.1 h with rfl | h
      · exact .inl rfl
      · exact .inr h
    · split at h
      · rcases List.mem_cons.1 h with rfl | h
        · exact .inl rfl
        · exact .inr (List.mem_cons_of_mem _ h)
      · rcases List.mem_cons.1 h with rfl | h
        · exact .inr (by simp)
        · exact (ih h).imp id (List.mem_cons_of_mem _)

/-- A byte write keeps the canonical form. -/
theorem Memory.write_wf {m : Memory} (h : m.wf) (a : Nat) (b : Byte) : (m.write a b).wf := by
  induction m with
  | nil => simp [Memory.write, Memory.wf]
  | cons c m ih =>
    have hc := List.pairwise_cons.1 h
    simp only [Memory.write]
    split
    · rename_i hlt
      refine List.pairwise_cons.2 ⟨fun d hd => ?_, h⟩
      rcases List.mem_cons.1 hd with rfl | hd
      · exact hlt
      · exact hlt.trans (hc.1 d hd)
    · split
      · rename_i heq
        exact List.pairwise_cons.2 ⟨fun d hd => by simpa [heq] using hc.1 d hd, hc.2⟩
      · refine List.pairwise_cons.2 ⟨fun d hd => ?_, ih hc.2⟩
        rcases Memory.mem_write hd with h' | h'
        · omega
        · exact hc.1 d h'

theorem Memory.writeLE_wf {m : Memory} (h : m.wf) (a n : Nat) (v : Word) : (m.writeLE a n v).wf := by
  induction n generalizing m a v with
  | zero => exact h
  | succ n ih => exact ih (m.write_wf h a _) _ _

theorem Memory.writeBytes_wf {m : Memory} (h : m.wf) (a : Nat) (bs : List Byte) :
    (m.writeBytes a bs).wf := by
  induction bs generalizing m a with
  | nil => exact h
  | cons b bs ih => exact ih (m.write_wf h a b) _

theorem Memory.mem_writeLE {m : Memory} {a n : Nat} {v : Word} {c : Host.Cell}
    (h : c ∈ m.writeLE a n v) : (a ≤ c.1 ∧ c.1 < a + n) ∨ c ∈ m := by
  induction n generalizing m a v with
  | zero => exact .inr h
  | succ n ih =>
    rcases ih h with h' | h'
    · exact .inl (by omega)
    · exact (Memory.mem_write h').imp (by omega) id

theorem Memory.mem_writeBytes {m : Memory} {a : Nat} {bs : List Byte} {c : Host.Cell}
    (h : c ∈ m.writeBytes a bs) : (a ≤ c.1 ∧ c.1 < a + bs.length) ∨ c ∈ m := by
  induction bs generalizing m a with
  | nil => exact .inr h
  | cons b bs ih =>
    rcases ih h with h' | h'
    · exact .inl (by simp only [List.length_cons]; omega)
    · exact (Memory.mem_write h').imp (fun e => by simp only [List.length_cons]; omega) id

/-- Any byte after a run of byte writes. -/
theorem Memory.read_writeBytes (m : Memory) (a : Nat) (bs : List Byte) (x : Nat) :
    (m.writeBytes a bs).read x = if a ≤ x ∧ x < a + bs.length then bs[x - a]? else m.read x := by
  induction bs generalizing m a with
  | nil => simp [Memory.writeBytes]
  | cons b bs ih =>
    simp only [Memory.writeBytes, ih, Memory.read_write, List.length_cons]
    by_cases h : a + 1 ≤ x ∧ x < a + 1 + bs.length
    · rw [if_pos h, if_pos (by omega), show x - a = (x - (a + 1)) + 1 by omega]
      simp
    · rw [if_neg h]
      by_cases hx : x = a
      · subst x; simp
      · rw [if_neg hx, if_neg (by omega)]

/-- Bytes outside a wide host write read as before. -/
theorem Memory.read_writeLE_other (m : Memory) {a n x : Nat} (v : Word) (h : x < a ∨ a + n ≤ x) :
    (m.writeLE a n v).read x = m.read x := by
  induction n generalizing m a v with
  | zero => rfl
  | succ n ih =>
    simp only [Memory.writeLE]
    rw [ih _ _ (by omega), Memory.read_write_other _ _ (by omega)]

/-- The bytes of a wide host write, little-endian (R81). -/
theorem Memory.read_writeLE (m : Memory) {a n j : Nat} (v : Word) (h : j < n) :
    (m.writeLE a n v).read (a + j) = some ((v >>> (8 * j)).setWidth 8) := by
  induction n generalizing m a v j with
  | zero => omega
  | succ n ih =>
    simp only [Memory.writeLE]
    cases j with
    | zero =>
      rw [Memory.read_writeLE_other _ _ (by omega)]
      simp
    | succ j =>
      rw [show a + (j + 1) = a + 1 + j by omega, ih _ _ (by omega), ← BitVec.shiftRight_add]
      congr 3; omega

/-- `readBytes` gives exactly the bytes that DMEM holds (R86, R91). -/
theorem Memory.readBytes_eq_some {m : Memory} {a n : Nat} {bs : List Byte} :
    m.readBytes a n = some bs ↔ bs.length = n ∧ holdsBytes m a bs := by
  induction n generalizing a bs with
  | zero =>
    simp only [Memory.readBytes, Option.some.injEq]
    constructor
    · rintro rfl; exact ⟨rfl, fun k h => absurd h (by simp)⟩
    · rintro ⟨h, -⟩; exact (List.length_eq_zero_iff.1 h).symm
  | succ n ih =>
    simp only [Memory.readBytes]
    cases hr : m.read a with
    | none =>
      simp only [reduceCtorEq, false_iff, not_and]
      intro hl hh
      have := hh 0 (by omega)
      simp [hr] at this
    | some b =>
      simp only [Option.map_eq_some_iff]
      constructor
      · rintro ⟨cs, hcs, rfl⟩
        obtain ⟨hl, hh⟩ := ih.1 hcs
        refine ⟨by simp [hl], fun k hk => ?_⟩
        cases k with
        | zero => simpa using hr
        | succ k =>
          rw [show a + (k + 1) = a + 1 + k by omega, hh k (by simpa using hk)]
          simp
      · rintro ⟨hl, hh⟩
        cases bs with
        | nil => simp at hl
        | cons c cs =>
          refine ⟨cs, ih.2 ⟨by simpa using hl, fun k hk => ?_⟩, ?_⟩
          · have := hh (k + 1) (by simpa using hk)
            rw [show a + (k + 1) = a + 1 + k by omega] at this
            simpa using this
          · have := hh 0 (by simp)
            simp [hr] at this
            rw [this]

/-- `readBytes` has no value exactly if one of the bytes has none (R91). -/
theorem Memory.readBytes_eq_none {m : Memory} {a n : Nat} :
    m.readBytes a n = none ↔ ∃ k < n, m.read (a + k) = none := by
  induction n generalizing a with
  | zero => simp [Memory.readBytes]
  | succ n ih =>
    simp only [Memory.readBytes]
    cases hr : m.read a with
    | none => exact ⟨fun _ => ⟨0, by omega, hr⟩, fun _ => rfl⟩
    | some b =>
      simp only [Option.map_eq_none_iff, ih]
      constructor
      · rintro ⟨k, hk, h⟩
        exact ⟨k + 1, by omega, by rw [show a + (k + 1) = a + 1 + k by omega, h]⟩
      · rintro ⟨k, hk, h⟩
        cases k with
        | zero => simp [hr] at h
        | succ k => exact ⟨k, by omega, by rw [show a + 1 + k = a + (k + 1) by omega, h]⟩

/-- A little-endian read has no value exactly if one of its bytes has none (R91). -/
theorem Memory.readLE_eq_none {m : Memory} {a n : Nat} :
    m.readLE a n = none ↔ ∃ k < n, m.read (a + k) = none := by
  induction n generalizing a with
  | zero => simp [Memory.readLE]
  | succ n ih =>
    simp only [Memory.readLE]
    constructor
    · intro h
      cases hr : m.read a with
      | none => exact ⟨0, by omega, hr⟩
      | some b =>
        cases hl : m.readLE (a + 1) n with
        | none =>
          obtain ⟨k, hk, h'⟩ := ih.1 hl
          exact ⟨k + 1, by omega, by rw [show a + (k + 1) = a + 1 + k by omega, h']⟩
        | some v => simp [hr, hl] at h
    · rintro ⟨k, hk, h⟩
      cases k with
      | zero => simp at h; simp [h]
      | succ k =>
        have : m.readLE (a + 1) n = none :=
          ih.2 ⟨k, by omega, by rw [show a + 1 + k = a + (k + 1) by omega, h]⟩
        rw [this]; split <;> simp_all

/-- Reset DMEM is in canonical form. -/
theorem Memory.reset_wf (p : Params) : (State.resetWith p).mem.wf := List.Pairwise.nil

end Sys2Proof.Machine
end

