-- ==== Sys2Proof/Laws/State.lean ====
section
/-! SUPPORT. One lemma per field per named update of State, each true by rfl. -/

namespace Sys2Proof.Machine

/-! `complete` -/

@[simp] theorem complete_params (code : BitVec 8) (s : State) : (complete code s).params = s.params := rfl
@[simp] theorem complete_ie (code : BitVec 8) (s : State) : (complete code s).ie = s.ie := rfl
@[simp] theorem complete_busy (code : BitVec 8) (s : State) : (complete code s).busy = false := rfl
@[simp] theorem complete_done (code : BitVec 8) (s : State) : (complete code s).done = true := rfl
@[simp] theorem complete_built (code : BitVec 8) (s : State) : (complete code s).built = s.built := rfl
@[simp] theorem complete_ovr (code : BitVec 8) (s : State) : (complete code s).ovr = s.ovr := rfl
@[simp] theorem complete_err (code : BitVec 8) (s : State) : (complete code s).err = code := rfl
@[simp] theorem complete_args (code : BitVec 8) (s : State) : (complete code s).args = s.args := rfl
@[simp] theorem complete_resultLen (code : BitVec 8) (s : State) : (complete code s).resultLen = s.resultLen := rfl
@[simp] theorem complete_resultBits (code : BitVec 8) (s : State) : (complete code s).resultBits = s.resultBits := rfl
@[simp] theorem complete_errPos (code : BitVec 8) (s : State) : (complete code s).errPos = s.errPos := rfl
@[simp] theorem complete_res0 (code : BitVec 8) (s : State) : (complete code s).res0 = s.res0 := rfl
@[simp] theorem complete_res1 (code : BitVec 8) (s : State) : (complete code s).res1 = s.res1 := rfl
@[simp] theorem complete_cwbits (code : BitVec 8) (s : State) : (complete code s).cwbits = s.cwbits := rfl
@[simp] theorem complete_lCmd (code : BitVec 8) (s : State) : (complete code s).lCmd = s.lCmd := rfl
@[simp] theorem complete_latch (code : BitVec 8) (s : State) : (complete code s).latch = s.latch := rfl
@[simp] theorem complete_freq (code : BitVec 8) (s : State) : (complete code s).freq = s.freq := rfl
@[simp] theorem complete_total (code : BitVec 8) (s : State) : (complete code s).total = s.total := rfl
@[simp] theorem complete_node (code : BitVec 8) (s : State) : (complete code s).node = s.node := rfl
@[simp] theorem complete_nodeCount (code : BitVec 8) (s : State) : (complete code s).nodeCount = s.nodeCount := rfl
@[simp] theorem complete_root (code : BitVec 8) (s : State) : (complete code s).root = s.root := rfl
@[simp] theorem complete_inq (code : BitVec 8) (s : State) : (complete code s).inq = s.inq := rfl
@[simp] theorem complete_cb (code : BitVec 8) (s : State) : (complete code s).cb = s.cb := rfl
@[simp] theorem complete_mem (code : BitVec 8) (s : State) : (complete code s).mem = s.mem := rfl
@[simp] theorem complete_host (code : BitVec 8) (s : State) : (complete code s).host = s.host := rfl
@[simp] theorem complete_schedule (code : BitVec 8) (s : State) : (complete code s).schedule = s.schedule := rfl
@[simp] theorem complete_readData (code : BitVec 8) (s : State) : (complete code s).readData = s.readData := rfl
@[simp] theorem complete_draws (code : BitVec 8) (s : State) : (complete code s).draws = s.draws := rfl

/-! `accept` -/

@[simp] theorem accept_params (v : Word) (s : State) : (accept v s).params = s.params := rfl
@[simp] theorem accept_ie (v : Word) (s : State) : (accept v s).ie = s.ie := rfl
@[simp] theorem accept_busy (v : Word) (s : State) : (accept v s).busy = true := rfl
@[simp] theorem accept_done (v : Word) (s : State) : (accept v s).done = false := rfl
@[simp] theorem accept_built (v : Word) (s : State) : (accept v s).built = s.built := rfl
@[simp] theorem accept_ovr (v : Word) (s : State) : (accept v s).ovr = s.ovr := rfl
@[simp] theorem accept_err (v : Word) (s : State) : (accept v s).err = s.err := rfl
@[simp] theorem accept_args (v : Word) (s : State) : (accept v s).args = s.args := rfl
@[simp] theorem accept_resultLen (v : Word) (s : State) : (accept v s).resultLen = s.resultLen := rfl
@[simp] theorem accept_resultBits (v : Word) (s : State) : (accept v s).resultBits = s.resultBits := rfl
@[simp] theorem accept_errPos (v : Word) (s : State) : (accept v s).errPos = s.errPos := rfl
@[simp] theorem accept_res0 (v : Word) (s : State) : (accept v s).res0 = s.res0 := rfl
@[simp] theorem accept_res1 (v : Word) (s : State) : (accept v s).res1 = s.res1 := rfl
@[simp] theorem accept_cwbits (v : Word) (s : State) : (accept v s).cwbits = s.cwbits := rfl
@[simp] theorem accept_lCmd (v : Word) (s : State) : (accept v s).lCmd = v := rfl
@[simp] theorem accept_latch (v : Word) (s : State) : (accept v s).latch = s.args := rfl
@[simp] theorem accept_freq (v : Word) (s : State) : (accept v s).freq = s.freq := rfl
@[simp] theorem accept_total (v : Word) (s : State) : (accept v s).total = s.total := rfl
@[simp] theorem accept_node (v : Word) (s : State) : (accept v s).node = s.node := rfl
@[simp] theorem accept_nodeCount (v : Word) (s : State) : (accept v s).nodeCount = s.nodeCount := rfl
@[simp] theorem accept_root (v : Word) (s : State) : (accept v s).root = s.root := rfl
@[simp] theorem accept_inq (v : Word) (s : State) : (accept v s).inq = s.inq := rfl
@[simp] theorem accept_cb (v : Word) (s : State) : (accept v s).cb = s.cb := rfl
@[simp] theorem accept_mem (v : Word) (s : State) : (accept v s).mem = s.mem := rfl
@[simp] theorem accept_host (v : Word) (s : State) : (accept v s).host = s.host := rfl
@[simp] theorem accept_schedule (v : Word) (s : State) : (accept v s).schedule = s.schedule := rfl
@[simp] theorem accept_readData (v : Word) (s : State) : (accept v s).readData = s.readData := rfl
@[simp] theorem accept_draws (v : Word) (s : State) : (accept v s).draws = s.draws := rfl

/-! `writeStatus` -/

@[simp] theorem writeStatus_params (v : Word) (s : State) : (writeStatus v s).params = s.params := rfl
@[simp] theorem writeStatus_ie (v : Word) (s : State) : (writeStatus v s).ie = s.ie := rfl
@[simp] theorem writeStatus_busy (v : Word) (s : State) : (writeStatus v s).busy = s.busy := rfl
@[simp] theorem writeStatus_done (v : Word) (s : State) : (writeStatus v s).done = (s.done && !v.getLsbD 1) := rfl
@[simp] theorem writeStatus_built (v : Word) (s : State) : (writeStatus v s).built = s.built := rfl
@[simp] theorem writeStatus_ovr (v : Word) (s : State) : (writeStatus v s).ovr = (s.ovr && !v.getLsbD 3) := rfl
@[simp] theorem writeStatus_err (v : Word) (s : State) : (writeStatus v s).err = s.err := rfl
@[simp] theorem writeStatus_args (v : Word) (s : State) : (writeStatus v s).args = s.args := rfl
@[simp] theorem writeStatus_resultLen (v : Word) (s : State) : (writeStatus v s).resultLen = s.resultLen := rfl
@[simp] theorem writeStatus_resultBits (v : Word) (s : State) : (writeStatus v s).resultBits = s.resultBits := rfl
@[simp] theorem writeStatus_errPos (v : Word) (s : State) : (writeStatus v s).errPos = s.errPos := rfl
@[simp] theorem writeStatus_res0 (v : Word) (s : State) : (writeStatus v s).res0 = s.res0 := rfl
@[simp] theorem writeStatus_res1 (v : Word) (s : State) : (writeStatus v s).res1 = s.res1 := rfl
@[simp] theorem writeStatus_cwbits (v : Word) (s : State) : (writeStatus v s).cwbits = s.cwbits := rfl
@[simp] theorem writeStatus_lCmd (v : Word) (s : State) : (writeStatus v s).lCmd = s.lCmd := rfl
@[simp] theorem writeStatus_latch (v : Word) (s : State) : (writeStatus v s).latch = s.latch := rfl
@[simp] theorem writeStatus_freq (v : Word) (s : State) : (writeStatus v s).freq = s.freq := rfl
@[simp] theorem writeStatus_total (v : Word) (s : State) : (writeStatus v s).total = s.total := rfl
@[simp] theorem writeStatus_node (v : Word) (s : State) : (writeStatus v s).node = s.node := rfl
@[simp] theorem writeStatus_nodeCount (v : Word) (s : State) : (writeStatus v s).nodeCount = s.nodeCount := rfl
@[simp] theorem writeStatus_root (v : Word) (s : State) : (writeStatus v s).root = s.root := rfl
@[simp] theorem writeStatus_inq (v : Word) (s : State) : (writeStatus v s).inq = s.inq := rfl
@[simp] theorem writeStatus_cb (v : Word) (s : State) : (writeStatus v s).cb = s.cb := rfl
@[simp] theorem writeStatus_mem (v : Word) (s : State) : (writeStatus v s).mem = s.mem := rfl
@[simp] theorem writeStatus_host (v : Word) (s : State) : (writeStatus v s).host = s.host := rfl
@[simp] theorem writeStatus_schedule (v : Word) (s : State) : (writeStatus v s).schedule = s.schedule := rfl
@[simp] theorem writeStatus_readData (v : Word) (s : State) : (writeStatus v s).readData = s.readData := rfl
@[simp] theorem writeStatus_draws (v : Word) (s : State) : (writeStatus v s).draws = s.draws := rfl

/-! `writeCtrl` -/

@[simp] theorem writeCtrl_params (v : Word) (s : State) : (writeCtrl v s).params = s.params := rfl
@[simp] theorem writeCtrl_ie (v : Word) (s : State) : (writeCtrl v s).ie = v.getLsbD 0 := rfl
@[simp] theorem writeCtrl_busy (v : Word) (s : State) : (writeCtrl v s).busy = s.busy := rfl
@[simp] theorem writeCtrl_done (v : Word) (s : State) : (writeCtrl v s).done = s.done := rfl
@[simp] theorem writeCtrl_built (v : Word) (s : State) : (writeCtrl v s).built = s.built := rfl
@[simp] theorem writeCtrl_ovr (v : Word) (s : State) : (writeCtrl v s).ovr = s.ovr := rfl
@[simp] theorem writeCtrl_err (v : Word) (s : State) : (writeCtrl v s).err = s.err := rfl
@[simp] theorem writeCtrl_args (v : Word) (s : State) : (writeCtrl v s).args = s.args := rfl
@[simp] theorem writeCtrl_resultLen (v : Word) (s : State) : (writeCtrl v s).resultLen = s.resultLen := rfl
@[simp] theorem writeCtrl_resultBits (v : Word) (s : State) : (writeCtrl v s).resultBits = s.resultBits := rfl
@[simp] theorem writeCtrl_errPos (v : Word) (s : State) : (writeCtrl v s).errPos = s.errPos := rfl
@[simp] theorem writeCtrl_res0 (v : Word) (s : State) : (writeCtrl v s).res0 = s.res0 := rfl
@[simp] theorem writeCtrl_res1 (v : Word) (s : State) : (writeCtrl v s).res1 = s.res1 := rfl
@[simp] theorem writeCtrl_cwbits (v : Word) (s : State) : (writeCtrl v s).cwbits = s.cwbits := rfl
@[simp] theorem writeCtrl_lCmd (v : Word) (s : State) : (writeCtrl v s).lCmd = s.lCmd := rfl
@[simp] theorem writeCtrl_latch (v : Word) (s : State) : (writeCtrl v s).latch = s.latch := rfl
@[simp] theorem writeCtrl_freq (v : Word) (s : State) : (writeCtrl v s).freq = s.freq := rfl
@[simp] theorem writeCtrl_total (v : Word) (s : State) : (writeCtrl v s).total = s.total := rfl
@[simp] theorem writeCtrl_node (v : Word) (s : State) : (writeCtrl v s).node = s.node := rfl
@[simp] theorem writeCtrl_nodeCount (v : Word) (s : State) : (writeCtrl v s).nodeCount = s.nodeCount := rfl
@[simp] theorem writeCtrl_root (v : Word) (s : State) : (writeCtrl v s).root = s.root := rfl
@[simp] theorem writeCtrl_inq (v : Word) (s : State) : (writeCtrl v s).inq = s.inq := rfl
@[simp] theorem writeCtrl_cb (v : Word) (s : State) : (writeCtrl v s).cb = s.cb := rfl
@[simp] theorem writeCtrl_mem (v : Word) (s : State) : (writeCtrl v s).mem = s.mem := rfl
@[simp] theorem writeCtrl_host (v : Word) (s : State) : (writeCtrl v s).host = s.host := rfl
@[simp] theorem writeCtrl_schedule (v : Word) (s : State) : (writeCtrl v s).schedule = s.schedule := rfl
@[simp] theorem writeCtrl_readData (v : Word) (s : State) : (writeCtrl v s).readData = s.readData := rfl
@[simp] theorem writeCtrl_draws (v : Word) (s : State) : (writeCtrl v s).draws = s.draws := rfl

/-! `raiseError` -/

@[simp] theorem raiseError_params (e : ErrKind) (s : State) : (raiseError e s).params = s.params := rfl
@[simp] theorem raiseError_ie (e : ErrKind) (s : State) : (raiseError e s).ie = s.ie := rfl
@[simp] theorem raiseError_busy (e : ErrKind) (s : State) : (raiseError e s).busy = false := rfl
@[simp] theorem raiseError_done (e : ErrKind) (s : State) : (raiseError e s).done = true := rfl
@[simp] theorem raiseError_built (e : ErrKind) (s : State) : (raiseError e s).built = s.built := rfl
@[simp] theorem raiseError_ovr (e : ErrKind) (s : State) : (raiseError e s).ovr = s.ovr := rfl
@[simp] theorem raiseError_err (e : ErrKind) (s : State) : (raiseError e s).err = errCode e := rfl
@[simp] theorem raiseError_args (e : ErrKind) (s : State) : (raiseError e s).args = s.args := rfl
@[simp] theorem raiseError_resultLen (e : ErrKind) (s : State) : (raiseError e s).resultLen = s.resultLen := rfl
@[simp] theorem raiseError_resultBits (e : ErrKind) (s : State) : (raiseError e s).resultBits = s.resultBits := rfl
@[simp] theorem raiseError_errPos (e : ErrKind) (s : State) : (raiseError e s).errPos = s.errPos := rfl
@[simp] theorem raiseError_res0 (e : ErrKind) (s : State) : (raiseError e s).res0 = s.res0 := rfl
@[simp] theorem raiseError_res1 (e : ErrKind) (s : State) : (raiseError e s).res1 = s.res1 := rfl
@[simp] theorem raiseError_cwbits (e : ErrKind) (s : State) : (raiseError e s).cwbits = s.cwbits := rfl
@[simp] theorem raiseError_lCmd (e : ErrKind) (s : State) : (raiseError e s).lCmd = s.lCmd := rfl
@[simp] theorem raiseError_latch (e : ErrKind) (s : State) : (raiseError e s).latch = s.latch := rfl
@[simp] theorem raiseError_freq (e : ErrKind) (s : State) : (raiseError e s).freq = s.freq := rfl
@[simp] theorem raiseError_total (e : ErrKind) (s : State) : (raiseError e s).total = s.total := rfl
@[simp] theorem raiseError_node (e : ErrKind) (s : State) : (raiseError e s).node = s.node := rfl
@[simp] theorem raiseError_nodeCount (e : ErrKind) (s : State) : (raiseError e s).nodeCount = s.nodeCount := rfl
@[simp] theorem raiseError_root (e : ErrKind) (s : State) : (raiseError e s).root = s.root := rfl
@[simp] theorem raiseError_inq (e : ErrKind) (s : State) : (raiseError e s).inq = s.inq := rfl
@[simp] theorem raiseError_cb (e : ErrKind) (s : State) : (raiseError e s).cb = s.cb := rfl
@[simp] theorem raiseError_mem (e : ErrKind) (s : State) : (raiseError e s).mem = s.mem := rfl
@[simp] theorem raiseError_host (e : ErrKind) (s : State) : (raiseError e s).host = s.host := rfl
@[simp] theorem raiseError_schedule (e : ErrKind) (s : State) : (raiseError e s).schedule = s.schedule := rfl
@[simp] theorem raiseError_readData (e : ErrKind) (s : State) : (raiseError e s).readData = s.readData := rfl
@[simp] theorem raiseError_draws (e : ErrKind) (s : State) : (raiseError e s).draws = s.draws := rfl

/-! `raiseBulk` -/

@[simp] theorem raiseBulk_params (e : ErrKind) (len pos : Word) (s : State) : (raiseBulk e len pos s).params = s.params := rfl
@[simp] theorem raiseBulk_ie (e : ErrKind) (len pos : Word) (s : State) : (raiseBulk e len pos s).ie = s.ie := rfl
@[simp] theorem raiseBulk_busy (e : ErrKind) (len pos : Word) (s : State) : (raiseBulk e len pos s).busy = false := rfl
@[simp] theorem raiseBulk_done (e : ErrKind) (len pos : Word) (s : State) : (raiseBulk e len pos s).done = true := rfl
@[simp] theorem raiseBulk_built (e : ErrKind) (len pos : Word) (s : State) : (raiseBulk e len pos s).built = s.built := rfl
@[simp] theorem raiseBulk_ovr (e : ErrKind) (len pos : Word) (s : State) : (raiseBulk e len pos s).ovr = s.ovr := rfl
@[simp] theorem raiseBulk_err (e : ErrKind) (len pos : Word) (s : State) : (raiseBulk e len pos s).err = errCode e := rfl
@[simp] theorem raiseBulk_args (e : ErrKind) (len pos : Word) (s : State) : (raiseBulk e len pos s).args = s.args := rfl
@[simp] theorem raiseBulk_resultLen (e : ErrKind) (len pos : Word) (s : State) : (raiseBulk e len pos s).resultLen = len := rfl
@[simp] theorem raiseBulk_resultBits (e : ErrKind) (len pos : Word) (s : State) : (raiseBulk e len pos s).resultBits = 0 := rfl
@[simp] theorem raiseBulk_errPos (e : ErrKind) (len pos : Word) (s : State) : (raiseBulk e len pos s).errPos = pos := rfl
@[simp] theorem raiseBulk_res0 (e : ErrKind) (len pos : Word) (s : State) : (raiseBulk e len pos s).res0 = s.res0 := rfl
@[simp] theorem raiseBulk_res1 (e : ErrKind) (len pos : Word) (s : State) : (raiseBulk e len pos s).res1 = s.res1 := rfl
@[simp] theorem raiseBulk_cwbits (e : ErrKind) (len pos : Word) (s : State) : (raiseBulk e len pos s).cwbits = s.cwbits := rfl
@[simp] theorem raiseBulk_lCmd (e : ErrKind) (len pos : Word) (s : State) : (raiseBulk e len pos s).lCmd = s.lCmd := rfl
@[simp] theorem raiseBulk_latch (e : ErrKind) (len pos : Word) (s : State) : (raiseBulk e len pos s).latch = s.latch := rfl
@[simp] theorem raiseBulk_freq (e : ErrKind) (len pos : Word) (s : State) : (raiseBulk e len pos s).freq = s.freq := rfl
@[simp] theorem raiseBulk_total (e : ErrKind) (len pos : Word) (s : State) : (raiseBulk e len pos s).total = s.total := rfl
@[simp] theorem raiseBulk_node (e : ErrKind) (len pos : Word) (s : State) : (raiseBulk e len pos s).node = s.node := rfl
@[simp] theorem raiseBulk_nodeCount (e : ErrKind) (len pos : Word) (s : State) : (raiseBulk e len pos s).nodeCount = s.nodeCount := rfl
@[simp] theorem raiseBulk_root (e : ErrKind) (len pos : Word) (s : State) : (raiseBulk e len pos s).root = s.root := rfl
@[simp] theorem raiseBulk_inq (e : ErrKind) (len pos : Word) (s : State) : (raiseBulk e len pos s).inq = s.inq := rfl
@[simp] theorem raiseBulk_cb (e : ErrKind) (len pos : Word) (s : State) : (raiseBulk e len pos s).cb = s.cb := rfl
@[simp] theorem raiseBulk_mem (e : ErrKind) (len pos : Word) (s : State) : (raiseBulk e len pos s).mem = s.mem := rfl
@[simp] theorem raiseBulk_host (e : ErrKind) (len pos : Word) (s : State) : (raiseBulk e len pos s).host = s.host := rfl
@[simp] theorem raiseBulk_schedule (e : ErrKind) (len pos : Word) (s : State) : (raiseBulk e len pos s).schedule = s.schedule := rfl
@[simp] theorem raiseBulk_readData (e : ErrKind) (len pos : Word) (s : State) : (raiseBulk e len pos s).readData = s.readData := rfl
@[simp] theorem raiseBulk_draws (e : ErrKind) (len pos : Word) (s : State) : (raiseBulk e len pos s).draws = s.draws := rfl

/-! `finishBulk` -/

@[simp] theorem finishBulk_params (len bits : Word) (s : State) : (finishBulk len bits s).params = s.params := rfl
@[simp] theorem finishBulk_ie (len bits : Word) (s : State) : (finishBulk len bits s).ie = s.ie := rfl
@[simp] theorem finishBulk_busy (len bits : Word) (s : State) : (finishBulk len bits s).busy = false := rfl
@[simp] theorem finishBulk_done (len bits : Word) (s : State) : (finishBulk len bits s).done = true := rfl
@[simp] theorem finishBulk_built (len bits : Word) (s : State) : (finishBulk len bits s).built = s.built := rfl
@[simp] theorem finishBulk_ovr (len bits : Word) (s : State) : (finishBulk len bits s).ovr = s.ovr := rfl
@[simp] theorem finishBulk_err (len bits : Word) (s : State) : (finishBulk len bits s).err = errOk := rfl
@[simp] theorem finishBulk_args (len bits : Word) (s : State) : (finishBulk len bits s).args = s.args := rfl
@[simp] theorem finishBulk_resultLen (len bits : Word) (s : State) : (finishBulk len bits s).resultLen = len := rfl
@[simp] theorem finishBulk_resultBits (len bits : Word) (s : State) : (finishBulk len bits s).resultBits = bits := rfl
@[simp] theorem finishBulk_errPos (len bits : Word) (s : State) : (finishBulk len bits s).errPos = 0 := rfl
@[simp] theorem finishBulk_res0 (len bits : Word) (s : State) : (finishBulk len bits s).res0 = s.res0 := rfl
@[simp] theorem finishBulk_res1 (len bits : Word) (s : State) : (finishBulk len bits s).res1 = s.res1 := rfl
@[simp] theorem finishBulk_cwbits (len bits : Word) (s : State) : (finishBulk len bits s).cwbits = s.cwbits := rfl
@[simp] theorem finishBulk_lCmd (len bits : Word) (s : State) : (finishBulk len bits s).lCmd = s.lCmd := rfl
@[simp] theorem finishBulk_latch (len bits : Word) (s : State) : (finishBulk len bits s).latch = s.latch := rfl
@[simp] theorem finishBulk_freq (len bits : Word) (s : State) : (finishBulk len bits s).freq = s.freq := rfl
@[simp] theorem finishBulk_total (len bits : Word) (s : State) : (finishBulk len bits s).total = s.total := rfl
@[simp] theorem finishBulk_node (len bits : Word) (s : State) : (finishBulk len bits s).node = s.node := rfl
@[simp] theorem finishBulk_nodeCount (len bits : Word) (s : State) : (finishBulk len bits s).nodeCount = s.nodeCount := rfl
@[simp] theorem finishBulk_root (len bits : Word) (s : State) : (finishBulk len bits s).root = s.root := rfl
@[simp] theorem finishBulk_inq (len bits : Word) (s : State) : (finishBulk len bits s).inq = s.inq := rfl
@[simp] theorem finishBulk_cb (len bits : Word) (s : State) : (finishBulk len bits s).cb = s.cb := rfl
@[simp] theorem finishBulk_mem (len bits : Word) (s : State) : (finishBulk len bits s).mem = s.mem := rfl
@[simp] theorem finishBulk_host (len bits : Word) (s : State) : (finishBulk len bits s).host = s.host := rfl
@[simp] theorem finishBulk_schedule (len bits : Word) (s : State) : (finishBulk len bits s).schedule = s.schedule := rfl
@[simp] theorem finishBulk_readData (len bits : Word) (s : State) : (finishBulk len bits s).readData = s.readData := rfl
@[simp] theorem finishBulk_draws (len bits : Word) (s : State) : (finishBulk len bits s).draws = s.draws := rfl

/-! `clearCodec` -/

@[simp] theorem clearCodec_params (s : State) : (clearCodec s).params = s.params := rfl
@[simp] theorem clearCodec_ie (s : State) : (clearCodec s).ie = s.ie := rfl
@[simp] theorem clearCodec_busy (s : State) : (clearCodec s).busy = s.busy := rfl
@[simp] theorem clearCodec_done (s : State) : (clearCodec s).done = s.done := rfl
@[simp] theorem clearCodec_built (s : State) : (clearCodec s).built = false := rfl
@[simp] theorem clearCodec_ovr (s : State) : (clearCodec s).ovr = s.ovr := rfl
@[simp] theorem clearCodec_err (s : State) : (clearCodec s).err = s.err := rfl
@[simp] theorem clearCodec_args (s : State) : (clearCodec s).args = s.args := rfl
@[simp] theorem clearCodec_resultLen (s : State) : (clearCodec s).resultLen = s.resultLen := rfl
@[simp] theorem clearCodec_resultBits (s : State) : (clearCodec s).resultBits = s.resultBits := rfl
@[simp] theorem clearCodec_errPos (s : State) : (clearCodec s).errPos = s.errPos := rfl
@[simp] theorem clearCodec_res0 (s : State) : (clearCodec s).res0 = s.res0 := rfl
@[simp] theorem clearCodec_res1 (s : State) : (clearCodec s).res1 = s.res1 := rfl
@[simp] theorem clearCodec_cwbits (s : State) : (clearCodec s).cwbits = s.cwbits := rfl
@[simp] theorem clearCodec_lCmd (s : State) : (clearCodec s).lCmd = s.lCmd := rfl
@[simp] theorem clearCodec_latch (s : State) : (clearCodec s).latch = s.latch := rfl
@[simp] theorem clearCodec_freq (s : State) : (clearCodec s).freq = Vector.replicate 256 0 := rfl
@[simp] theorem clearCodec_total (s : State) : (clearCodec s).total = 0 := rfl
@[simp] theorem clearCodec_node (s : State) : (clearCodec s).node = s.node := rfl
@[simp] theorem clearCodec_nodeCount (s : State) : (clearCodec s).nodeCount = 0 := rfl
@[simp] theorem clearCodec_root (s : State) : (clearCodec s).root = 0 := rfl
@[simp] theorem clearCodec_inq (s : State) : (clearCodec s).inq = s.inq := rfl
@[simp] theorem clearCodec_cb (s : State) : (clearCodec s).cb = Vector.replicate 257 [] := rfl
@[simp] theorem clearCodec_mem (s : State) : (clearCodec s).mem = s.mem := rfl
@[simp] theorem clearCodec_host (s : State) : (clearCodec s).host = s.host := rfl
@[simp] theorem clearCodec_schedule (s : State) : (clearCodec s).schedule = s.schedule := rfl
@[simp] theorem clearCodec_readData (s : State) : (clearCodec s).readData = s.readData := rfl
@[simp] theorem clearCodec_draws (s : State) : (clearCodec s).draws = s.draws := rfl

/-! `answer` -/

@[simp] theorem answer_params (v : Word) (s : State) : (answer v s).params = s.params := rfl
@[simp] theorem answer_ie (v : Word) (s : State) : (answer v s).ie = s.ie := rfl
@[simp] theorem answer_busy (v : Word) (s : State) : (answer v s).busy = s.busy := rfl
@[simp] theorem answer_done (v : Word) (s : State) : (answer v s).done = s.done := rfl
@[simp] theorem answer_built (v : Word) (s : State) : (answer v s).built = s.built := rfl
@[simp] theorem answer_ovr (v : Word) (s : State) : (answer v s).ovr = s.ovr := rfl
@[simp] theorem answer_err (v : Word) (s : State) : (answer v s).err = s.err := rfl
@[simp] theorem answer_args (v : Word) (s : State) : (answer v s).args = s.args := rfl
@[simp] theorem answer_resultLen (v : Word) (s : State) : (answer v s).resultLen = s.resultLen := rfl
@[simp] theorem answer_resultBits (v : Word) (s : State) : (answer v s).resultBits = s.resultBits := rfl
@[simp] theorem answer_errPos (v : Word) (s : State) : (answer v s).errPos = s.errPos := rfl
@[simp] theorem answer_res0 (v : Word) (s : State) : (answer v s).res0 = s.res0 := rfl
@[simp] theorem answer_res1 (v : Word) (s : State) : (answer v s).res1 = s.res1 := rfl
@[simp] theorem answer_cwbits (v : Word) (s : State) : (answer v s).cwbits = s.cwbits := rfl
@[simp] theorem answer_lCmd (v : Word) (s : State) : (answer v s).lCmd = s.lCmd := rfl
@[simp] theorem answer_latch (v : Word) (s : State) : (answer v s).latch = s.latch := rfl
@[simp] theorem answer_freq (v : Word) (s : State) : (answer v s).freq = s.freq := rfl
@[simp] theorem answer_total (v : Word) (s : State) : (answer v s).total = s.total := rfl
@[simp] theorem answer_node (v : Word) (s : State) : (answer v s).node = s.node := rfl
@[simp] theorem answer_nodeCount (v : Word) (s : State) : (answer v s).nodeCount = s.nodeCount := rfl
@[simp] theorem answer_root (v : Word) (s : State) : (answer v s).root = s.root := rfl
@[simp] theorem answer_inq (v : Word) (s : State) : (answer v s).inq = s.inq := rfl
@[simp] theorem answer_cb (v : Word) (s : State) : (answer v s).cb = s.cb := rfl
@[simp] theorem answer_mem (v : Word) (s : State) : (answer v s).mem = s.mem := rfl
@[simp] theorem answer_host (v : Word) (s : State) : (answer v s).host = s.host := rfl
@[simp] theorem answer_schedule (v : Word) (s : State) : (answer v s).schedule = s.schedule := rfl
@[simp] theorem answer_readData (v : Word) (s : State) : (answer v s).readData = some v := rfl
@[simp] theorem answer_draws (v : Word) (s : State) : (answer v s).draws = s.draws := rfl

/-! `applyReset` -/

@[simp] theorem applyReset_params (s : State) : (applyReset s).params = s.params := rfl
@[simp] theorem applyReset_ie (s : State) : (applyReset s).ie = (State.resetWith s.params).ie := rfl
@[simp] theorem applyReset_busy (s : State) : (applyReset s).busy = (State.resetWith s.params).busy := rfl
@[simp] theorem applyReset_done (s : State) : (applyReset s).done = (State.resetWith s.params).done := rfl
@[simp] theorem applyReset_built (s : State) : (applyReset s).built = (State.resetWith s.params).built := rfl
@[simp] theorem applyReset_ovr (s : State) : (applyReset s).ovr = (State.resetWith s.params).ovr := rfl
@[simp] theorem applyReset_err (s : State) : (applyReset s).err = (State.resetWith s.params).err := rfl
@[simp] theorem applyReset_args (s : State) : (applyReset s).args = (State.resetWith s.params).args := rfl
@[simp] theorem applyReset_resultLen (s : State) : (applyReset s).resultLen = (State.resetWith s.params).resultLen := rfl
@[simp] theorem applyReset_resultBits (s : State) : (applyReset s).resultBits = (State.resetWith s.params).resultBits := rfl
@[simp] theorem applyReset_errPos (s : State) : (applyReset s).errPos = (State.resetWith s.params).errPos := rfl
@[simp] theorem applyReset_res0 (s : State) : (applyReset s).res0 = (State.resetWith s.params).res0 := rfl
@[simp] theorem applyReset_res1 (s : State) : (applyReset s).res1 = (State.resetWith s.params).res1 := rfl
@[simp] theorem applyReset_cwbits (s : State) : (applyReset s).cwbits = (State.resetWith s.params).cwbits := rfl
@[simp] theorem applyReset_lCmd (s : State) : (applyReset s).lCmd = (State.resetWith s.params).lCmd := rfl
@[simp] theorem applyReset_latch (s : State) : (applyReset s).latch = (State.resetWith s.params).latch := rfl
@[simp] theorem applyReset_freq (s : State) : (applyReset s).freq = (State.resetWith s.params).freq := rfl
@[simp] theorem applyReset_total (s : State) : (applyReset s).total = (State.resetWith s.params).total := rfl
@[simp] theorem applyReset_node (s : State) : (applyReset s).node = (State.resetWith s.params).node := rfl
@[simp] theorem applyReset_nodeCount (s : State) : (applyReset s).nodeCount = (State.resetWith s.params).nodeCount := rfl
@[simp] theorem applyReset_root (s : State) : (applyReset s).root = (State.resetWith s.params).root := rfl
@[simp] theorem applyReset_inq (s : State) : (applyReset s).inq = (State.resetWith s.params).inq := rfl
@[simp] theorem applyReset_cb (s : State) : (applyReset s).cb = (State.resetWith s.params).cb := rfl
@[simp] theorem applyReset_mem (s : State) : (applyReset s).mem = (State.resetWith s.params).mem := rfl
@[simp] theorem applyReset_host (s : State) : (applyReset s).host = s.host := rfl
@[simp] theorem applyReset_schedule (s : State) : (applyReset s).schedule = s.schedule := rfl
@[simp] theorem applyReset_readData (s : State) : (applyReset s).readData = s.readData := rfl
@[simp] theorem applyReset_draws (s : State) : (applyReset s).draws = s.draws := rfl

/-! The reset values of R58 -/

@[simp] theorem resetWith_params (p : Params) : (State.resetWith p).params = p := rfl
@[simp] theorem resetWith_ie (p : Params) : (State.resetWith p).ie = false := rfl
@[simp] theorem resetWith_busy (p : Params) : (State.resetWith p).busy = false := rfl
@[simp] theorem resetWith_done (p : Params) : (State.resetWith p).done = false := rfl
@[simp] theorem resetWith_built (p : Params) : (State.resetWith p).built = false := rfl
@[simp] theorem resetWith_ovr (p : Params) : (State.resetWith p).ovr = false := rfl
@[simp] theorem resetWith_err (p : Params) : (State.resetWith p).err = 0 := rfl
@[simp] theorem resetWith_args (p : Params) : (State.resetWith p).args = ⟨0, 0, 0, 0⟩ := rfl
@[simp] theorem resetWith_resultLen (p : Params) : (State.resetWith p).resultLen = 0 := rfl
@[simp] theorem resetWith_resultBits (p : Params) : (State.resetWith p).resultBits = 0 := rfl
@[simp] theorem resetWith_errPos (p : Params) : (State.resetWith p).errPos = 0 := rfl
@[simp] theorem resetWith_res0 (p : Params) : (State.resetWith p).res0 = 0 := rfl
@[simp] theorem resetWith_res1 (p : Params) : (State.resetWith p).res1 = 0 := rfl
@[simp] theorem resetWith_cwbits (p : Params) : (State.resetWith p).cwbits = Vector.replicate 8 0 := rfl
@[simp] theorem resetWith_freq (p : Params) : (State.resetWith p).freq = Vector.replicate 256 0 := rfl
@[simp] theorem resetWith_total (p : Params) : (State.resetWith p).total = 0 := rfl
@[simp] theorem resetWith_nodeCount (p : Params) : (State.resetWith p).nodeCount = 0 := rfl
@[simp] theorem resetWith_root (p : Params) : (State.resetWith p).root = 0 := rfl
@[simp] theorem resetWith_cb (p : Params) : (State.resetWith p).cb = Vector.replicate 257 [] := rfl
@[simp] theorem resetWith_mem (p : Params) : (State.resetWith p).mem = [] := rfl

end Sys2Proof.Machine
end

