-- ==== Sys2Proof/Laws/Bus.lean ====
section
/-! SUPPORT. What a host access can do (20_memory.md R82 to R85, R91, R93, R100). -/

namespace Sys2Proof.Machine

theorem dmemSize_pos (p : Params) : 0 < dmemSize p := Nat.two_pow_pos _

/-- DMEM fits the aperture (R7, R85). -/
theorem dmemSize_le (p : Params) : dmemSize p ≤ 2 ^ 23 :=
  Nat.pow_le_pow_right (by omega) (by have := p.dmemExp.isLt; omega)

/-- DMEM_SIZE is a multiple of 4, so an aligned access never crosses its end (R82). -/
theorem dmemSize_mod_four (p : Params) : dmemSize p % 4 = 0 := by
  have : dmemSize p = 4 * 2 ^ (6 + p.dmemExp.val) := by
    rw [dmemSize, show 8 + p.dmemExp.val = 2 + (6 + p.dmemExp.val) by omega, Nat.pow_add]
  omega

/-- Aperture decode by offset (R85). -/
theorem regionOf_offset (p : Params) {o : Nat} (h : o < Config.aperture) :
    regionOf p (busBase p + o) =
      if o < Config.dmemOff then .registers o
      else if o < Config.dmemOff + dmemSize p then .dmem (o - Config.dmemOff)
      else .unmapped := by
  unfold regionOf
  rw [if_neg (by omega)]
  simp only [Nat.add_sub_cancel_left]

theorem regionOf_registers (p : Params) {o : Nat} (h : o < 0x10000) :
    regionOf p (busBase p + o) = .registers o := by
  rw [regionOf_offset p (by simp only [Config.aperture]; omega), if_pos h]

theorem regionOf_dmem (p : Params) {a : Nat} (h : a < dmemSize p) :
    regionOf p (busBase p + 0x10000 + a) = .dmem a := by
  have := dmemSize_le p
  rw [Nat.add_assoc, regionOf_offset p (by simp only [Config.aperture]; omega)]
  simp only [Config.dmemOff]
  rw [if_neg (by omega), if_pos (by omega), Nat.add_sub_cancel_left]

/-- A DMEM region is inside DMEM. -/
theorem regionOf_dmem_lt {p : Params} {addr a : Nat} (h : regionOf p addr = .dmem a) :
    a < dmemSize p := by
  unfold regionOf at h
  dsimp only at h
  split at h
  · cases h
  · split at h
    · cases h
    · split at h
      · simp only [Region.dmem.injEq] at h; omega
      · cases h

/-- An aligned access stays inside DMEM (R82). -/
theorem dmemAligned_le {p : Params} {a size : Nat} (ha : a < dmemSize p) (h : dmemAligned a size) :
    a + size ≤ dmemSize p := by
  have h4 := dmemSize_mod_four p
  obtain ⟨rfl | rfl | rfl, hm⟩ := h <;> omega

/-- A host read that completes changes nothing but what the host has read, and the counter of free
values (R93). -/
theorem busRead_next {addr size : Nat} {s t : State} (h : busRead addr size s = .next t) :
    (∃ o, regionOf s.params addr = .registers o ∧ regAligned o size ∧ t = readReg (regAt o) s) ∨
    (∃ a v, regionOf s.params addr = .dmem a ∧ dmemAligned a size ∧ s.busy = false ∧
      s.mem.readLE a size = some v ∧ t = answer v s) := by
  unfold busRead at h
  rcases hR : regionOf s.params addr with o | a | _ | _ <;> rw [hR] at h <;> dsimp only at h
  · by_cases ha : regAligned o size
    · rw [if_pos ha, Host.Outcome.next.injEq] at h
      exact .inl ⟨o, rfl, ha, h.symm⟩
    · rw [if_neg ha] at h; cases h
  · by_cases ha : dmemAligned a size
    · rw [if_neg (not_not.2 ha)] at h
      cases hb : s.busy with
      | true => rw [hb, if_pos rfl] at h; cases h
      | false =>
        rw [hb, if_neg Bool.false_ne_true] at h
        cases hv : s.mem.readLE a size with
        | none => rw [hv] at h; cases h
        | some v =>
          rw [hv] at h
          simp only [Host.Outcome.next.injEq] at h
          exact .inr ⟨a, v, rfl, ha, rfl, hv, h.symm⟩
    · rw [if_pos ha] at h; cases h
  · cases h
  · cases h

/-- A host write that completes writes a register or DMEM bytes (R82, R83). -/
theorem busWrite_next {addr size : Nat} {v : Word} {s t : State} (h : busWrite addr size v s = .next t) :
    (∃ o, regionOf s.params addr = .registers o ∧ regAligned o size ∧ t = writeReg (regAt o) v s) ∨
    (∃ a, regionOf s.params addr = .dmem a ∧ dmemAligned a size ∧ s.busy = false ∧
      t = { s with mem := s.mem.writeLE a size v }) := by
  unfold busWrite at h
  rcases hR : regionOf s.params addr with o | a | _ | _ <;> rw [hR] at h <;> dsimp only at h
  · by_cases ha : regAligned o size
    · rw [if_pos ha, Host.Outcome.next.injEq] at h
      exact .inl ⟨o, rfl, ha, h.symm⟩
    · rw [if_neg ha] at h; cases h
  · by_cases ha : dmemAligned a size
    · rw [if_neg (not_not.2 ha)] at h
      cases hb : s.busy with
      | true => rw [hb, if_pos rfl] at h; cases h
      | false =>
        rw [hb, if_neg Bool.false_ne_true, Host.Outcome.next.injEq] at h
        exact .inr ⟨a, rfl, ha, rfl, h.symm⟩
    · rw [if_pos ha] at h; cases h
  · cases h
  · cases h

/-- Bit 0 of STATUS is BUSY (R36). -/
theorem statusWord_busy (busy done built ovr : Bool) (err : BitVec 8) :
    (statusWord busy done built ovr err).getLsbD 0 = busy := by
  unfold statusWord
  rw [BitVec.getLsbD_append, if_pos Nat.zero_lt_one]
  cases busy <;> decide

/-- A STATUS read shows BUSY in bit 0 at all times (R47). -/
theorem readValue_status_busy (s : State) : (readValue .status s).getLsbD 0 = s.busy := by
  unfold readValue
  split
  · exact statusWord_busy _ _ _ _ _
  · exact statusWord_busy _ _ _ _ _

/-- What a register write does (R31, R93). -/
theorem writeReg_cases (r : Reg) (v : Word) (s : State) :
    writeReg r v s = s ∨ writeReg r v s = writeCtrl v s ∨ writeReg r v s = writeStatus v s ∨
      writeReg r v s = writeCmd v s ∨ ∃ args, writeReg r v s = { s with args := args } := by
  cases r <;> simp only [writeReg] <;> simp

/-- A CMD write issues or is dropped (R112, R113). -/
theorem writeCmd_cases (v : Word) (s : State) :
    (s.busy = false ∧ writeCmd v s = accept v s) ∨
    (s.busy = true ∧ writeCmd v s = { s with ovr := true }) := by
  unfold writeCmd
  cases h : s.busy <;> simp

end Sys2Proof.Machine
end

