-- ==== Sys2Proof/Laws/Ops.lean ====
section
/-! SUPPORT. The laws of the stream and result packing (20_memory.md R89, R90; 43_codebook.md R205;
44_encoder.md R222). -/

namespace Sys2Proof.Machine

theorem bitsValue_append (bs cs : Bits) :
    bitsValue (bs ++ cs) = cs.foldl (fun v b => 2 * v + b.toNat) (bitsValue bs) := by
  simp [bitsValue]

theorem bitsValue_snoc (bs : Bits) (b : Bool) : bitsValue (bs ++ [b]) = 2 * bitsValue bs + b.toNat := by
  simp [bitsValue]

/-- Bit `length - 1 - j` of the value is bit `j` of the sequence: most significant bit first (R89). -/
theorem bitsValue_testBit (bs : Bits) (i : Nat) :
    (bitsValue bs).testBit i = (decide (i < bs.length) && bs.getD (bs.length - 1 - i) false) := by
  induction bs using List.reverseRecOn generalizing i with
  | nil => simp [bitsValue]
  | append_singleton bs b ih =>
    rw [bitsValue_snoc]
    cases i with
    | zero =>
      cases b <;> simp [Nat.testBit_zero, List.getD_eq_getElem?_getD]
    | succ i =>
      have h2 : (2 * bitsValue bs + b.toNat) / 2 = bitsValue bs := by
        cases b <;> simp
        omega
      rw [Nat.testBit_succ, h2, ih]
      simp only [List.length_append, List.length_cons, List.length_nil, Nat.zero_add,
        Nat.add_lt_add_iff_right, List.getD_eq_getElem?_getD]
      by_cases h : i < bs.length
      · rw [List.getElem?_append_left (by omega)]
        simp only [h, decide_true, Bool.true_and]
        congr 2; omega
      · simp [h]

@[simp] theorem length_padTo (n : Nat) (bs : Bits) : (padTo n bs).length = n := by
  simp only [padTo, List.length_append, List.length_take, List.length_replicate]; omega

/-- Bit `j` of a padded sequence: the sequence's, and 0 beyond it (R205, R222). -/
theorem padTo_getD (n : Nat) (bs : Bits) {j : Nat} (h : j < n) :
    (padTo n bs).getD j false = bs.getD j false := by
  simp only [padTo, List.getD_eq_getElem?_getD, List.getElem?_append, List.length_take,
    List.getElem?_take, List.getElem?_replicate]
  by_cases hj : j < bs.length
  · rw [if_pos (by omega), if_pos h]
  · rw [if_neg (by omega)]
    rw [List.getElem?_eq_none (by omega)]
    split <;> rfl

/-- A packed word, bit by bit (R205). -/
theorem packWord_getLsbD (bs : Bits) (w : Nat) {t : Nat} (h : t < 32) :
    (packWord bs w).getLsbD (31 - t) = bs.getD (32 * w + t) false := by
  simp only [packWord, BitVec.getLsbD_ofNat, bitsValue_testBit, length_padTo]
  rw [show 32 - 1 - (31 - t) = t by omega, padTo_getD _ _ h]
  simp [List.getD_eq_getElem?_getD]
  omega

@[simp] theorem length_packBytes (n : Nat) (bs : Bits) : (packBytes n bs).length = n := by
  induction n generalizing bs with
  | zero => rfl
  | succ n ih => simp [packBytes, ih]

/-- A packed byte, bit by bit: stream bit 8k + j is bit 7 - j of byte k (R222). -/
theorem packBytes_getLsbD (n : Nat) (bs : Bits) {k j : Nat} (hk : k < n) (hj : j < 8) :
    ((packBytes n bs)[k]'(by simpa using hk)).getLsbD (7 - j) = bs.getD (8 * k + j) false := by
  induction n generalizing bs k with
  | zero => omega
  | succ n ih =>
    cases k with
    | zero =>
      simp only [packBytes, List.getElem_cons_zero, BitVec.getLsbD_ofNat, bitsValue_testBit,
        length_padTo]
      rw [show 8 - 1 - (7 - j) = j by omega, padTo_getD _ _ hj]
      simp
      omega
    | succ k =>
      simp only [packBytes, List.getElem_cons_succ]
      rw [ih (bs.drop 8) (by omega)]
      simp only [List.getD_eq_getElem?_getD, List.getElem?_drop]
      congr 2; omega

/-- What a stream written to DMEM reads as (R90, R222). -/
theorem streamBit_writeBytes (m : Memory) (a n : Nat) (bs : Bits) {p : Nat} (h : p < 8 * n) :
    streamBit (m.writeBytes a (packBytes n bs)) a p = some (bs.getD p false) := by
  have hk : p / 8 < n := by omega
  simp only [streamBit, Memory.read_writeBytes, length_packBytes]
  rw [if_pos (by omega), show a + p / 8 - a = p / 8 by omega,
    List.getElem?_eq_getElem (by simpa using hk)]
  simp only [Option.map_some, Option.some.injEq]
  rw [packBytes_getLsbD n bs hk (by omega)]
  congr 1; omega

/-- A written byte sequence is held where it was written. -/
theorem holdsBytes_writeBytes (m : Memory) (a : Nat) (bs : List Byte) :
    holdsBytes (m.writeBytes a bs) a bs := fun k h => by
  rw [Memory.read_writeBytes, if_pos (by omega), show a + k - a = k by omega,
    List.getElem?_eq_getElem h]

theorem sameOutside_writeBytes (m : Memory) (a : Nat) (bs : List Byte) :
    sameOutside m (m.writeBytes a bs) a bs.length := fun x h => by
  rw [Memory.read_writeBytes, if_neg (by omega)]

/-- What ENCODE's loop gives for a message held in DMEM whose bytes all have codewords (R220). -/
theorem translate_encodable {cb : Vector Bits 257} {m : Memory} {a i : Nat} {msg : List Byte}
    (hm : holdsBytes m (a + i) msg) (he : encodable cb msg) :
    translate cb m a msg.length i = .bits (codeBits cb msg) := by
  induction msg generalizing i with
  | nil => rfl
  | cons b msg ih =>
    have h0 := hm 0 (by simp)
    simp only [Nat.add_zero, List.getElem_cons_zero] at h0
    have hb : codeOfByte cb b ≠ [] := he b (by simp)
    have ht : holdsBytes m (a + (i + 1)) msg := fun k hk => by
      have := hm (k + 1) (by simpa using hk)
      rw [show a + (i + 1) + k = a + i + (k + 1) by omega, this]; simp
    simp only [List.length_cons, translate, h0, if_neg hb,
      ih ht (fun c hc => he c (List.mem_cons_of_mem _ hc)), prepend, codeBits, List.flatMap_cons]

end Sys2Proof.Machine
end

