-- ==== Sys2Proof/Laws/Commands.lean ====
section
/-! SUPPORT. What each command can do: if it answers a next state, one of these cases holds; and what it
stops on. Proofs cite these instead of unfolding a meaning. -/

namespace Sys2Proof.Machine

theorem execNop_next {s t : State} (h : execNop s = .next t) : t = complete errOk s := by
  simpa [execNop, eq_comm] using h

theorem execClear_next {s t : State} (h : execClear s = .next t) :
    t = complete errOk (clearCodec s) := by
  simpa [execClear, eq_comm] using h

/-- COUNT (R151, R262, R264). -/
theorem execCount_next {s t : State} (h : execCount s = .next t) :
    (s.built = true ∧ t = raiseBulk .alreadyBuilt 0 0 s) ∨
    (s.built = false ∧ ¬ srcOk s ∧ t = raiseBulk .badRange 0 0 s) ∨
    (s.built = false ∧ srcOk s ∧ Config.totalMax < s.total.toNat + srcLen s ∧
      t = raiseBulk .corpusOverflow 0 0 s) ∨
    (s.built = false ∧ srcOk s ∧ s.total.toNat + srcLen s ≤ Config.totalMax ∧
      ∃ bs, bs.length = srcLen s ∧ holdsBytes s.mem (srcAddr s) bs ∧
        t = finishBulk s.latch.srcLen 0
          { s with freq := countBytes s.freq bs, total := s.total + s.latch.srcLen }) := by
  unfold execCount at h
  split at h
  · exact .inl ⟨‹_›, by simpa [eq_comm] using h⟩
  · have hb : s.built = false := by simpa using ‹¬ s.built = true›
    split at h
    · exact .inr (.inl ⟨hb, ‹_›, by simpa [eq_comm] using h⟩)
    · have hs : srcOk s := not_not.1 ‹_›
      split at h
      · exact .inr (.inr (.inl ⟨hb, hs, ‹_›, by simpa [eq_comm] using h⟩))
      · split at h
        · cases h
        · rename_i bs hr
          obtain ⟨hl, hh⟩ := Memory.readBytes_eq_some.1 hr
          exact .inr (.inr (.inr ⟨hb, hs, by omega, bs, hl, hh, by simpa [eq_comm] using h⟩))

/-- COUNT of a readable range completes (R151). -/
theorem execCount_eq {s : State} {bs : List Byte} (hb : s.built = false) (hs : srcOk s)
    (ht : s.total.toNat + srcLen s ≤ Config.totalMax) (hl : bs.length = srcLen s)
    (hh : holdsBytes s.mem (srcAddr s) bs) :
    execCount s = .next (finishBulk s.latch.srcLen 0
      { s with freq := countBytes s.freq bs, total := s.total + s.latch.srcLen }) := by
  unfold execCount
  rw [if_neg (by simp [hb]), if_neg (not_not.2 hs), if_neg (by omega),
    Memory.readBytes_eq_some.2 ⟨hl, hh⟩]

/-- FREQ_READ (R152). -/
theorem execFreqRead_next {idx : Nat} {s t : State} (h : execFreqRead idx s = .next t) :
    (∃ hi : idx < 256, t = complete errOk { s with res0 := s.freq[idx], res1 := 0 }) ∨
    (256 ≤ idx ∧ t = raiseError .badIndex s) := by
  unfold execFreqRead at h
  split at h
  · exact .inl ⟨‹_›, by simpa [eq_comm] using h⟩
  · exact .inr ⟨by omega, by simpa [eq_comm] using h⟩

/-- BUILD (R170). -/
theorem execBuild_next {s t : State} (h : execBuild s = .next t) :
    (s.built = true ∧ t = raiseError .alreadyBuilt s) ∨
    (s.built = false ∧ ∃ b, b = buildTrie s.params.sentinelCp s.node s.inq s.freq ∧
      t = complete errOk
        { s with
          node := b.node
          inq := b.inq
          nodeCount := BitVec.ofNat 10 b.n
          root := BitVec.ofNat 10 (rootOf b)
          cb := deriveCodebook b.node (rootOf b)
          built := true }) := by
  unfold execBuild at h
  split at h
  · exact .inl ⟨‹_›, by simpa [eq_comm] using h⟩
  · exact .inr ⟨by simpa using ‹¬ s.built = true›, _, rfl, by simpa [eq_comm] using h⟩

/-- NODE_READ (R178). -/
theorem execNodeRead_next {idx : Nat} {s t : State} (h : execNodeRead idx s = .next t) :
    (s.built = false ∧ t = raiseError .notBuilt s) ∨
    (s.built = true ∧ s.nodeCount.toNat ≤ idx ∧ t = raiseError .badIndex s) ∨
    (s.built = true ∧ idx < s.nodeCount.toNat ∧ ∃ x, s.node[idx]? = some x ∧
      t = complete errOk { s with res0 := nodeWeight x, res1 := nodeInfo x }) := by
  unfold execNodeRead at h
  split at h
  · exact .inl ⟨by simpa using ‹¬ s.built = true›, by simpa [eq_comm] using h⟩
  · have hb : s.built = true := not_not.1 ‹_›
    split at h
    · exact .inr (.inl ⟨hb, ‹_›, by simpa [eq_comm] using h⟩)
    · split at h
      · cases h
      · exact .inr (.inr ⟨hb, by omega, _, ‹_›, by simpa [eq_comm] using h⟩)

/-- CB_LOOKUP (R204). -/
theorem execCbLookup_next {idx : Nat} {s t : State} (h : execCbLookup idx s = .next t) :
    (s.built = false ∧ t = raiseError .notBuilt s) ∨
    (s.built = true ∧ 257 ≤ idx ∧ t = raiseError .badIndex s) ∨
    (s.built = true ∧ ∃ hi : idx < 257, t = complete errOk
      { s with
        res0 := BitVec.ofNat 32 s.cb[idx].length
        res1 := 0
        cwbits := packCode s.cb[idx] }) := by
  unfold execCbLookup at h
  split at h
  · exact .inl ⟨by simpa using ‹¬ s.built = true›, by simpa [eq_comm] using h⟩
  · have hb : s.built = true := not_not.1 ‹_›
    split at h
    · exact .inr (.inr ⟨hb, ‹_›, by simpa [eq_comm] using h⟩)
    · exact .inr (.inl ⟨hb, by omega, by simpa [eq_comm] using h⟩)

/-- ENCODE's output stage: the capacity check fails or the stream is written (R220). -/
theorem emitStream_cases (bs : Bits) (s : State) :
    (dstCap s < bytesFor bs.length ∧
      emitStream bs s = raiseBulk .outputOverflow (BitVec.ofNat 32 (bytesFor bs.length)) 0 s) ∨
    (bytesFor bs.length ≤ dstCap s ∧
      emitStream bs s = finishBulk (BitVec.ofNat 32 (bytesFor bs.length)) (BitVec.ofNat 32 bs.length)
        { s with
          mem := s.mem.writeBytes (dstAddr s)
            (packBytes (bytesFor bs.length) (padTo (8 * bytesFor bs.length) bs)) }) := by
  unfold emitStream
  split
  · exact .inl ⟨‹_›, rfl⟩
  · exact .inr ⟨by omega, rfl⟩

/-- ENCODE (R220, R262). -/
theorem execEncode_next {s t : State} (h : execEncode s = .next t) :
    (s.built = false ∧ t = raiseBulk .notBuilt 0 0 s) ∨
    (s.built = true ∧ ¬ rangesOk s ∧ t = raiseBulk .badRange 0 0 s) ∨
    (s.built = true ∧ rangesOk s ∧ ∃ pos,
      translate s.cb s.mem (srcAddr s) (srcLen s) 0 = .unknown pos ∧
        t = raiseBulk .unknownSymbol 0 (BitVec.ofNat 32 pos) s) ∨
    (s.built = true ∧ rangesOk s ∧ ∃ bs,
      translate s.cb s.mem (srcAddr s) (srcLen s) 0 = .bits bs ∧
        t = emitStream (bs ++ codeOfSent s.cb) s) := by
  unfold execEncode at h
  split at h
  · exact .inl ⟨by simpa using ‹¬ s.built = true›, by simpa [eq_comm] using h⟩
  · have hb : s.built = true := not_not.1 ‹_›
    split at h
    · exact .inr (.inl ⟨hb, ‹_›, by simpa [eq_comm] using h⟩)
    · have hr : rangesOk s := not_not.1 ‹_›
      split at h
      · cases h
      · exact .inr (.inr (.inl ⟨hb, hr, _, ‹_›, by simpa [eq_comm] using h⟩))
      · exact .inr (.inr (.inr ⟨hb, hr, _, ‹_›, by simpa [eq_comm] using h⟩))

/-- DECODE's output stage: the capacity check fails or the symbols are written (R240). -/
theorem emitSymbols_cases (out : List Byte) (p : Nat) (s : State) :
    (dstCap s < out.length ∧
      emitSymbols out p s = raiseBulk .outputOverflow (BitVec.ofNat 32 out.length) 0 s) ∨
    (out.length ≤ dstCap s ∧
      emitSymbols out p s = finishBulk (BitVec.ofNat 32 out.length) (BitVec.ofNat 32 p)
        { s with mem := s.mem.writeBytes (dstAddr s) out }) := by
  unfold emitSymbols
  split
  · exact .inl ⟨‹_›, rfl⟩
  · exact .inr ⟨by omega, rfl⟩

/-- DECODE (R240, R262). -/
theorem execDecode_next {s t : State} (h : execDecode s = .next t) :
    (s.built = false ∧ t = raiseBulk .notBuilt 0 0 s) ∨
    (s.built = true ∧ ¬ rangesOk s ∧ t = raiseBulk .badRange 0 0 s) ∨
    (s.built = true ∧ rangesOk s ∧ decodeWalk s = .truncated ∧
      t = raiseBulk .truncatedInput 0 s.latch.srcLen s) ∨
    (s.built = true ∧ rangesOk s ∧ ∃ out p, decodeWalk s = .stop out p ∧ t = emitSymbols out p s) := by
  unfold execDecode at h
  split at h
  · exact .inl ⟨by simpa using ‹¬ s.built = true›, by simpa [eq_comm] using h⟩
  · have hb : s.built = true := not_not.1 ‹_›
    split at h
    · exact .inr (.inl ⟨hb, ‹_›, by simpa [eq_comm] using h⟩)
    · have hr : rangesOk s := not_not.1 ‹_›
      split at h
      · cases h
      · cases h
      · exact .inr (.inr (.inl ⟨hb, hr, ‹_›, by simpa [eq_comm] using h⟩))
      · exact .inr (.inr (.inr ⟨hb, hr, _, _, ‹_›, by simpa [eq_comm] using h⟩))

/-- No command is refused. -/
theorem exec_ne_refused (i : Instr) (s : State) (r : Refusal) : exec i s ≠ .refused r := by
  cases i <;> simp only [exec, execNop, execClear, execCount, execFreqRead, execBuild, execNodeRead,
    execCbLookup, execEncode, execDecode] <;> (repeat' split) <;> simp

end Sys2Proof.Machine
end

