-- ==== Sys2Proof/Laws/Decoder.lean ====
section
/-! SUPPORT. The laws of DECODE's walk (45_decoder.md R240 to R244): where it stands before the next bit, and
how one bit moves it. -/

namespace Sys2Proof.Machine

/-- At an internal node the walk needs a bit (R242). -/
theorem settle_internal {node : Vector Node 513} {root cur : Nat} {out : List Byte} {w : Word} {l r : Idx}
    (h : node[cur]? = some (.internal w l r)) : settle node root cur out = .atNode l r out := by
  simp [settle, h]

/-- At the sentinel's leaf the walk stops (R243). -/
theorem settle_sentinel {node : Vector Node 513} {root cur : Nat} {out : List Byte} {w : Word} {sym : Idx}
    (h : node[cur]? = some (.leaf w sym)) (hs : sym.toNat = Config.sent) :
    settle node root cur out = .stop out := by
  simp [settle, h, hs]

/-- At another leaf the symbol is emitted and the walk restarts at a root that is internal (R242). -/
theorem settle_symbol {node : Vector Node 513} {root cur : Nat} {out : List Byte} {w v : Word} {sym l r : Idx}
    (h : node[cur]? = some (.leaf w sym)) (hs : sym.toNat ≠ Config.sent)
    (hr : node[root]? = some (.internal v l r)) :
    settle node root cur out = .atNode l r (sym.setWidth 8 :: out) := by
  simp [settle, h, hs, hr]

/-- One bit of the walk (R240, R241). -/
theorem walk_bit {node : Vector Node 513} {root cur k p a : Nat} {m : Memory} {out out' : List Byte} {l r : Idx}
    {b : Bool} (h : settle node root cur out = .atNode l r out') (hb : streamBit m a p = some b) :
    walk node root m a (k + 1) cur p out =
      walk node root m a k (if b then r.toNat else l.toNat) (p + 1) out' := by
  simp [walk, h, hb]

/-- A walk that stands at the sentinel's leaf ends there, however many bits are left (R243). -/
theorem walk_stop {node : Vector Node 513} {root cur k p a : Nat} {m : Memory} {out out' : List Byte}
    (h : settle node root cur out = .stop out') : walk node root m a k cur p out = .stop out'.reverse p := by
  cases k <;> simp [walk, h]

/-- A walk with no bit left that needs one is truncated (R244). -/
theorem walk_truncated {node : Vector Node 513} {root cur p a : Nat} {m : Memory} {out out' : List Byte}
    {l r : Idx} (h : settle node root cur out = .atNode l r out') :
    walk node root m a 0 cur p out = .truncated := by
  simp [walk, h]

/-- A walk that needs a bit of a byte that nothing has written faults (R91). -/
theorem walk_unwritten {node : Vector Node 513} {root cur k p a : Nat} {m : Memory} {out out' : List Byte}
    {l r : Idx} (h : settle node root cur out = .atNode l r out') (hb : streamBit m a p = none) :
    walk node root m a (k + 1) cur p out = .unwritten := by
  simp [walk, h, hb]

end Sys2Proof.Machine
end

