-- ==== Sys2Proof/Laws/PerInstr.lean ====
section
/-! SUPPORT. Statements made for every command: what the fields of its word hold (30_encoding.md R110, R111). -/

namespace Sys2Proof.Laws.EncodingFields

/-- The reserved fields of the word are 0, OP is the command's opcode and IDX its index. -/
def Statement (i : Instr) : Prop :=
  i.wf → fieldRsvHi (encode i) = 0 ∧ fieldRsvLo (encode i) = 0 ∧ fieldOp (encode i) = opcode i ∧
    (fieldIdx (encode i)).toNat = indexOf i

/-- Any word put together from the four fields gives them back. -/
theorem fields_of_append (x : Idx) (op : BitVec 8) :
    fieldRsvHi ((0 : BitVec 6) ++ x ++ (0 : BitVec 8) ++ op) = 0 ∧
      fieldRsvLo ((0 : BitVec 6) ++ x ++ (0 : BitVec 8) ++ op) = 0 ∧
      fieldOp ((0 : BitVec 6) ++ x ++ (0 : BitVec 8) ++ op) = op ∧
      fieldIdx ((0 : BitVec 6) ++ x ++ (0 : BitVec 8) ++ op) = x := by
  refine ⟨?_, ?_, ?_, ?_⟩ <;> apply BitVec.eq_of_getLsbD_eq <;> intro i hi <;>
    simp only [fieldRsvHi, fieldRsvLo, fieldOp, fieldIdx, BitVec.getLsbD_extractLsb',
      BitVec.getLsbD_append]
  all_goals interval_cases i <;> simp

theorem of_index_lt (i : Instr) (h : indexOf i < 1024) : Statement i := fun _ => by
  obtain ⟨h1, h2, h3, h4⟩ := fields_of_append (BitVec.ofNat 10 (indexOf i)) (opcode i)
  refine ⟨h1, h2, h3, ?_⟩
  rw [show fieldIdx (encode i) = BitVec.ofNat 10 (indexOf i) from h4, BitVec.toNat_ofNat]
  exact Nat.mod_eq_of_lt h

theorem nop : Statement .nop := of_index_lt _ (by decide)
theorem clear : Statement .clear := of_index_lt _ (by decide)
theorem count : Statement .count := of_index_lt _ (by decide)
theorem build : Statement .build := of_index_lt _ (by decide)
theorem encode : Statement .encode := of_index_lt _ (by decide)
theorem decode : Statement .decode := of_index_lt _ (by decide)
theorem cbLookup (idx : Nat) : Statement (.cbLookup idx) := fun h => of_index_lt (.cbLookup idx) h h
theorem nodeRead (idx : Nat) : Statement (.nodeRead idx) := fun h => of_index_lt (.nodeRead idx) h h
theorem freqRead (idx : Nat) : Statement (.freqRead idx) := fun h => of_index_lt (.freqRead idx) h h

end Sys2Proof.Laws.EncodingFields
end

