-- ==== Sys2Proof/Laws/Step.lean ====
section
/-! SUPPORT. What one step of the machine can do (30_encoding.md R123). -/

namespace Sys2Proof.Machine

/-- The engine's step that completes (R114, R117). -/
theorem engineStep_next {s t : State} (h : engineStep s = .next t) :
    (∃ i, decode s.lCmd = .ok i ∧ exec i s = .next t) ∨
    (∃ e, decode s.lCmd = .error e ∧ t = raiseError .illegalCommand s) := by
  unfold engineStep at h
  split at h
  · exact .inl ⟨_, ‹_›, h⟩
  · exact .inr ⟨_, ‹_›, by simpa [eq_comm] using h⟩

/-- The host's turn that completes (R119, R122). -/
theorem hostTurn_next {s t : State} (h : hostTurn s = .next t) :
    (s.host = [] ∧ t = s) ∨
    (∃ addr size rest, s.host = .bus (.read addr size) :: rest ∧
      busRead addr size { s with host := rest } = .next t) ∨
    (∃ addr size v rest, s.host = .bus (.write addr size v) :: rest ∧
      busWrite addr size v { s with host := rest } = .next t) ∨
    (∃ rest, s.host = .wait :: rest ∧ t = pollStatus rest s) := by
  unfold hostTurn at h
  split at h
  · exact .inl ⟨‹_›, by simpa [eq_comm] using h⟩
  · rename_i tx rest hh
    cases tx with
    | read addr size => exact .inr (.inl ⟨_, _, _, hh, h⟩)
    | write addr size v => exact .inr (.inr (.inl ⟨_, _, _, _, hh, h⟩))
  · exact .inr (.inr (.inr ⟨_, ‹_›, by simpa [eq_comm] using h⟩))

/-- A poll changes nothing but what the host has read, the counter of free values and, when BUSY reads 0,
the host's program (R122). -/
theorem pollStatus_eq (rest : List HostOp) (s : State) :
    pollStatus rest s = readReg .status s ∨
      pollStatus rest s = { readReg .status s with host := rest } := by
  unfold pollStatus
  split
  · exact .inl rfl
  · exact .inr rfl

/-- One step: a turn is taken off the schedule, and then the engine steps, the host steps, reset is
asserted, or nothing happens (R123, R290). -/
theorem step_next {s t : State} (h : step s = .next t) :
    ∃ rest, (s.schedule = rest ∧ s.schedule = [] ∨ ∃ turn, s.schedule = turn :: rest) ∧
      ((s.busy = true ∧ engineStep { s with schedule := rest } = .next t) ∨
       hostTurn { s with schedule := rest } = .next t ∨
       (s.schedule = .reset :: rest ∧ t = applyReset { s with schedule := rest }) ∨
       (s.schedule = .engine :: rest ∧ s.busy = false ∧ t = { s with schedule := rest })) := by
  unfold step at h
  split at h
  · rename_i hs
    have he : s = { s with schedule := [] } := by rw [← hs]
    refine ⟨[], .inl ⟨hs, hs⟩, ?_⟩
    rw [← he]
    split at h
    · exact .inl ⟨‹_›, h⟩
    · exact .inr (.inl h)
  · rename_i rest hs
    exact ⟨rest, .inr ⟨_, hs⟩, .inr (.inl h)⟩
  · rename_i rest hs
    refine ⟨rest, .inr ⟨_, hs⟩, ?_⟩
    unfold engineTurn at h
    split at h
    · exact .inl ⟨‹_›, h⟩
    · exact .inr (.inr (.inr ⟨hs, by simpa using ‹¬ _ = true›, by simpa [eq_comm] using h⟩))
  · rename_i rest hs
    exact ⟨rest, .inr ⟨_, hs⟩, .inr (.inr (.inl ⟨hs, by simpa [eq_comm] using h⟩))⟩

end Sys2Proof.Machine
end

