-- ==== Sys2Proof/Laws/Trie.lean ====
section
/-! SUPPORT. The laws of the trie builder's operations (42_trie_builder.md R171, R172; 00_scope.md R11): the
queue, the least member, and one round of merge. -/

namespace Sys2Proof.Machine

@[simp] theorem push_node (x : Node) (b : Builder) : (push x b).node = b.node.setIfInBounds b.n x := rfl
@[simp] theorem push_inq (x : Node) (b : Builder) : (push x b).inq = b.inq.setIfInBounds b.n true := rfl
@[simp] theorem push_n (x : Node) (b : Builder) : (push x b).n = b.n + 1 := rfl
@[simp] theorem dequeue_node (i : Nat) (b : Builder) : (dequeue i b).node = b.node := rfl
@[simp] theorem dequeue_inq (i : Nat) (b : Builder) :
    (dequeue i b).inq = b.inq.setIfInBounds i false := rfl
@[simp] theorem dequeue_n (i : Nat) (b : Builder) : (dequeue i b).n = b.n := rfl

/-- The queue is the set of R52. -/
@[simp] theorem mem_queue {i : Nat} {b : Builder} : i ∈ queue b ↔ i < b.n ∧ b.inq[i]? = some true := by
  simp [queue]

/-- Taking node `i` out of the queue leaves the others (R172). -/
theorem mem_queue_dequeue {i j : Nat} {b : Builder} :
    j ∈ queue (dequeue i b) ↔ j ∈ queue b ∧ j ≠ i := by
  by_cases h : i = j
  · subst h
    simp [Vector.getElem?_setIfInBounds]
  · have h' : j ≠ i := fun e => h e.symm
    simp [h, h']

/-- Pushing a node queues it and keeps the others (R171, R172). -/
theorem mem_queue_push {x : Node} {j : Nat} {b : Builder} (h : b.n < 513) :
    j ∈ queue (push x b) ↔ j ∈ queue b ∨ j = b.n := by
  by_cases hj : b.n = j
  · subst hj
    simp [h]
  · have h' : j ≠ b.n := fun e => hj e.symm
    simp only [mem_queue, push_n, push_inq, Vector.getElem?_setIfInBounds, hj, h', if_false, or_false]
    constructor
    · rintro ⟨h1, h2⟩
      exact ⟨by omega, h2⟩
    · rintro ⟨h1, h2⟩
      exact ⟨by omega, h2⟩

theorem minBy_eq_none {lt : Nat → Nat → Bool} {l : List Nat} : minBy lt l = none ↔ l = [] := by
  cases l with
  | nil => simp [minBy]
  | cons i is =>
    simp only [minBy, reduceCtorEq, iff_false]
    split
    · simp
    · split <;> simp

theorem minBy_mem {lt : Nat → Nat → Bool} {l : List Nat} {i : Nat} (h : minBy lt l = some i) : i ∈ l := by
  induction l generalizing i with
  | nil => simp [minBy] at h
  | cons k ks ih =>
    simp only [minBy] at h
    split at h
    · cases h
      exact List.mem_cons_self
    next j hj =>
      split at h
      · cases h
        exact List.mem_cons_of_mem _ (ih hj)
      · cases h
        exact List.mem_cons_self

/-- min_by (R11): where `lt` is a strict total order of the members, the answer precedes every other one. -/
theorem minBy_least {lt : Nat → Nat → Bool} {l : List Nat} {i : Nat}
    (total : ∀ a ∈ l, ∀ b ∈ l, a ≠ b → lt a b = true ∨ lt b a = true)
    (trans : ∀ a ∈ l, ∀ b ∈ l, ∀ c ∈ l, lt a b = true → lt b c = true → lt a c = true)
    (h : minBy lt l = some i) : ∀ j ∈ l, j ≠ i → lt i j = true := by
  induction l generalizing i with
  | nil => simp
  | cons k ks ih =>
    have total' : ∀ a ∈ ks, ∀ b ∈ ks, a ≠ b → lt a b = true ∨ lt b a = true :=
      fun a ha b hb => total a (List.mem_cons_of_mem _ ha) b (List.mem_cons_of_mem _ hb)
    have trans' : ∀ a ∈ ks, ∀ b ∈ ks, ∀ c ∈ ks, lt a b = true → lt b c = true → lt a c = true :=
      fun a ha b hb c hc =>
        trans a (List.mem_cons_of_mem _ ha) b (List.mem_cons_of_mem _ hb) c (List.mem_cons_of_mem _ hc)
    simp only [minBy] at h
    split at h
    next hn =>
      cases h
      rw [minBy_eq_none] at hn
      subst hn
      intro j hj hne
      exact absurd (List.mem_singleton.mp hj) hne
    next m hm =>
      have hmem := minBy_mem hm
      have hleast := ih total' trans' hm
      split at h
      next hlt =>
        cases h
        intro j hj hne
        rcases List.mem_cons.mp hj with rfl | hj
        · exact hlt
        · exact hleast j hj hne
      next hlt =>
        cases h
        intro j hj hne
        rcases List.mem_cons.mp hj with rfl | hj
        · exact absurd rfl hne
        · have hkm : m ≠ k → lt k m = true := fun e =>
            (total k List.mem_cons_self m (List.mem_cons_of_mem _ hmem) (Ne.symm e)).resolve_right hlt
          by_cases hjm : j = m
          · subst hjm
            exact hkm hne
          · have hmj := hleast j hj hjm
            by_cases e : m = k
            · subst e
              exact hmj
            · exact trans k List.mem_cons_self m (List.mem_cons_of_mem _ hmem) j
                (List.mem_cons_of_mem _ hj) (hkm e) hmj

/-- The least queued node is queued (R172). -/
theorem least_mem {cp : Byte} {b : Builder} {i : Nat} (h : least cp b = some i) : i ∈ queue b := minBy_mem h

theorem least_eq_none {cp : Byte} {b : Builder} : least cp b = none ↔ queue b = [] := minBy_eq_none

/-- One round of merge() (R172): with two nodes to take, their parent is queued in their place; else the
builder stays. -/
theorem merge_succ (cp : Byte) (k : Nat) (b : Builder) :
    (∃ x y, least cp b = some x ∧ least cp (dequeue x b) = some y ∧
      merge cp (k + 1) b = merge cp k (push (parentOf b.node x y) (dequeue y (dequeue x b)))) ∨
    ((∀ x, least cp b = some x → least cp (dequeue x b) = none) ∧ merge cp (k + 1) b = b) := by
  simp only [merge]
  split
  next h => exact .inr ⟨fun x hx => by simp [h] at hx, rfl⟩
  next x hx =>
    split
    next hy => exact .inr ⟨fun x' hx' => by rw [hx] at hx'; cases hx'; exact hy, rfl⟩
    next y hy => exact .inl ⟨x, y, hx, hy, rfl⟩

/-- The weight of a node of the arena (R51). -/
theorem weightAt_eq {node : Vector Node 513} {i : Nat} {x : Node} (h : node[i]? = some x) :
    weightAt node i = nodeWeight x := by
  simp [weightAt, h]

end Sys2Proof.Machine
end

