-- ==== Sys2Proof/Tests/Slice0.lean ====
section
/-! SUPPORT. Small tests, with the results that spec/95_test_vectors.md and the rules give, and a witness
for the hypotheses of each statement. -/

namespace Sys2Proof.Tests

-- One theorem at a time: each closed check waits for the kernel, and a waiting thread holds its stack.
set_option Elab.async false

open Sys2Proof Sys2Proof.Machine

/-! ## Helpers -/

/-- An outcome is a next state with a property. -/
def nextThat (o : Host.Outcome State Fault Refusal) (P : State → Bool) : Bool :=
  match o with
  | .next t => P t
  | .fault _ => false
  | .refused _ => false

/-- An outcome is this fault. -/
def faultIs (o : Host.Outcome State Fault Refusal) (f : Fault) : Bool :=
  match o with
  | .next _ => false
  | .fault g => g == f
  | .refused _ => false

/-- An outcome is this refusal. -/
def refusalIs (o : Host.Outcome State Fault Refusal) (r : Refusal) : Bool :=
  match o with
  | .next _ => false
  | .fault _ => false
  | .refused q => q == r

theorem nextThat_spec {o : Host.Outcome State Fault Refusal} {P : State → Bool}
    (h : nextThat o P = true) : ∃ t, o = .next t ∧ P t = true := by
  cases o with
  | next t => exact ⟨t, rfl, h⟩
  | fault f => cases h
  | refused r => cases h

/-- Latched arguments: source address and length, destination address and capacity. -/
def latched (a n d c : Word) (s : State) : State :=
  { s with latch := { srcAddr := a, srcLen := n, dstAddr := d, dstCap := c } }

/-- DMEM with `bs` written at offset `a`. -/
def withBytes (a : Nat) (bs : List Byte) (s : State) : State := { s with mem := s.mem.writeBytes a bs }

/-- A frequency table with these counts and zeros elsewhere. -/
def counts (cs : List (Nat × Word)) : Vector Word 256 :=
  cs.foldl (fun v c => v.setIfInBounds c.1 c.2) (Vector.replicate 256 0)

/-- An arena that begins with these nodes. -/
def arena (xs : List Node) : Vector Node 513 :=
  xs.zipIdx.foldl (fun v x => v.setIfInBounds x.2 x.1) (Vector.replicate 513 (.leaf 0 0))

/-- A codebook with these codewords. -/
def book (cs : List (Nat × Bits)) : Vector Bits 257 :=
  cs.foldl (fun v c => v.setIfInBounds c.1 c.2) (Vector.replicate 257 [])

/-- The counts of the corpus "aaab" before BUILD (T-F1). -/
def countedAaab : State := { State.reset with freq := counts [(0x61, 3), (0x62, 1)], total := 4 }

/-- The nodes of T-B1. -/
def nodesAaab : List Node :=
  [.leaf 3 0x61, .leaf 1 0x62, .leaf 1 256, .internal 2 2 1, .internal 5 3 0]

/-- The codec built from "aaab" (T-S1, T-B1). -/
def codecAaab : State :=
  { countedAaab with
    node := arena nodesAaab
    nodeCount := 5
    root := 4
    cb := book [(0x61, [true]), (0x62, [false, true]), (256, [false, false])]
    built := true }

/-- The codec built from the empty corpus (T-B2, T-K6). -/
def codecEmpty : State :=
  { State.reset with
    node := arena [.leaf 1 256]
    nodeCount := 1
    root := 0
    cb := book [(256, [false])]
    built := true }

/-- "ab" at 0x100, destination 0x200 (T-E2). -/
def encodeAb : State := latched 0x100 2 0x200 16 (withBytes 0x100 [0x61, 0x62] codecAaab)

/-- The stream A0 at 0x300, destination 0x400 (T-D1). -/
def decodeA0 : State := latched 0x300 1 0x400 16 (withBytes 0x300 [0xA0] codecAaab)

/-- A pending command. -/
def pending (w : Word) (s : State) : State := { s with lCmd := w, busy := true, done := false }

/-- The host's next transaction and its turn. -/
def hostDoes (t : BusTx) (s : State) : State := { s with host := [.bus t], schedule := [.host] }

/-! ## Well-formedness and decoding -/

theorem test_wf_refuses_cbLookup_1024 : ¬ (Instr.cbLookup 1024).wf := by decide
theorem test_wf_refuses_nodeRead_1024 : ¬ (Instr.nodeRead 1024).wf := by decide
theorem test_wf_refuses_freqRead_1024 : ¬ (Instr.freqRead 1024).wf := by decide
theorem test_wfCheck_refuses_1024 :
    (Instr.cbLookup 1024).wfCheck = false ∧ (Instr.nodeRead 1024).wfCheck = false ∧
    (Instr.freqRead 1024).wfCheck = false := by decide
theorem test_wf_accepts_1023 :
    (Instr.cbLookup 1023).wf ∧ (Instr.nodeRead 1023).wf ∧ (Instr.freqRead 1023).wf ∧
    (Instr.nop).wf := by decide

/-- R110, R111: the fields written out bit by bit, RSV_HI, IDX, RSV_LO, OP. -/
theorem test_decode_bits_cbLookup :
    decode 0b000000_0100000000_00000000_00000110 = .ok (.cbLookup 256) := by decide
theorem test_decode_bits_nodeRead :
    decode 0b000000_1000000001_00000000_00000111 = .ok (.nodeRead 513) := by decide
theorem test_decode_bits_freqRead :
    decode 0b000000_0001100001_00000000_00001000 = .ok (.freqRead 0x61) := by decide
theorem test_decode_bits_build :
    decode 0b000000_0000000000_00000000_00000011 = .ok .build := by decide
theorem test_decode_bits_decode :
    decode 0b000000_0000000000_00000000_00000101 = .ok .decode := by decide
theorem test_encode_words :
    encode .nop = 0 ∧ encode .clear = 1 ∧ encode .count = 2 ∧ encode .build = 3 ∧ encode .encode = 4 ∧
    encode .decode = 5 ∧ encode (.cbLookup 0x7A) = 0x007A0006 ∧ encode (.nodeRead 5) = 0x00050007 ∧
    encode (.freqRead 256) = 0x01000008 := by decide
theorem test_decodeTableWord :
    decodeTableWord 32 0x00610008 = some (.freqRead 0x61) ∧ decodeTableWord 8 0x04 = some .encode ∧
    decodeTableWord 32 9 = none := by decide
/-- A word stored for the host's probe runs as the next step (T-C1, T-C3). -/
theorem test_withFetchWord_runs :
    nextThat (step (State.reset.withFetchWord 32 0)) (fun t => regValue .status t == 0x0002) = true ∧
    nextThat (step (State.reset.withFetchWord 32 0xFF)) (fun t => regValue .status t == 0x0902) = true := by
  decide +kernel

/-! ## Commands -/

/-- T-N1. -/
theorem test_nop_status :
    nextThat (exec .nop State.reset) (fun t => regValue .status t == 0x0002) = true := by decide +kernel

/-- T-N2. -/
theorem test_clear_keeps_results_and_dmem :
    nextThat (exec .clear { encodeAb with resultLen := 1 }) (fun t =>
      regValue .status t == 0x0002 && t.resultLen == 1 && t.total == 0 && t.nodeCount == 0 &&
      t.mem.read 0x101 == some 0x62) = true := by decide +kernel

/-- T-F1. -/
theorem test_count_aaab :
    nextThat (exec .count (latched 0x10 4 0 0 (withBytes 0x10 [0x61, 0x61, 0x61, 0x62] State.reset)))
      (fun t => t.err == 0 && t.freq[0x61] == 3 && t.freq[0x62] == 1 && t.freq[0x63] == 0 &&
        t.total == 4 && t.resultLen == 4) = true := by decide +kernel

/-- T-F3 and T-F6. -/
theorem test_count_range_edges :
    nextThat (exec .count (latched 0x10000 0 0 0 State.reset)) (fun t => t.err == 0) = true ∧
    nextThat (exec .count (latched 0xFFFFFFFF 2 0 0 State.reset)) (fun t => t.err == 6) = true := by
  decide +kernel

/-- T-B1. -/
theorem test_build_aaab :
    nextThat (exec .build countedAaab) (fun t =>
      (List.range 5).map (fun i => t.node[i]?) == nodesAaab.map some &&
      t.cb[0x61] == [true] && t.cb[0x62] == [false, true] && t.cb[256] == [false, false] && t.root == 4) = true := by decide +kernel

/-- T-B5: a leaf before an internal node of the same weight. -/
theorem test_build_aabc_tie :
    nextThat (exec .build { State.reset with freq := counts [(0x61, 2), (0x62, 1), (0x63, 1)] })
      (fun t => (t.node[5]?).map nodeInfo == some 0x80000002 && t.root == 6) = true := by decide +kernel

/-- T-B1, the rows of nodes 3 and 1. -/
theorem test_nodeRead_aaab :
    nextThat (exec (.nodeRead 3) codecAaab) (fun t => t.res0 == 2 && t.res1 == 0x80010002) = true ∧
    nextThat (exec (.nodeRead 1) codecAaab) (fun t => t.res0 == 1 && t.res1 == 0x00000062) = true := by
  decide +kernel

/-- T-B1: NODE_READ 5 is BAD_INDEX and leaves RES0. -/
theorem test_nodeRead_bad_index :
    nextThat (exec (.nodeRead 5) { codecAaab with res0 := 7 }) (fun t => t.err == 7 && t.res0 == 7) = true := by
  decide +kernel

/-- T-K2 and T-K4. -/
theorem test_cbLookup_aaab :
    nextThat (exec (.cbLookup 0x62) codecAaab) (fun t =>
      t.res0 == 2 && t.cwbits[0] == 0x40000000 && t.cwbits[1] == 0) = true ∧
    nextThat (exec (.cbLookup 0x7A) codecAaab) (fun t => t.err == 0 && t.res0 == 0) = true := by
  decide +kernel

/-- T-K9: a codeword of 34 ones fills CWBITS0 and two bits of CWBITS1. -/
theorem test_cbLookup_long :
    nextThat (exec (.cbLookup 0x41) { codecAaab with cb := book [(0x41, List.replicate 34 true)] }) (fun t =>
      t.res0 == 34 && t.cwbits[0] == 0xFFFFFFFF && t.cwbits[1] == 0xC0000000 && t.cwbits[2] == 0) = true := by
  decide +kernel

/-- T-F10 and T-F12. -/
theorem test_freqRead :
    nextThat (exec (.freqRead 0x61) codecAaab) (fun t => t.res0 == 3 && t.res1 == 0) = true ∧
    nextThat (exec (.freqRead 256) codecAaab) (fun t => t.err == 7) = true := by decide +kernel

/-- T-E2: one byte A0, and the byte after it stays unwritten. -/
theorem test_encode_ab :
    nextThat (exec .encode encodeAb) (fun t => t.mem.read 0x200 == some 0xA0 && t.mem.read 0x201 == none &&
      t.resultLen == 1 && t.resultBits == 5) = true := by decide +kernel

/-- T-E16: the unknown symbol is reported before the capacity. -/
theorem test_encode_unknown_first :
    nextThat (exec .encode (latched 0x100 3 0x200 0 (withBytes 0x100 [0x7A, 0x61, 0x62] codecAaab)))
      (fun t => t.err == 1 && t.errPos == 0) = true := by decide +kernel

/-- T-D2: the byte after the sentinel is not read, written or not. -/
theorem test_decode_ab :
    nextThat (exec .decode (latched 0x300 2 0x400 16 decodeA0)) (fun t =>
      t.mem.readBytes 0x400 2 == some [0x61, 0x62] && t.resultLen == 2 && t.resultBits == 5) = true := by
  decide +kernel

/-- T-D13. -/
theorem test_decode_truncated :
    nextThat (exec .decode (latched 0x300 1 0x400 16 (withBytes 0x300 [0xFF] codecAaab))) (fun t =>
      t.err == 2 && t.errPos == 1 && t.resultLen == 0) = true := by decide +kernel

/-! ## The handshake and the bus -/

/-- T-I8. -/
theorem test_cmd_write_while_busy :
    nextThat (busWrite 0x14 4 1 (pending 0 State.reset)) (fun t => t.ovr && t.lCmd == 0 && t.busy) = true := by
  decide +kernel

/-- T-I10. -/
theorem test_status_write_one_to_clear :
    nextThat (busWrite 0x10 4 2 { State.reset with ovr := true, done := true }) (fun t =>
      t.ovr && !t.done) = true := by decide +kernel

/-- T-M1: PARAMS at the defaults. -/
theorem test_params : regValue .params State.reset = 0x04201008 := by decide

/-- T-M2. -/
theorem test_little_endian :
    nextThat (busRead 0x10002 2 (withBytes 0 [0x44, 0x33, 0x22, 0x11] State.reset)) (fun t =>
      t.readData == some 0x1122) = true := by decide +kernel

/-- T-M8, T-M10, T-M11, T-M12. -/
theorem test_bus_faults :
    faultIs (busRead 0x10 1 State.reset) .slaveError = true ∧
    faultIs (busWrite 0x10001 2 0 State.reset) .slaveError = true ∧
    faultIs (busRead 0x20000 4 State.reset) .decodeError = true ∧
    faultIs (busRead 0x10000 1 State.reset) .unwrittenByte = true := by decide +kernel

/-- R122: RUN CLEAR expands to a write of CMD and a WAIT. -/
theorem test_run_expands :
    expand Params.default (.run .clear) = [.bus (.write 0x14 4 1), .wait] := by decide

/-! ## The sample codecs meet the invariants -/

theorem nodes_aaab : ∀ i < 5, codecAaab.node[i]? = nodesAaab[i]? := by decide +kernel

theorem trieOk_aaab : TrieOk codecAaab.node 5 4 where
  size := by decide
  rootLast := by decide
  leaves := by
    intro i hi w sym h
    rw [nodes_aaab i hi] at h
    interval_cases i <;> simp [nodesAaab] at h <;> (obtain ⟨rfl, rfl⟩ := h; decide)
  internals := by
    intro i hi w left right h
    rw [nodes_aaab i hi] at h
    interval_cases i <;> simp [nodesAaab] at h <;> (obtain ⟨rfl, rfl, rfl⟩ := h; decide +kernel)
  oneParent := by decide +kernel
  distinct := by decide +kernel
  sentinel := by decide +kernel

theorem codeword_aaab (k : Nat) (h : k < 257) : codecAaab.cb[k] =
    if 256 = k then [false, false] else if 0x62 = k then [false, true] else if 0x61 = k then [true] else [] := by
  simp [codecAaab, book, Vector.getElem_setIfInBounds]

theorem codebookOk_aaab : CodebookOk codecAaab.node 5 4 codecAaab.cb where
  oneLeaf := by decide +kernel
  paths := by
    intro _ k h hk
    rw [codeword_aaab k h] at hk ⊢
    split at hk
    · subst k; decide +kernel
    · split at hk
      · subst k; decide +kernel
      · split at hk
        · subst k; decide +kernel
        · exact absurd rfl hk
  present := by
    intro i hi k h
    simp only [leafSym, nodes_aaab i hi] at h
    interval_cases i <;> simp [nodesAaab] at h <;> (subst h; decide +kernel)
  short := by
    intro k h
    rw [codeword_aaab k h]
    split
    · decide
    · split
      · decide
      · split <;> decide

theorem codecOk_aaab : CodecOk codecAaab where
  unbuilt := by decide
  trie := fun _ => trieOk_aaab
  codebook := fun _ => codebookOk_aaab

theorem nodes_empty : codecEmpty.node[0]? = some (.leaf 1 256) := by decide +kernel

theorem trieOk_empty : TrieOk codecEmpty.node 1 0 where
  size := by decide
  rootLast := by decide
  leaves := by
    intro i hi w sym h
    obtain rfl : i = 0 := by omega
    rw [nodes_empty] at h
    simp at h
    obtain ⟨rfl, rfl⟩ := h
    decide
  internals := by
    intro i hi w left right h
    obtain rfl : i = 0 := by omega
    rw [nodes_empty] at h
    simp at h
  oneParent := by decide
  distinct := by decide +kernel
  sentinel := by decide +kernel

theorem codeword_empty (k : Nat) (h : k < 257) :
    codecEmpty.cb[k] = if 256 = k then [false] else [] := by
  simp [codecEmpty, book, Vector.getElem_setIfInBounds]

theorem codebookOk_empty : CodebookOk codecEmpty.node 1 0 codecEmpty.cb where
  oneLeaf := fun _ => rfl
  paths := by decide +kernel
  present := by
    intro i hi k h
    obtain rfl : i = 0 := by omega
    simp only [leafSym, nodes_empty] at h
    simp at h
    subst h
    decide +kernel
  short := by
    intro k h
    rw [codeword_empty k h]
    split <;> decide

theorem codecOk_empty : CodecOk codecEmpty where
  unbuilt := by decide
  trie := fun _ => trieOk_empty
  codebook := fun _ => codebookOk_empty

/-- The invariants of the codec do not depend on DMEM, the latches or the flags. -/
theorem codecOk_of_codec {s t : State} (h : CodecOk s) (hb : t.built = s.built) (hn : t.node = s.node)
    (hc : t.nodeCount = s.nodeCount) (hr : t.root = s.root) (hk : t.cb = s.cb) : CodecOk t where
  unbuilt := by rw [hb, hc, hr, hk]; exact h.unbuilt
  trie := by rw [hb, hc, hr, hn]; exact h.trie
  codebook := by rw [hb, hc, hr, hn, hk]; exact h.codebook

theorem codecOk_encodeAb : CodecOk encodeAb := codecOk_of_codec codecOk_aaab rfl rfl rfl rfl rfl

theorem codecOk_decodeA0 : CodecOk decodeA0 := codecOk_of_codec codecOk_aaab rfl rfl rfl rfl rfl

theorem codecOk_reset : CodecOk State.reset where
  unbuilt := fun _ => ⟨rfl, rfl, rfl⟩
  trie := fun h => absurd h (by decide)
  codebook := fun h => absurd h (by decide)

theorem countsOk_aaab : CountsOk countedAaab := ⟨by decide +kernel, by decide⟩

theorem handshakeOk_pending : HandshakeOk (pending 0 State.reset) := ⟨by decide, by decide⟩

theorem memOk_encodeAb : MemOk encodeAb := ⟨by decide +kernel, by decide +kernel⟩


/-! ## Witnesses: for each statement with hypotheses, values that meet them, one for each clause -/

theorem witness_illegal_words :
    illegalWord (pending 0x04000000 State.reset).lCmd.toNat ∧ illegalWord (pending 0x00000100 State.reset).lCmd.toNat ∧
    illegalWord (pending 0x00000009 State.reset).lCmd.toNat ∧ illegalWord (pending 0x00010005 State.reset).lCmd.toNat := by
  decide

theorem witness_encode_then_decode : (Instr.cbLookup 1023).wf ∧ (Instr.decode).wf := by decide

theorem witness_decode_then_encode : decode 0x03FF0006 = .ok (.cbLookup 1023) := by decide

theorem witness_step_engine_turn :
    let s := { pending 0x03FF0006 State.reset with schedule := [.engine] }
    s.busy = true ∧ decode s.lCmd = .ok (.cbLookup 1023) ∧ s.schedule = .engine :: [] := by decide

theorem witness_step_no_turn_left :
    let s := pending 3 State.reset
    s.busy = true ∧ decode s.lCmd = .ok .build ∧ s.schedule = [] := by decide

theorem witness_step_illegal_word :
    (let s := { pending 0x04000000 State.reset with schedule := [.engine, .host] }
     s.busy = true ∧ illegalWord s.lCmd.toNat ∧ s.schedule = .engine :: [.host]) ∧
    (let s := pending 0x00010005 State.reset
     s.busy = true ∧ illegalWord s.lCmd.toNat ∧ s.schedule = []) := by decide

theorem witness_step_idle_engine :
    let s := { State.reset with schedule := [.engine] }
    s.busy = false ∧ s.schedule = .engine :: [] := by decide

theorem witness_step_host_turn :
    let s := hostDoes (.read 0 4) State.reset
    s.schedule = .host :: [] ∧ s.host = .bus (.read 0 4) :: [] := by decide

theorem witness_step_host_no_turn_left :
    let s := { State.reset with host := [.bus (.read 0 4)] }
    s.busy = false ∧ s.schedule = [] ∧ s.host = .bus (.read 0 4) :: [] := by decide

theorem witness_wait_polls :
    let s := { pending 0x01000008 State.reset with host := [.wait], schedule := [.host, .host] }
    s.busy = true ∧ decode s.lCmd = .ok (.freqRead 256) ∧ s.host = .wait :: [] ∧
    s.schedule = List.replicate 2 .host := by decide

theorem witness_wait_no_poll :
    let s := { pending 0 State.reset with host := [.wait] }
    s.busy = true ∧ decode s.lCmd = .ok .nop ∧ s.host = .wait :: [] ∧ s.schedule = List.replicate 0 .host := by
  decide

/-- A machine whose host waits for a pending command, two polls before the engine's turn. -/
def waiting (w : Word) (s : State) : State :=
  { pending w s with host := [.wait], schedule := [.host, .host] }

theorem witness_wait_illegal_word :
    let s := waiting 9 codecAaab
    s.busy = true ∧ illegalWord s.lCmd.toNat ∧ s.host = .wait :: [] ∧
    s.schedule = List.replicate 2 .host := by decide

theorem witness_wait_nodeRead :
    let s := waiting 0x03FF0007 codecAaab
    s.busy = true ∧ decode s.lCmd = .ok (.nodeRead 1023) ∧ CodecOk s ∧ s.host = .wait :: [] ∧
    s.schedule = List.replicate 2 .host := by
  exact ⟨rfl, by decide, codecOk_of_codec codecOk_aaab rfl rfl rfl rfl rfl, rfl, rfl⟩

theorem witness_wait_count :
    let s := waiting 2 (latched 0 2 0 0 (withBytes 0 [1, 2] State.reset))
    s.busy = true ∧ decode s.lCmd = .ok .count ∧ CodecOk s ∧
    (∀ k < srcLen s, s.mem.read (srcAddr s + k) ≠ none) ∧ s.host = .wait :: [] ∧
    s.schedule = List.replicate 2 .host := by
  exact ⟨rfl, by decide, codecOk_of_codec codecOk_reset rfl rfl rfl rfl rfl, by decide +kernel, rfl, rfl⟩

theorem witness_wait_encode :
    let s := waiting 4 encodeAb
    s.busy = true ∧ decode s.lCmd = .ok .encode ∧ CodecOk s ∧
    (∀ k < srcLen s, s.mem.read (srcAddr s + k) ≠ none) ∧ s.host = .wait :: [] ∧
    s.schedule = List.replicate 2 .host := by
  exact ⟨rfl, by decide, codecOk_of_codec codecOk_aaab rfl rfl rfl rfl rfl, by decide +kernel, rfl, rfl⟩

theorem witness_wait_decode :
    let s := waiting 5 decodeA0
    s.busy = true ∧ decode s.lCmd = .ok .decode ∧ CodecOk s ∧
    (∀ k < srcLen s, s.mem.read (srcAddr s + k) ≠ none) ∧ s.host = .wait :: [] ∧
    s.schedule = List.replicate 2 .host := by
  exact ⟨rfl, by decide, codecOk_of_codec codecOk_aaab rfl rfl rfl rfl rfl, by decide +kernel, rfl, rfl⟩

theorem witness_wait_poll :
    (let s := waiting 3 State.reset
     s.busy = true ∧ s.host = .wait :: [] ∧ s.schedule = .host :: [.host]) ∧
    (let s := { State.reset with host := [.wait] }
     s.busy = false ∧ s.host = .wait :: [] ∧ s.schedule = []) := by decide

theorem witness_idle : State.reset.busy = false := by decide

theorem witness_busy : (pending 0 State.reset).busy = true := by decide

theorem witness_overrun_kept :
    let s := { pending 0 State.reset with ovr := true }
    s.ovr = true ∧ ∃ t, step s = .next t ∧ t.ovr = true := by
  exact ⟨rfl, nextThat_spec (by decide +kernel)⟩

theorem witness_overrun_cleared :
    let s := hostDoes (.write 0x10 4 8) { State.reset with ovr := true }
    s.ovr = true ∧ ∃ t, step s = .next t ∧ (!t.ovr && t.host == []) = true := by
  exact ⟨rfl, nextThat_spec (by decide +kernel)⟩

theorem witness_completion_nop : ∃ t, exec .nop State.reset = .next t ∧ (t.err == 0) = true :=
  nextThat_spec (by decide +kernel)
theorem witness_completion_clear : ∃ t, exec .clear codecAaab = .next t ∧ (t.err == 0) = true :=
  nextThat_spec (by decide +kernel)
theorem witness_completion_count : ∃ t, exec .count State.reset = .next t ∧ (t.err == 0) = true :=
  nextThat_spec (by decide +kernel)
theorem witness_completion_build : ∃ t, exec .build codecAaab = .next t ∧ (t.err == 4) = true :=
  nextThat_spec (by decide +kernel)
theorem witness_completion_encode : ∃ t, exec .encode encodeAb = .next t ∧ (t.err == 0) = true :=
  nextThat_spec (by decide +kernel)
theorem witness_completion_decode : ∃ t, exec .decode decodeA0 = .next t ∧ (t.err == 0) = true :=
  nextThat_spec (by decide +kernel)
theorem witness_completion_cbLookup : ∃ t, exec (.cbLookup 256) codecAaab = .next t ∧ (t.err == 0) = true :=
  nextThat_spec (by decide +kernel)
theorem witness_completion_nodeRead : ∃ t, exec (.nodeRead 4) codecAaab = .next t ∧ (t.err == 0) = true :=
  nextThat_spec (by decide +kernel)
theorem witness_completion_freqRead : ∃ t, exec (.freqRead 255) codecAaab = .next t ∧ (t.err == 0) = true :=
  nextThat_spec (by decide +kernel)

theorem witness_engineStep : ∃ t, engineStep (pending 9 State.reset) = .next t ∧ (t.err == 9) = true :=
  nextThat_spec (by decide +kernel)

theorem witness_irq_rises_at_completion :
    let s := pending 0 { State.reset with ie := true }
    irq s = false ∧ ∃ t, step s = .next t ∧ irq t = true := by
  exact ⟨rfl, nextThat_spec (by decide +kernel)⟩

theorem witness_irq_rises_at_ctrl_write :
    let s := hostDoes (.write 0xC 4 1) { State.reset with done := true }
    irq s = false ∧ ∃ t, step s = .next t ∧ (irq t && t.host == []) = true := by
  exact ⟨rfl, nextThat_spec (by decide +kernel)⟩

theorem witness_register_read :
    State.reset.busy = false ∧ (0x064, State.reset.cwbits[7]) ∈ registerMap State.reset ∧
    (0x000, 0x48554646) ∈ registerMap State.reset := by decide +kernel

theorem witness_busy_reads :
    HandshakeOk (pending 0 State.reset) ∧ (pending 0 State.reset).busy = true ∧
    0x028 ∈ unspecifiedOffsets ∧ 0x064 ∈ unspecifiedOffsets ∧
    (0x024, (0 : Word)) ∈ registerMap (pending 0 State.reset) ∧ 0x024 ∉ unspecifiedOffsets := by
  exact ⟨handshakeOk_pending, by decide, by decide, by decide, by decide +kernel, by decide⟩

theorem witness_bus_read : ∃ t, busRead 0x64 4 State.reset = .next t ∧ (t.readData == some 0) = true :=
  nextThat_spec (by decide +kernel)

theorem witness_ignored_writes :
    (∀ o ∈ [0x000, 0x028, 0x064, 0x068, 0xFFFC], o < 0x10000 ∧ o % 4 = 0 ∧ o ∉ writableOffsets) ∧
    (∀ o ∈ [0x068, 0xFFFC], 0x068 ≤ o ∧ o < 0x10000 ∧ o % 4 = 0) := by decide

theorem witness_stopped_register_accesses :
    0xFFFF < 0x10000 ∧ ((4 : Nat) ≠ 4 ∨ 0xFFFF % 4 ≠ 0) ∧ ((2 : Nat) ≠ 4 ∨ 0xFFFC % 4 ≠ 0) := by decide

theorem witness_stopped_dmem_accesses :
    let p := Params.default
    (0xFFFF < dmemSize p ∧ ¬ (((2 : Nat) = 1 ∨ (2 : Nat) = 2 ∨ (2 : Nat) = 4) ∧ 0xFFFF % 2 = 0)) ∧
    (0 < dmemSize p ∧ ¬ (((8 : Nat) = 1 ∨ (8 : Nat) = 2 ∨ (8 : Nat) = 4) ∧ 0 % 8 = 0)) ∧
    (0xFFFC < dmemSize p ∧ (((4 : Nat) = 1 ∨ (4 : Nat) = 2 ∨ (4 : Nat) = 4) ∧ 0xFFFC % 4 = 0) ∧
      (pending 0 State.reset).busy = true) := by decide +kernel

theorem witness_stopped_unmapped_accesses :
    let p := Params.default
    (0x10000 + dmemSize p ≤ 0x20000 ∧ 0x20000 < 2 ^ 24) ∧ (0x10000 + dmemSize p ≤ 0xFFFFFF ∧ 0xFFFFFF < 2 ^ 24) ∧
    busBase p + 2 ^ 24 ≤ 0x1000000 ∧ 0xFFFFFF < busBase { p with baseUnit := 1 } := by decide +kernel

theorem witness_dmem_write :
    State.reset.busy = false ∧ 0xFFFC < dmemSize State.reset.params ∧ 0xFFFF < dmemSize State.reset.params ∧
    0xFFFC % 4 = 0 ∧ 0xFFFE % 2 = 0 ∧ 0xFFFF % 1 = 0 := by decide +kernel

theorem witness_dmem_read :
    let s := withBytes 0xFFFC [1, 2, 3, 4] State.reset
    let bs : List Byte := [1, 2, 3, 4]
    s.busy = false ∧ 0xFFFC < dmemSize s.params ∧ bs.length = 4 ∧ 0xFFFC % bs.length = 0 ∧
    holdsBytes s.mem 0xFFFC bs := by decide +kernel

theorem witness_unwritten_host_read :
    let s := withBytes 0 [1] State.reset
    s.busy = false ∧ 0 < dmemSize s.params ∧ 0 % 2 = 0 ∧ 1 < 2 ∧ s.mem.read (0 + 1) = none := by decide +kernel

theorem witness_unwritten_count :
    let s := latched 0 2 0 0 (withBytes 0 [1] State.reset)
    s.built = false ∧ srcOk s ∧ s.total.toNat + srcLen s ≤ Config.totalMax ∧ 1 < srcLen s ∧
    s.mem.read (srcAddr s + 1) = none := by decide +kernel

theorem witness_unwritten_encode :
    let s := latched 0x100 3 0x200 16 encodeAb
    s.built = true ∧ rangesOk s ∧ encodable s.cb [0x61, 0x62] ∧ holdsBytes s.mem (srcAddr s) [0x61, 0x62] ∧
    [(0x61 : Byte), 0x62].length < srcLen s ∧ s.mem.read (srcAddr s + [(0x61 : Byte), 0x62].length) = none := by
  decide +kernel

theorem witness_unwritten_decode :
    let s := latched 0x300 2 0x400 16 (withBytes 0x300 [0xFE] codecAaab)
    let msg : List Byte := List.replicate 7 0x61
    CodecOk s ∧ s.built = true ∧ rangesOk s ∧ encodable s.cb msg ∧
    holdsBits s.mem (srcAddr s) (codeBits s.cb msg ++ [false]) ∧
    (codeBits s.cb msg ++ [false]).length = 8 * 1 ∧ follow s.node s.root.toNat [false] = some 3 ∧
    leafSym s.node 3 = none ∧ 1 < srcLen s ∧ s.mem.read (srcAddr s + 1) = none := by
  exact ⟨codecOk_of_codec codecOk_aaab rfl rfl rfl rfl rfl, by decide +kernel⟩

theorem witness_count :
    let s := latched 0x10 4 0 0 (withBytes 0x10 [0x61, 0x61, 0x61, 0x62] State.reset)
    let bs : List Byte := [0x61, 0x61, 0x61, 0x62]
    s.built = false ∧ srcOk s ∧ s.total.toNat + srcLen s ≤ Config.totalMax ∧ bs.length = srcLen s ∧
    holdsBytes s.mem (srcAddr s) bs := by decide +kernel

theorem witness_count_empty_at_the_end :
    let s := latched 0x10000 0 0 0 { State.reset with total := 0xFFFFFFFE }
    s.built = false ∧ srcOk s ∧ s.total.toNat + srcLen s ≤ Config.totalMax ∧ ([] : List Byte).length = srcLen s ∧
    holdsBytes s.mem (srcAddr s) [] := by decide +kernel

theorem witness_count_refused :
    codecAaab.built = true ∧
    (let s := latched 0x10001 0 0 0 State.reset
     s.built = false ∧ dmemSize s.params < srcAddr s + srcLen s) ∧
    (let s := latched 0xFFFF 1 0 0 { State.reset with total := 0xFFFFFFFE }
     s.built = false ∧ srcAddr s + srcLen s ≤ dmemSize s.params ∧ 0xFFFFFFFE < s.total.toNat + srcLen s) := by
  decide +kernel

theorem witness_count_in_pieces :
    let s := withBytes 0xFFFE [0x61, 0x62] State.reset
    ∃ t, exec .count (latched 0xFFFE 1 0 0 s) = .next t ∧
      (t.err == 0 && nextThat (exec .count (latched (0xFFFE + 1) 1 0 0 t)) (fun u => u.err == 0)) = true :=
  nextThat_spec (by decide +kernel)

theorem witness_freqRead_edges : 255 < 256 ∧ 256 ≤ 256 := by decide

theorem witness_counts_step :
    CountsOk countedAaab ∧ ∃ t, step { countedAaab with host := [.bus (.read 0 4)] } = .next t ∧ (!t.busy) = true := by
  exact ⟨countsOk_aaab, nextThat_spec (by decide +kernel)⟩

theorem witness_counts_command :
    CountsOk (pending 2 countedAaab) ∧ ∃ t, step (pending 2 countedAaab) = .next t ∧ t.done = true := by
  exact ⟨⟨countsOk_aaab.sum, countsOk_aaab.bound⟩, nextThat_spec (by decide +kernel)⟩

theorem witness_unbuilt_and_built : countedAaab.built = false ∧ codecAaab.built = true := by decide

theorem witness_seed_leaves :
    let s := { State.reset with freq := counts [(0, 1), (255, 2)] }
    s.built = false ∧ s.freq[0] ≠ 0 ∧ s.freq[255] ≠ 0 := by decide +kernel

theorem witness_build_merges :
    countedAaab.built = false ∧ nextThat (exec .build countedAaab) (fun t =>
      decide (4 < t.nodeCount.toNat) && t.node[4]? == some (.internal 5 3 0) &&
      t.node[3]? == some (.internal 2 2 1)) = true ∧
    queuedAt codecAaab.node 3 0 ∧ queuedAt codecAaab.node 4 0 := by
  exact ⟨rfl, by decide +kernel, by unfold queuedAt; decide +kernel, by unfold queuedAt; decide +kernel⟩

theorem witness_tieBreak :
    codecAaab.node[0]? = some (.leaf 3 0x61) ∧ codecAaab.node[2]? = some (.leaf 1 256) ∧
    codecAaab.node[3]? = some (.internal 2 2 1) ∧ codecAaab.node[4]? = some (.internal 5 3 0) := by
  decide +kernel

theorem witness_arbiter :
    5 ≤ 513 ∧ (∀ i < 5, ∀ j < 5, leafSym codecAaab.node i ≠ none →
      leafSym codecAaab.node i = leafSym codecAaab.node j → i = j) ∧
    precedes 4 codecAaab.node 2 1 = true ∧ precedes 4 codecAaab.node 1 3 = true := by decide +kernel

theorem witness_build_depends :
    let s' := { countedAaab with ie := true, node := Vector.replicate 513 (.internal 9 9 9), inq := Vector.replicate 513 true }
    countedAaab.built = false ∧ s'.built = false ∧ s'.freq = countedAaab.freq ∧
    s'.params.sentinelCp = countedAaab.params.sentinelCp := ⟨rfl, rfl, rfl, rfl⟩

theorem witness_empty_corpus :
    State.reset.built = false ∧ ∀ k (h : k < 256), State.reset.freq[k] = 0 := by
  refine ⟨rfl, fun k h => ?_⟩
  simp [State.reset, State.resetWith]

/-- A corpus of `n` bytes of value `a` alone. -/
def onlyByte (a : Nat) (n : Word) : State := { State.reset with freq := counts [(a, n)] }

theorem onlyByte_freq (a : Nat) (n : Word) :
    ∀ k (h : k < 256), k ≠ a → (onlyByte a n).freq[k] = 0 := by
  intro k h hk
  simp [onlyByte, counts, Ne.symm hk]

theorem witness_one_symbol_corpora :
    (let s := onlyByte 4 1
     s.built = false ∧ s.freq[4] ≠ 0 ∧ (∀ k (h : k < 256), k ≠ 4 → s.freq[k] = 0) ∧
     ¬ (2 ≤ s.freq[4].toNat ∨ s.params.sentinelCp.toNat < 4)) ∧
    (let s := onlyByte 5 1
     s.built = false ∧ s.freq[5] ≠ 0 ∧ (∀ k (h : k < 256), k ≠ 5 → s.freq[k] = 0) ∧
     s.params.sentinelCp.toNat < 5) ∧
    (let s := onlyByte 0 2
     s.built = false ∧ s.freq[0] ≠ 0 ∧ (∀ k (h : k < 256), k ≠ 0 → s.freq[k] = 0) ∧
     2 ≤ s.freq[0].toNat) := by
  exact ⟨⟨rfl, by decide +kernel, onlyByte_freq 4 1, by decide +kernel⟩,
    ⟨rfl, by decide +kernel, onlyByte_freq 5 1, by decide⟩,
    ⟨rfl, by decide +kernel, onlyByte_freq 0 2, by decide +kernel⟩⟩

theorem witness_leaf_counts :
    2 ≤ leafCount countedAaab.freq ∧ hasLeaf countedAaab.freq 0x61 ∧ hasLeaf countedAaab.freq 256 ∧
    leafCount State.reset.freq = 1 := by
  refine ⟨by decide +kernel, by decide +kernel, by decide, ?_⟩
  simp +contextual [leafCount, corpusBelow, State.reset, State.resetWith]

theorem witness_prefix_free :
    nextThat (exec .build countedAaab) (fun t => t.cb[0x61] != [] && t.cb[0x62] != [] && t.cb[256] != []) = true := by
  decide +kernel

theorem witness_nodeRead :
    codecAaab.built = true ∧ 4 < codecAaab.nodeCount.toNat ∧ codecAaab.node[4]? = some (.internal 5 3 0) ∧
    0 < codecAaab.nodeCount.toNat ∧ codecAaab.node[0]? = some (.leaf 3 0x61) ∧
    codecAaab.nodeCount.toNat ≤ 5 ∧ State.reset.built = false := by decide +kernel

theorem witness_cbLookup :
    (256 < 257 ∧ codecAaab.built = true) ∧ State.reset.built = false ∧ (codecAaab.built = true ∧ 257 ≤ 257) ∧
    (7 < 8 ∧ 31 < 32) := by decide

theorem witness_encode_fits :
    let msg : List Byte := [0x61, 0x62]
    encodeAb.built = true ∧ rangesOk encodeAb ∧ msg.length = srcLen encodeAb ∧
    holdsBytes encodeAb.mem (srcAddr encodeAb) msg ∧ encodable encodeAb.cb msg ∧
    ((streamOf encodeAb.cb msg).length + 7) / 8 ≤ dstCap encodeAb := by decide +kernel

theorem witness_encode_overflows :
    let s := latched 0x100 2 0x101 0 encodeAb
    let msg : List Byte := [0x61, 0x62]
    s.built = true ∧ rangesOk s ∧ msg.length = srcLen s ∧ holdsBytes s.mem (srcAddr s) msg ∧
    encodable s.cb msg ∧ dstCap s < ((streamOf s.cb msg).length + 7) / 8 := by decide +kernel

theorem witness_encode_unknown :
    let s := latched 0x100 4 0x200 0 (withBytes 0x100 [0x61, 0x62, 0x7A] codecAaab)
    s.built = true ∧ rangesOk s ∧ [(0x61 : Byte), 0x62].length < srcLen s ∧
    holdsBytes s.mem (srcAddr s) ([0x61, 0x62] ++ [0x7A]) ∧ encodable s.cb [0x61, 0x62] ∧
    codeOfByte s.cb 0x7A = [] := by decide +kernel

theorem witness_encode_decode_refused :
    State.reset.built = false ∧
    (let s := latched 0x10001 0 0 0 codecAaab
     s.built = true ∧ dmemSize s.params < srcAddr s + srcLen s) ∧
    (let s := latched 0x100 2 0xFFF8 9 codecAaab
     s.built = true ∧ dmemSize s.params < dstAddr s + dstCap s) ∧
    (let s := latched 0x100 2 0x101 1 codecAaab
     s.built = true ∧ 0 < srcLen s ∧ 0 < dstCap s ∧ srcAddr s < dstAddr s + dstCap s ∧
       dstAddr s < srcAddr s + srcLen s) := by decide +kernel

theorem witness_encode_lengths :
    CodecOk encodeAb ∧ (∃ t, exec .encode encodeAb = .next t ∧ (t.err == 0) = true) ∧
    [(0x61 : Byte), 0x62].length = srcLen encodeAb ∧
    holdsBytes encodeAb.mem (srcAddr encodeAb) [0x61, 0x62] := by
  exact ⟨codecOk_encodeAb, witness_completion_encode, by decide, by decide +kernel⟩

theorem witness_decode_fits :
    let msg : List Byte := [0x61, 0x62]
    CodecOk decodeA0 ∧ decodeA0.built = true ∧ rangesOk decodeA0 ∧
    leafSym decodeA0.node decodeA0.root.toNat = none ∧ encodable decodeA0.cb msg ∧
    (streamOf decodeA0.cb msg).length ≤ 8 * srcLen decodeA0 ∧
    holdsBits decodeA0.mem (srcAddr decodeA0) (streamOf decodeA0.cb msg) ∧
    msg.length ≤ dstCap decodeA0 := by
  exact ⟨codecOk_decodeA0, by decide +kernel⟩

theorem witness_decode_overflows :
    let s := latched 0x300 1 0x400 1 decodeA0
    let msg : List Byte := [0x61, 0x62]
    CodecOk s ∧ s.built = true ∧ rangesOk s ∧ leafSym s.node s.root.toNat = none ∧ encodable s.cb msg ∧
    (streamOf s.cb msg).length ≤ 8 * srcLen s ∧ holdsBits s.mem (srcAddr s) (streamOf s.cb msg) ∧
    dstCap s < msg.length := by
  exact ⟨codecOk_of_codec codecOk_aaab rfl rfl rfl rfl rfl, by decide +kernel⟩

theorem witness_decode_truncated :
    let s := latched 0x300 1 0x400 0 (withBytes 0x300 [0xFE] codecAaab)
    let msg : List Byte := List.replicate 7 0x61
    CodecOk s ∧ s.built = true ∧ rangesOk s ∧ encodable s.cb msg ∧
    holdsBits s.mem (srcAddr s) (codeBits s.cb msg ++ [false]) ∧
    (codeBits s.cb msg ++ [false]).length = 8 * srcLen s ∧ follow s.node s.root.toNat [false] = some 3 ∧
    leafSym s.node 3 = none := by
  exact ⟨codecOk_of_codec codecOk_aaab rfl rfl rfl rfl rfl, by decide +kernel⟩

theorem witness_decode_truncated_empty_source :
    let s := latched 0x10000 0 0x400 16 codecAaab
    CodecOk s ∧ s.built = true ∧ rangesOk s ∧ encodable s.cb [] ∧
    holdsBits s.mem (srcAddr s) (codeBits s.cb [] ++ []) ∧ (codeBits s.cb [] ++ []).length = 8 * srcLen s ∧
    follow s.node s.root.toNat [] = some 4 ∧ leafSym s.node 4 = none := by
  exact ⟨codecOk_of_codec codecOk_aaab rfl rfl rfl rfl rfl, by decide +kernel⟩

theorem witness_decode_ignores_the_rest :
    let m := Memory.writeBytes decodeA0.mem 0x301 [0xFF]
    ∃ t, exec .decode decodeA0 = .next t ∧
      (t.err == 0 && t.resultBits == 5 && m.read 0x300 == decodeA0.mem.read 0x300) = true :=
  nextThat_spec (by decide +kernel)

theorem witness_decode_one_leaf :
    let s := latched 0 1 0x400 16 codecEmpty
    s.built = true ∧ rangesOk s ∧ leafSym s.node s.root.toNat = some 256 := by decide +kernel

theorem witness_error_completion : ∃ t, exec .build codecAaab = .next t ∧ (t.err != 0) = true :=
  nextThat_spec (by decide +kernel)

theorem witness_command_completes :
    CodecOk decodeA0 ∧ ∀ k < srcLen decodeA0, decodeA0.mem.read (srcAddr decodeA0 + k) ≠ none := by
  exact ⟨codecOk_decodeA0, by decide +kernel⟩

theorem witness_round_trip :
    let msg : List Byte := [0x61, 0x62]
    CodecOk encodeAb ∧ encodeAb.built = true ∧ rangesOk encodeAb ∧ msg.length = srcLen encodeAb ∧
    holdsBytes encodeAb.mem (srcAddr encodeAb) msg ∧ encodable encodeAb.cb msg ∧
    ((streamOf encodeAb.cb msg).length + 7) / 8 ≤ dstCap encodeAb ∧
    inRange encodeAb.params 0xFFFE 2 ∧ msg.length ≤ 2 ∧ ¬ overlap (dstAddr encodeAb) 1 0xFFFE 2 := by
  exact ⟨codecOk_encodeAb, by decide +kernel⟩

theorem witness_round_trip_one_leaf :
    let s := latched 0x10000 0 0x200 1 codecEmpty
    CodecOk s ∧ s.built = true ∧ rangesOk s ∧ ([] : List Byte).length = srcLen s ∧ holdsBytes s.mem (srcAddr s) [] ∧
    encodable s.cb [] ∧ ((streamOf s.cb []).length + 7) / 8 ≤ dstCap s ∧
    inRange s.params 0x10000 0 ∧ ¬ overlap (dstAddr s) 1 0x10000 0 := by
  exact ⟨codecOk_of_codec codecOk_empty rfl rfl rfl rfl rfl, by decide +kernel⟩

theorem witness_reset_turn :
    let s := { pending 3 codecAaab with schedule := [.reset, .host] }
    s.schedule = .reset :: [.host] := by decide

theorem witness_memory_step :
    MemOk (pending 4 encodeAb) ∧ ∃ t, step (pending 4 encodeAb) = .next t ∧ (t.mem.read 0x200 == some 0xA0) = true := by
  exact ⟨⟨memOk_encodeAb.wf, memOk_encodeAb.bound⟩, nextThat_spec (by decide +kernel)⟩

theorem witness_handshake_step :
    HandshakeOk (pending 0 State.reset) ∧ ∃ t, step (pending 0 State.reset) = .next t ∧ t.done = true := by
  exact ⟨handshakeOk_pending, nextThat_spec (by decide +kernel)⟩

theorem witness_codec_step :
    let s := pending 3 countedAaab
    CountsOk s ∧ CodecOk s ∧ ∃ t, step s = .next t ∧ t.built = true := by
  exact ⟨⟨countsOk_aaab.sum, countsOk_aaab.bound⟩, codecOk_of_codec codecOk_reset rfl rfl rfl rfl rfl,
    nextThat_spec (by decide +kernel)⟩

theorem witness_hidden_state :
    let s := hostDoes (.write 0x14 4 3) State.reset
    let t := { s with
      inq := Vector.replicate 513 true, node := Vector.replicate 513 (.internal 1 2 3), lCmd := 9 }
    CodecOk s ∧ SameVisible s t ∧ ∃ s', step s = .next s' ∧ s'.busy = true := by
  refine ⟨codecOk_of_codec codecOk_reset rfl rfl rfl rfl rfl, ?_, nextThat_spec (by decide +kernel)⟩
  constructor <;> first | rfl | (intro h; exact absurd h (by decide)) | exact (fun i h => absurd h (Nat.not_lt_zero i))

theorem witness_built_step :
    let s := pending 1 codecAaab
    s.built = true ∧ s.busy = true ∧ decode s.lCmd = .ok .clear ∧
    ∃ t, step s = .next t ∧ (!t.built && !t.busy) = true := by
  exact ⟨rfl, rfl, by decide, nextThat_spec (by decide +kernel)⟩

end Sys2Proof.Tests
end

/-! PROOFS. How a command ends, and what an error leaves unchanged (60_exceptions.md R260, R264). -/

namespace Sys2Proof.Machine

/-- What a command that answers a next state `t` from `s` ends with (R117, R260, R264): a success, an error
that writes nothing but its completion, or a bulk error that also writes the bulk result registers. -/
inductive CommandEnd (s t : State) : Prop where
  | ok (h : t.err = errOk)
  | error (e : ErrKind) (h : t = raiseError e s)
  | bulkError (e : ErrKind) (len pos : Word) (h : t = raiseBulk e len pos s)

theorem commandEnd_emitStream (bs : Bits) (s : State) : CommandEnd s (emitStream bs s) := by
  obtain ⟨-, h⟩ | ⟨-, h⟩ := emitStream_cases bs s
  · exact .bulkError _ _ _ h
  · exact .ok (by rw [h, finishBulk_err])

theorem commandEnd_emitSymbols (out : List Byte) (p : Nat) (s : State) :
    CommandEnd s (emitSymbols out p s) := by
  obtain ⟨-, h⟩ | ⟨-, h⟩ := emitSymbols_cases out p s
  · exact .bulkError _ _ _ h
  · exact .ok (by rw [h, finishBulk_err])

/-- Every error of a command is raised from the state the command began in: nothing is written before the
checks of R262 are done. -/
theorem exec_commandEnd {i : Instr} {s t : State} (h : exec i s = .next t) : CommandEnd s t := by
  cases i with
  | nop =>
    obtain rfl := execNop_next h
    exact .ok rfl
  | clear =>
    obtain rfl := execClear_next h
    exact .ok rfl
  | count =>
    obtain ⟨-, ht⟩ | ⟨-, -, ht⟩ | ⟨-, -, -, ht⟩ | ⟨-, -, -, _, -, -, rfl⟩ := execCount_next h
    · exact .bulkError _ _ _ ht
    · exact .bulkError _ _ _ ht
    · exact .bulkError _ _ _ ht
    · exact .ok rfl
  | build =>
    obtain ⟨-, ht⟩ | ⟨-, _, -, rfl⟩ := execBuild_next h
    · exact .error _ ht
    · exact .ok rfl
  | encode =>
    obtain ⟨-, ht⟩ | ⟨-, -, ht⟩ | ⟨-, -, _, -, ht⟩ | ⟨-, -, _, -, rfl⟩ := execEncode_next h
    · exact .bulkError _ _ _ ht
    · exact .bulkError _ _ _ ht
    · exact .bulkError _ _ _ ht
    · exact commandEnd_emitStream _ _
  | decode =>
    obtain ⟨-, ht⟩ | ⟨-, -, ht⟩ | ⟨-, -, -, ht⟩ | ⟨-, -, _, _, -, rfl⟩ := execDecode_next h
    · exact .bulkError _ _ _ ht
    · exact .bulkError _ _ _ ht
    · exact .bulkError _ _ _ ht
    · exact commandEnd_emitSymbols _ _ _
  | cbLookup idx =>
    obtain ⟨-, ht⟩ | ⟨-, -, ht⟩ | ⟨-, _, rfl⟩ := execCbLookup_next h
    · exact .error _ ht
    · exact .error _ ht
    · exact .ok rfl
  | nodeRead idx =>
    obtain ⟨-, ht⟩ | ⟨-, -, ht⟩ | ⟨-, -, _, -, rfl⟩ := execNodeRead_next h
    · exact .error _ ht
    · exact .error _ ht
    · exact .ok rfl
  | freqRead idx =>
    obtain ⟨_, rfl⟩ | ⟨-, ht⟩ := execFreqRead_next h
    · exact .ok rfl
    · exact .error _ ht

theorem sameCodec_raiseError (e : ErrKind) (s : State) : SameCodec s (raiseError e s) :=
  ⟨rfl, rfl, rfl, rfl, rfl, rfl, fun _ _ => rfl⟩

theorem sameLookup_raiseError (e : ErrKind) (s : State) : SameLookup s (raiseError e s) :=
  ⟨rfl, rfl, rfl⟩

theorem sameCodec_raiseBulk (e : ErrKind) (len pos : Word) (s : State) :
    SameCodec s (raiseBulk e len pos s) :=
  ⟨rfl, rfl, rfl, rfl, rfl, rfl, fun _ _ => rfl⟩

theorem sameLookup_raiseBulk (e : ErrKind) (len pos : Word) (s : State) :
    SameLookup s (raiseBulk e len pos s) :=
  ⟨rfl, rfl, rfl⟩

/-- Settles O48: a command that does not succeed ends with `raiseError` or `raiseBulk` of the state it began
in, and neither touches DMEM, the codec or the lookup registers. -/
theorem errorsChangeNoMemoryAndNoCodec : Obligations.ErrorsChangeNoMemoryAndNoCodec := by
  intro i s t h herr
  cases exec_commandEnd h with
  | ok hok => exact absurd hok herr
  | error e ht =>
    subst ht
    exact ⟨fun _ => by rw [raiseError_mem], sameCodec_raiseError e s, sameLookup_raiseError e s⟩
  | bulkError e len pos ht =>
    subst ht
    exact ⟨fun _ => by rw [raiseBulk_mem], sameCodec_raiseBulk e len pos s,
      sameLookup_raiseBulk e len pos s⟩

end Sys2Proof.Machine

/-! PROOFS. What a command, the host's turn and a step can do to the state, each said once
(10_state.md R54; 30_encoding.md R117, R123). -/

namespace Sys2Proof.Machine

/-! ## Frames -/

/-- The codec state with its whole arena is unchanged. -/
structure CodecFrame (s t : State) : Prop where
  built : t.built = s.built
  freq : t.freq = s.freq
  total : t.total = s.total
  node : t.node = s.node
  nodeCount : t.nodeCount = s.nodeCount
  root : t.root = s.root
  cb : t.cb = s.cb

theorem CodecFrame.refl (s : State) : CodecFrame s s := ⟨rfl, rfl, rfl, rfl, rfl, rfl, rfl⟩

theorem CodecFrame.sameCodec {s t : State} (h : CodecFrame s t) : SameCodec s t :=
  ⟨h.freq, h.total, h.built, h.nodeCount, h.root, h.cb, fun _ _ => by rw [h.node]⟩

theorem CodecFrame.countsOk {s t : State} (h : CodecFrame s t) (hs : CountsOk s) : CountsOk t where
  sum := by rw [h.freq, h.total]; exact hs.sum
  bound := by rw [h.total]; exact hs.bound

theorem CodecFrame.codecOk {s t : State} (h : CodecFrame s t) (hs : CodecOk s) : CodecOk t where
  unbuilt := by rw [h.built, h.nodeCount, h.root, h.cb]; exact hs.unbuilt
  trie := by rw [h.built, h.node, h.nodeCount, h.root]; exact hs.trie
  codebook := by rw [h.built, h.node, h.nodeCount, h.root, h.cb]; exact hs.codebook

/-- What the host's turn leaves alone: the parameters, the codec and STATUS.ERR; and a DONE that is 1 afterwards
was 1 before, with the same BUSY (R36, R46, R112). -/
structure HostFrame (s t : State) : Prop extends CodecFrame s t where
  params : t.params = s.params
  err : t.err = s.err
  done : t.done = true → s.done = true ∧ t.busy = s.busy

theorem HostFrame.refl (s : State) : HostFrame s s :=
  { CodecFrame.refl s with params := rfl, err := rfl, done := fun h => ⟨h, rfl⟩ }

theorem hostFrame_readReg (r : Reg) (s : State) : HostFrame s (readReg r s) := { HostFrame.refl s with }

theorem hostFrame_writeReg (r : Reg) (v : Word) (s : State) : HostFrame s (writeReg r v s) := by
  have same := HostFrame.refl s
  obtain h | h | h | h | ⟨args, h⟩ := writeReg_cases r v s
  · rw [h]; exact same
  · rw [h]; exact { same with }
  · rw [h]; exact { same with done := fun hd => ⟨(Bool.and_eq_true_iff.1 hd).1, rfl⟩ }
  · rw [h]
    obtain ⟨-, hw⟩ | ⟨-, hw⟩ := writeCmd_cases v s
    · rw [hw]; exact { same with done := fun hd => absurd hd Bool.false_ne_true }
    · rw [hw]; exact { same with }
  · rw [h]; exact { same with }

theorem hostFrame_busRead {addr size : Nat} {s t : State} (h : busRead addr size s = .next t) :
    HostFrame s t := by
  obtain ⟨o, -, -, rfl⟩ | ⟨a, v, -, -, -, -, rfl⟩ := busRead_next h
  · exact hostFrame_readReg _ s
  · exact { HostFrame.refl s with }

theorem hostFrame_busWrite {addr size : Nat} {v : Word} {s t : State}
    (h : busWrite addr size v s = .next t) : HostFrame s t := by
  obtain ⟨o, -, -, rfl⟩ | ⟨a, -, -, -, rfl⟩ := busWrite_next h
  · exact hostFrame_writeReg _ v s
  · exact { HostFrame.refl s with }

theorem hostFrame_hostTurn {s t : State} (h : hostTurn s = .next t) : HostFrame s t := by
  obtain ⟨-, rfl⟩ | ⟨_, _, _, -, h⟩ | ⟨_, _, _, _, -, h⟩ | ⟨rest, -, rfl⟩ := hostTurn_next h
  · exact HostFrame.refl _
  · exact { hostFrame_busRead h with }
  · exact { hostFrame_busWrite h with }
  · obtain h | h := pollStatus_eq rest s
    · rw [h]; exact hostFrame_readReg _ s
    · rw [h]; exact { hostFrame_readReg .status s with }

/-! ## The effect of a command -/

/-- `s` with the codec that BUILD makes from the builder `b` (R170). -/
def installCodec (b : Builder) (s : State) : State :=
  { s with
    node := b.node
    inq := b.inq
    nodeCount := BitVec.ofNat 10 b.n
    root := BitVec.ofNat 10 (rootOf b)
    cb := deriveCodebook b.node (rootOf b)
    built := true }

/-- What a command that answers a next state has written (R260, R264 and the rules of the nine commands). -/
inductive Effect (s : State) : Instr → State → Prop where
  | error {i : Instr} (e : ErrKind) : Effect s i (raiseError e s)
  | bulkError {i : Instr} (e : ErrKind) (len pos : Word) (hi : i = .count ∨ i = .encode ∨ i = .decode) :
      Effect s i (raiseBulk e len pos s)
  | nop : Effect s .nop (complete errOk s)
  | clear : Effect s .clear (complete errOk (clearCodec s))
  | counted (bs : List Byte) (unbuilt : s.built = false) (len : bs.length = srcLen s)
      (total : s.total.toNat + srcLen s ≤ Config.totalMax) :
      Effect s .count (finishBulk s.latch.srcLen 0
        { s with freq := countBytes s.freq bs, total := s.total + s.latch.srcLen })
  | built (unbuilt : s.built = false) :
      Effect s .build
        (complete errOk (installCodec (buildTrie s.params.sentinelCp s.node s.inq s.freq) s))
  | wrote {i : Instr} (len bits : Word) (m : Memory) (hi : i = .encode ∨ i = .decode) :
      Effect s i (finishBulk len bits { s with mem := m })
  | codeword (idx : Nat) (len : Word) (bits : Vector Word 8) :
      Effect s (.cbLookup idx) (complete errOk { s with res0 := len, res1 := 0, cwbits := bits })
  | lookedUp {i : Instr} (x y : Word) (hi : ∃ idx, i = .nodeRead idx ∨ i = .freqRead idx) :
      Effect s i (complete errOk { s with res0 := x, res1 := y })

theorem effect_emitStream (bs : Bits) (s : State) : Effect s .encode (emitStream bs s) := by
  obtain ⟨-, h⟩ | ⟨-, h⟩ := emitStream_cases bs s
  · rw [h]; exact .bulkError _ _ _ (.inr (.inl rfl))
  · rw [h]; exact .wrote _ _ _ (.inl rfl)

theorem effect_emitSymbols (out : List Byte) (p : Nat) (s : State) :
    Effect s .decode (emitSymbols out p s) := by
  obtain ⟨-, h⟩ | ⟨-, h⟩ := emitSymbols_cases out p s
  · rw [h]; exact .bulkError _ _ _ (.inr (.inr rfl))
  · rw [h]; exact .wrote _ _ _ (.inr rfl)

theorem exec_effect {i : Instr} {s t : State} (h : exec i s = .next t) : Effect s i t := by
  cases i with
  | nop => rw [execNop_next h]; exact .nop
  | clear => rw [execClear_next h]; exact .clear
  | count =>
    obtain ⟨-, rfl⟩ | ⟨-, -, rfl⟩ | ⟨-, -, -, rfl⟩ | ⟨hb, -, ht, bs, hl, -, rfl⟩ := execCount_next h
    · exact .bulkError _ _ _ (.inl rfl)
    · exact .bulkError _ _ _ (.inl rfl)
    · exact .bulkError _ _ _ (.inl rfl)
    · exact .counted bs hb hl ht
  | build =>
    obtain ⟨-, rfl⟩ | ⟨hb, _, rfl, rfl⟩ := execBuild_next h
    · exact .error _
    · exact .built hb
  | encode =>
    obtain ⟨-, rfl⟩ | ⟨-, -, rfl⟩ | ⟨-, -, _, -, rfl⟩ | ⟨-, -, _, -, rfl⟩ := execEncode_next h
    · exact .bulkError _ _ _ (.inr (.inl rfl))
    · exact .bulkError _ _ _ (.inr (.inl rfl))
    · exact .bulkError _ _ _ (.inr (.inl rfl))
    · exact effect_emitStream _ s
  | decode =>
    obtain ⟨-, rfl⟩ | ⟨-, -, rfl⟩ | ⟨-, -, -, rfl⟩ | ⟨-, -, _, _, -, rfl⟩ := execDecode_next h
    · exact .bulkError _ _ _ (.inr (.inr rfl))
    · exact .bulkError _ _ _ (.inr (.inr rfl))
    · exact .bulkError _ _ _ (.inr (.inr rfl))
    · exact effect_emitSymbols _ _ s
  | cbLookup idx =>
    obtain ⟨-, rfl⟩ | ⟨-, -, rfl⟩ | ⟨-, _, rfl⟩ := execCbLookup_next h
    · exact .error _
    · exact .error _
    · exact .codeword _ _ _
  | nodeRead idx =>
    obtain ⟨-, rfl⟩ | ⟨-, -, rfl⟩ | ⟨-, -, _, -, rfl⟩ := execNodeRead_next h
    · exact .error _
    · exact .error _
    · exact .lookedUp _ _ ⟨idx, .inl rfl⟩
  | freqRead idx =>
    obtain ⟨_, rfl⟩ | ⟨-, rfl⟩ := execFreqRead_next h
    · exact .lookedUp _ _ ⟨idx, .inr rfl⟩
    · exact .error _

theorem errCode_le (e : ErrKind) : (errCode e).toNat ≤ 9 := by cases e <;> decide

/-- Every command ends with BUSY = 0, DONE = 1 and a code of R261 (R117). -/
theorem exec_completed {i : Instr} {s t : State} (h : exec i s = .next t) :
    Completed t t.err ∧ t.err.toNat ≤ 9 := by
  cases exec_effect h with
  | error e => exact ⟨⟨rfl, rfl, rfl⟩, errCode_le e⟩
  | bulkError e => exact ⟨⟨rfl, rfl, rfl⟩, errCode_le e⟩
  | _ => exact ⟨⟨rfl, rfl, rfl⟩, Nat.zero_le 9⟩

theorem exec_sameRest {i : Instr} {s t : State} (h : exec i s = .next t) : SameRest s t := by
  cases exec_effect h <;> exact ⟨rfl, rfl, rfl, rfl, rfl, rfl, rfl, rfl, rfl, rfl⟩

theorem exec_sameResults {i : Instr} {s t : State} (h : exec i s = .next t) (hc : i ≠ .count)
    (he : i ≠ .encode) (hd : i ≠ .decode) : SameResults s t := by
  cases exec_effect h with
  | bulkError _ _ _ hi => simp [hc, he, hd] at hi
  | counted => exact absurd rfl hc
  | wrote _ _ _ hi => simp [he, hd] at hi
  | _ => exact ⟨rfl, rfl, rfl⟩

theorem exec_sameLookup {i : Instr} {s t : State} (h : exec i s = .next t) (hc : ∀ k, i ≠ .cbLookup k)
    (hn : ∀ k, i ≠ .nodeRead k) (hf : ∀ k, i ≠ .freqRead k) : SameLookup s t := by
  cases exec_effect h with
  | codeword idx => exact absurd rfl (hc idx)
  | lookedUp _ _ hi => simp [hn, hf] at hi
  | _ => exact ⟨rfl, rfl, rfl⟩

theorem exec_cwbits {i : Instr} {s t : State} (h : exec i s = .next t) (hc : ∀ k, i ≠ .cbLookup k) :
    t.cwbits = s.cwbits := by
  cases exec_effect h with
  | codeword idx => exact absurd rfl (hc idx)
  | _ => rfl

theorem exec_mem {i : Instr} {s t : State} (h : exec i s = .next t) (he : i ≠ .encode)
    (hd : i ≠ .decode) : t.mem = s.mem := by
  cases exec_effect h with
  | wrote _ _ _ hi => simp [he, hd] at hi
  | _ => rfl

theorem exec_codecFrame {i : Instr} {s t : State} (h : exec i s = .next t) (hl : i ≠ .clear)
    (hc : i ≠ .count) (hb : i ≠ .build) : CodecFrame s t := by
  cases exec_effect h with
  | clear => exact absurd rfl hl
  | counted => exact absurd rfl hc
  | built => exact absurd rfl hb
  | _ => exact { CodecFrame.refl s with }

theorem exec_cb_built {i : Instr} {s t : State} (h : exec i s = .next t) (hl : i ≠ .clear)
    (hb : i ≠ .build) : t.cb = s.cb ∧ t.built = s.built := by
  cases exec_effect h with
  | clear => exact absurd rfl hl
  | built => exact absurd rfl hb
  | _ => exact ⟨rfl, rfl⟩

theorem exec_freq_total {i : Instr} {s t : State} (h : exec i s = .next t) (hl : i ≠ .clear)
    (hc : i ≠ .count) : t.freq = s.freq ∧ t.total = s.total := by
  cases exec_effect h with
  | clear => exact absurd rfl hl
  | counted => exact absurd rfl hc
  | _ => exact ⟨rfl, rfl⟩

/-- A command of a built codec other than CLEAR leaves the codec as it is (R54). -/
theorem exec_codecFrame_of_built {i : Instr} {s t : State} (h : exec i s = .next t)
    (hs : s.built = true) (hl : i ≠ .clear) : CodecFrame s t := by
  cases exec_effect h with
  | clear => exact absurd rfl hl
  | counted _ hb => rw [hs] at hb; cases hb
  | built hb => rw [hs] at hb; cases hb
  | _ => exact { CodecFrame.refl s with }

/-- Settles O49: one frame lemma per group of registers. -/
theorem commandsWriteOnlyTheirRegisters : Obligations.CommandsWriteOnlyTheirRegisters := fun _ _ _ h =>
  ⟨exec_sameResults h, exec_sameLookup h, exec_cwbits h, fun he hd _ => by rw [exec_mem h he hd],
    fun hl hc hb => (exec_codecFrame h hl hc hb).sameCodec, exec_cb_built h, exec_freq_total h⟩

/-! ## Invariants of the step -/

/-- A property that reset establishes and that every command, every illegal word, the host's turn and a turn
taken off the schedule keep is kept by every step (R123). -/
theorem step_keeps {P : State → Prop} (schedule : ∀ s rest, P s → P { s with schedule := rest })
    (command : ∀ i s t, P s → exec i s = .next t → P t)
    (illegal : ∀ s, P s → P (raiseError .illegalCommand s))
    (host : ∀ s t, P s → HostFrame s t → P t) (reset : ∀ s, P s → P (applyReset s))
    {s t : State} (hs : P s) (h : step s = .next t) : P t := by
  obtain ⟨rest, -, ⟨-, h⟩ | h | ⟨-, rfl⟩ | ⟨-, -, rfl⟩⟩ := step_next h
  · obtain ⟨i, -, h⟩ | ⟨e, -, rfl⟩ := engineStep_next h
    · exact command i _ t (schedule s rest hs) h
    · exact illegal _ (schedule s rest hs)
  · exact host _ t (schedule s rest hs) (hostFrame_hostTurn h)
  · exact reset _ (schedule s rest hs)
  · exact schedule s rest hs

theorem handshakeOk_resetWith (p : Params) : HandshakeOk (State.resetWith p) :=
  ⟨fun _ => rfl, Nat.zero_le 9⟩

theorem HandshakeOk.of_hostFrame {s t : State} (hs : HandshakeOk s) (h : HostFrame s t) : HandshakeOk t where
  busyDone hb := by
    by_contra hd
    obtain ⟨hsd, hsb⟩ := h.done (by simpa using hd)
    rw [hs.busyDone (hsb ▸ hb)] at hsd
    cases hsd
  err := by rw [h.err]; exact hs.err

/-- Settles O55: a completion clears BUSY and leaves a code of R261, and the host's turn can only clear DONE. -/
theorem handshakeStaysConsistent : Obligations.HandshakeStaysConsistent := by
  intro s t hs h
  apply step_keeps (P := HandshakeOk) (hs := hs) (h := h)
  case schedule => exact fun s rest hs => ⟨hs.busyDone, hs.err⟩
  case command =>
    intro i s t _ h
    obtain ⟨hc, herr⟩ := exec_completed h
    exact ⟨fun hb => absurd (hc.busy ▸ hb) Bool.false_ne_true, herr⟩
  case illegal => exact fun s _ => ⟨fun hb => absurd hb Bool.false_ne_true, errCode_le _⟩
  case host => exact fun s t hs h => hs.of_hostFrame h
  case reset =>
    intro s _
    have hr := handshakeOk_resetWith s.params
    exact ⟨hr.busyDone, hr.err⟩


/-- A step that is no reset and no CLEAR keeps a built codec (R54). -/
theorem codecFrame_of_step {s t : State} (hs : s.built = true) (h : step s = .next t) :
    CodecFrame s t ∨ (∃ rest, s.schedule = .reset :: rest) ∨
      (s.busy = true ∧ t.busy = false ∧ decode s.lCmd = .ok .clear) := by
  obtain ⟨rest, -, ⟨hb, h⟩ | h | ⟨hr, -⟩ | ⟨-, -, rfl⟩⟩ := step_next h
  · obtain ⟨i, hi, h⟩ | ⟨e, -, rfl⟩ := engineStep_next h
    · by_cases hl : i = .clear
      · exact .inr (.inr ⟨hb, (exec_completed h).1.busy, hl ▸ hi⟩)
      · exact .inl { exec_codecFrame_of_built h hs hl with }
    · exact .inl { CodecFrame.refl s with }
  · exact .inl { hostFrame_hostTurn h with }
  · exact .inr (.inl ⟨rest, hr⟩)
  · exact .inl { CodecFrame.refl s with }

/-- A step that is no reset, CLEAR or BUILD keeps the codebook (R203). -/
theorem cb_of_step {s t : State} (h : step s = .next t) :
    t.cb = s.cb ∨ (∃ rest, s.schedule = .reset :: rest) ∨
      (s.busy = true ∧ t.busy = false ∧ (decode s.lCmd = .ok .clear ∨ decode s.lCmd = .ok .build)) := by
  obtain ⟨rest, -, ⟨hb, h⟩ | h | ⟨hr, -⟩ | ⟨-, -, rfl⟩⟩ := step_next h
  · obtain ⟨i, hi, h⟩ | ⟨e, -, rfl⟩ := engineStep_next h
    · by_cases hw : i = .clear ∨ i = .build
      · refine .inr (.inr ⟨hb, (exec_completed h).1.busy, ?_⟩)
        rw [hi]
        exact hw.imp (congrArg _) (congrArg _)
      · exact .inl (exec_cb_built h (hw <| .inl ·) (hw <| .inr ·)).1
    · exact .inl rfl
  · exact .inl (hostFrame_hostTurn h).cb
  · exact .inr (.inl ⟨rest, hr⟩)
  · exact .inl rfl

/-- No step changes the parameters (R34). -/
theorem params_of_step {s t : State} (h : step s = .next t) : t.params = s.params := by
  apply step_keeps (P := fun u => u.params = s.params) (hs := rfl) (h := h)
  case schedule => exact fun u rest hu => hu
  case command => exact fun i u v hu h => (exec_sameRest h).params.trans hu
  case illegal => exact fun u hu => hu
  case host => exact fun u v hu h => h.params.trans hu
  case reset => exact fun u hu => hu

/-- Settles O58: CLEAR is the only command that writes a built codec, and CLEAR and BUILD are the only ones that
write the codebook. -/
theorem builtCodecIsFrozen : Obligations.BuiltCodecIsFrozen := fun _ _ h =>
  ⟨params_of_step h, fun hs => (codecFrame_of_step hs h).imp_left CodecFrame.sameCodec, cb_of_step h⟩

/-! ## The counters -/

/-- A counter is at most the sum of all, so it does not wrap while the sum fits 32 bits (R153). -/
theorem sum_toNat_bump (freq : Vector Word 256) (b : Byte)
    (h : (freq.toList.map BitVec.toNat).sum < Config.totalMax) :
    ((bump freq b).toList.map BitVec.toNat).sum = (freq.toList.map BitVec.toNat).sum + 1 := by
  have hb : b.toNat < freq.toList.length := by simpa using b.isLt
  have hget : freq.toList[b.toNat] = freq[b.toNat]'b.isLt := Vector.getElem_toList hb
  have hold := ((List.getElem_cons_eraseIdx_perm hb).map BitVec.toNat).sum_eq
  have hnew := ((List.set_perm_cons_eraseIdx hb (freq[b.toNat]'b.isLt + 1)).map BitVec.toNat).sum_eq
  simp only [List.map_cons, List.sum_cons, hget] at hold hnew
  have hinc : (freq[b.toNat]'b.isLt + 1).toNat = (freq[b.toNat]'b.isLt).toNat + 1 := by
    simp only [Config.totalMax] at h
    bv_omega
  rw [bump, Vector.toList_set, hnew, hinc]
  omega

/-- COUNT's loop adds the number of source bytes, as long as the sum fits a counter (R151, R153). -/
theorem sum_toNat_countBytes (freq : Vector Word 256) (bs : List Byte)
    (h : (freq.toList.map BitVec.toNat).sum + bs.length ≤ Config.totalMax) :
    ((countBytes freq bs).toList.map BitVec.toNat).sum =
      (freq.toList.map BitVec.toNat).sum + bs.length := by
  induction bs generalizing freq with
  | nil => rfl
  | cons b bs ih =>
    rw [List.length_cons] at h ⊢
    have hb := sum_toNat_bump freq b (by omega)
    calc ((countBytes freq (b :: bs)).toList.map BitVec.toNat).sum
      _ = ((countBytes (bump freq b) bs).toList.map BitVec.toNat).sum := rfl
      _ = ((bump freq b).toList.map BitVec.toNat).sum + bs.length := ih _ (by omega)
      _ = (freq.toList.map BitVec.toNat).sum + (bs.length + 1) := by omega

theorem countsOk_resetWith (p : Params) : CountsOk (State.resetWith p) where
  sum := by
    simp only [resetWith_freq, resetWith_total, Vector.toList_replicate, List.map_replicate,
      List.sum_replicate]
    rfl
  bound := Nat.zero_le _

theorem countsOk_exec {i : Instr} {s t : State} (hs : CountsOk s) (h : exec i s = .next t) :
    CountsOk t := by
  cases exec_effect h with
  | clear =>
    have hr := countsOk_resetWith s.params
    exact ⟨hr.sum, hr.bound⟩
  | counted bs _ hl ht =>
    have hsum := sum_toNat_countBytes s.freq bs (by rw [hs.sum, hl]; exact ht)
    have htot : (s.total + s.latch.srcLen).toNat = s.total.toNat + srcLen s := by
      rw [BitVec.toNat_add, srcLen, Nat.mod_eq_of_lt]
      simp only [srcLen, Config.totalMax] at ht
      omega
    exact ⟨by rw [hs.sum, hl] at hsum; exact hsum.trans htot.symm, htot ▸ ht⟩
  | _ => exact ⟨hs.sum, hs.bound⟩

/-- Settles O27: COUNT refuses what would pass TOTAL_MAX before it counts, so TOTAL grows by exactly the number
of bytes its loop counts, and no other command but CLEAR writes them. -/
theorem countsStayExact : Obligations.CountsStayExact := by
  intro s t hs h
  apply step_keeps (P := CountsOk) (hs := hs) (h := h)
  case schedule => exact fun s rest hs => ⟨hs.sum, hs.bound⟩
  case command => exact fun i s t hs h => countsOk_exec hs h
  case illegal => exact fun s hs => ⟨hs.sum, hs.bound⟩
  case host => exact fun s t hs h => h.countsOk hs
  case reset =>
    intro s _
    have hr := countsOk_resetWith s.params
    exact ⟨hr.sum, hr.bound⟩

end Sys2Proof.Machine

/-! PROOFS. The host's accesses to registers (10_state.md R31 to R47; 20_memory.md R83, R93) and reset
(10_state.md R58). -/

namespace Sys2Proof.Machine

/-! ## Register accesses -/

theorem busRead_of_registers {s : State} {addr size o : Nat} (h : regionOf s.params addr = .registers o)
    (ha : regAligned o size) : busRead addr size s = .next (readReg (regAt o) s) := by
  rw [busRead, h]
  exact if_pos ha

theorem busWrite_of_registers {s : State} {addr size o : Nat} (h : regionOf s.params addr = .registers o)
    (ha : regAligned o size) (v : Word) : busWrite addr size v s = .next (writeReg (regAt o) v s) := by
  rw [busWrite, h]
  exact if_pos ha

theorem busRead_of_dmem {s : State} {addr size a : Nat} {v : Word} (h : regionOf s.params addr = .dmem a)
    (ha : dmemAligned a size) (hb : s.busy = false) (hv : s.mem.readLE a size = some v) :
    busRead addr size s = .next (answer v s) := by
  rw [busRead, h]
  dsimp only
  rw [if_neg (not_not.2 ha), hb, if_neg Bool.false_ne_true, hv]

theorem busWrite_of_dmem {s : State} {addr size a : Nat} (h : regionOf s.params addr = .dmem a)
    (ha : dmemAligned a size) (hb : s.busy = false) (v : Word) :
    busWrite addr size v s = .next { s with mem := s.mem.writeLE a size v } := by
  rw [busWrite, h]
  dsimp only
  rw [if_neg (not_not.2 ha), hb, if_neg Bool.false_ne_true]

theorem busRead_register (s : State) {o : Nat} (h : o < 0x10000) (ha : o % 4 = 0) :
    busRead (busBase s.params + o) 4 s = .next (readReg (regAt o) s) :=
  busRead_of_registers (regionOf_registers s.params h) ⟨rfl, ha⟩

theorem busWrite_register (s : State) (v : Word) {o : Nat} (h : o < 0x10000) (ha : o % 4 = 0) :
    busWrite (busBase s.params + o) 4 v s = .next (writeReg (regAt o) v s) :=
  busWrite_of_registers (regionOf_registers s.params h) ⟨rfl, ha⟩ v

/-- A read whose value is defined returns it and draws nothing (R93). -/
theorem readReg_defined {r : Reg} {s : State} (h : drawsFree r s = false) :
    readReg r s = answer (regValue r s) s := by
  have hv : readValue r s = regValue r s := by
    cases hb : s.busy with
    | false => simp [readValue, hb]
    | true =>
      simp only [drawsFree, hb, Bool.true_and, Bool.or_eq_false_iff, beq_eq_false_iff_ne] at h
      simp [readValue, busyValue, hb, h]
  rw [readReg, hv, h]
  rfl

/-- A read that draws a free value returns some word (R47). -/
theorem readReg_free {r : Reg} {s : State} (h : drawsFree r s = true) :
    readReg r s = { s with
      readData := some (busyValue r (Config.freeWord s.draws) s), draws := s.draws + 1 } := by
  have hb : s.busy = true := (Bool.and_eq_true_iff.1 h).1
  rw [readReg, readValue, if_pos hb, h]
  rfl

theorem regAt_reserved {o : Nat} (h : 0x068 ≤ o) : regAt o = .reserved := by
  unfold regAt
  split
  case h_27 => rfl
  all_goals omega

/-- Settles O9: the write of each register, at its offset. -/
theorem registerWritesTakeEffect : Obligations.RegisterWritesTakeEffect := fun s v =>
  ⟨busWrite_register s v (by decide) (by decide), busWrite_register s v (by decide) (by decide),
    busWrite_register s v (by decide) (by decide), busWrite_register s v (by decide) (by decide),
    busWrite_register s v (by decide) (by decide), busWrite_register s v (by decide) (by decide)⟩

/-- A register stands at its own offset only (R31). -/
theorem regOffset_regAt {o : Nat} : regAt o ≠ .reserved → regOffset (regAt o) = o := by
  unfold regAt
  split
  case h_27 => exact fun h => absurd rfl h
  all_goals exact fun _ => rfl

theorem writeReg_of_not_writable {o : Nat} (h : o ∉ writableOffsets) (v : Word) (s : State) :
    writeReg (regAt o) v s = s := by
  cases hr : regAt o with
  | ctrl | status | cmd | srcAddr | srcLen | dstAddr | dstCap =>
    have ho := regOffset_regAt (o := o) (by rw [hr]; exact Reg.noConfusion)
    rw [hr] at ho
    exact absurd (ho ▸ by decide) h
  | _ => rfl

/-- Settles O16: the writable registers stand at `writableOffsets` only, and from 0x068 on there is none. -/
theorem readOnlyAndReservedWordsIgnoreWrites : Obligations.ReadOnlyAndReservedWordsIgnoreWrites := by
  refine ⟨fun s o v ho ha hw => ?_, fun s o hlo ho ha => ?_⟩
  · rw [busWrite_register s v ho ha, writeReg_of_not_writable hw]
  · have hd : drawsFree .reserved s = false := Bool.and_false _
    rw [busRead_register s ho ha, regAt_reserved hlo, readReg_defined hd]
    rfl

/-! ## The register map by value -/

theorem toNat_append_eq_add {m n : Nat} (x : BitVec m) (y : BitVec n) :
    (x ++ y).toNat = 2 ^ n * x.toNat + y.toNat := by
  rw [BitVec.toNat_append, ← Nat.shiftLeft_add_eq_or_of_lt y.isLt, Nat.shiftLeft_eq, Nat.mul_comm]

theorem paramsWord_eq (p : Params) : paramsWord p =
    BitVec.ofNat 32 (8 + 2 ^ 8 * (8 + p.dmemExp.val) + 2 ^ 16 * 32 + 2 ^ 24 * p.sentinelCp.toNat) := by
  have he := p.dmemExp.isLt
  have hc := p.sentinelCp.isLt
  apply BitVec.eq_of_toNat_eq
  simp only [paramsWord, toNat_append_eq_add, BitVec.ofNat_eq_ofNat, BitVec.toNat_ofNat]
  omega

theorem ctrlWord_eq (ie : Bool) : ctrlWord ie = BitVec.ofNat 32 ie.toNat := by cases ie <;> rfl

theorem statusWord_eq (busy done built ovr : Bool) (err : BitVec 8) :
    statusWord busy done built ovr err = BitVec.ofNat 32
      (busy.toNat + 2 * done.toNat + 4 * built.toNat + 8 * ovr.toNat + 2 ^ 8 * err.toNat) := by
  have he := err.isLt
  have hbusy := busy.toNat_lt
  have hdone := done.toNat_lt
  have hbuilt := built.toNat_lt
  have hovr := ovr.toNat_lt
  apply BitVec.eq_of_toNat_eq
  simp only [statusWord, toNat_append_eq_add, BitVec.ofNat_eq_ofNat, BitVec.toNat_ofNat, BitVec.toNat_ofBool]
  omega

/-- The register map lists the words at the offsets 4k for k below 26 with their defined values (R31 to R44). -/
theorem registerMap_eq (s : State) :
    registerMap s = (List.range 26).map fun k => (4 * k, regValue (regAt (4 * k)) s) := by
  rw [registerMap, ← paramsWord_eq, ← ctrlWord_eq, ← statusWord_eq, BitVec.ofNat_toNat,
    BitVec.ofNat_toNat]
  rfl

/-- A register of the map whose value is defined reads as the map says, and nothing else changes (R93). -/
theorem busRead_of_mem_registerMap {s : State} {e : Nat × Word} (he : e ∈ registerMap s)
    (h : drawsFree (regAt e.1) s = false) :
    busRead (busBase s.params + e.1) 4 s = .next { s with readData := some e.2 } := by
  rw [registerMap_eq, List.mem_map] at he
  obtain ⟨k, hk, rfl⟩ := he
  have hk : k < 26 := List.mem_range.1 hk
  rw [busRead_register s (by dsimp only; omega) (by dsimp only; omega), readReg_defined h]
  rfl

/-- Settles O13: nothing is drawn while BUSY = 0. -/
theorem registersReadTheirValues : Obligations.RegistersReadTheirValues := fun s hb e he =>
  busRead_of_mem_registerMap he (by rw [drawsFree, hb, Bool.false_and])

/-! ## Reads while BUSY = 1 -/

theorem freeWhileBusy_of_unspecified : ∀ o ∈ unspecifiedOffsets, freeWhileBusy (regAt o) = true := by
  decide

/-- The map's registers outside R47's list are defined while BUSY = 1. -/
theorem drawsFree_of_not_unspecified : ∀ k < 26, 4 * k ∉ unspecifiedOffsets → 4 * k ≠ 0x010 →
    (freeWhileBusy (regAt (4 * k)) || regAt (4 * k) == .status) = false := by
  decide

/-- The bits of STATUS that R47 leaves defined. -/
theorem statusWord_getLsbD (busy done built ovr : Bool) (err : BitVec 8) :
    let v := statusWord busy done built ovr err
    v.getLsbD 0 = busy ∧ v.getLsbD 1 = done ∧ v.getLsbD 3 = ovr ∧
      ∀ b, ((4 ≤ b ∧ b < 8) ∨ 16 ≤ b) → v.getLsbD b = false := by
  refine ⟨statusWord_busy _ _ _ _ _, ?_, ?_, fun b hb => ?_⟩
  · simp only [statusWord, BitVec.getLsbD_append]
    simp
  · simp only [statusWord, BitVec.getLsbD_append]
    simp
  · have h0 : ¬ b < 1 := by omega
    have h1 : ¬ b - 1 < 1 := by omega
    have h2 : ¬ b - 1 - 1 < 1 := by omega
    have h3 : ¬ b - 1 - 1 - 1 < 1 := by omega
    simp only [statusWord, BitVec.getLsbD_append, h0, h1, h2, h3, if_false]
    obtain ⟨-, hlt⟩ | hge := hb
    · rw [if_pos (by omega)]
      exact BitVec.getLsbD_zero
    · rw [if_neg (by omega), if_neg (by omega)]
      exact BitVec.getLsbD_zero

/-- Settles O14: a free register draws a word, STATUS draws one for ERR and BUILT only, and every other register
of the map is defined. -/
theorem busyReadsShowTheDefinedFields : Obligations.BusyReadsShowTheDefinedFields := by
  intro s hs hb
  refine ⟨fun o ho => ?_, ?_, fun e he hu hst => ?_⟩
  · have hd : drawsFree (regAt o) s = true := by
      rw [drawsFree, hb, freeWhileBusy_of_unspecified o ho]; rfl
    have hlt : ∀ o ∈ unspecifiedOffsets, o < 0x10000 ∧ o % 4 = 0 := by decide
    obtain ⟨hlt, hal⟩ := hlt o ho
    exact ⟨_, by rw [busRead_register s hlt hal, readReg_free hd]⟩
  · have hd : drawsFree .status s = true := by rw [drawsFree, hb]; rfl
    refine ⟨busyValue .status (Config.freeWord s.draws) s, ?_, ?_⟩
    · rw [busRead_register s (by decide) (by decide), ← readReg_free hd]; rfl
    · have h := statusWord_getLsbD s.busy s.done ((Config.freeWord s.draws).getLsbD 2) s.ovr
        ((Config.freeWord s.draws).extractLsb' 8 8)
      rw [hs.busyDone hb, hb] at h
      simpa only [busyValue, freeWhileBusy, hb, hs.busyDone hb, if_true, Bool.false_eq_true, if_false] using h
  · refine busRead_of_mem_registerMap he ?_
    rw [registerMap_eq, List.mem_map] at he
    obtain ⟨k, hk, rfl⟩ := he
    rw [drawsFree, drawsFree_of_not_unspecified k (List.mem_range.1 hk) hu hst, Bool.and_false]

/-! ## Reset -/

theorem codecOk_resetWith (p : Params) : CodecOk (State.resetWith p) :=
  ⟨fun _ => ⟨rfl, rfl, rfl⟩, fun h => absurd h Bool.false_ne_true,
    fun h => absurd h Bool.false_ne_true⟩

theorem memOk_resetWith (p : Params) : MemOk (State.resetWith p) :=
  ⟨Memory.reset_wf p, fun _ h => absurd h List.not_mem_nil⟩

/-- Settles O53: one lemma per invariant. -/
theorem resetStateMeetsTheInvariants : Obligations.ResetStateMeetsTheInvariants :=
  ⟨rfl, fun p => ⟨memOk_resetWith p, handshakeOk_resetWith p, countsOk_resetWith p, codecOk_resetWith p⟩⟩

/-- The codec state CLEAR leaves (R141). -/
theorem exec_clear_codec (u v : State) (h : exec .clear u = .next v) :
    v.freq = Vector.replicate 256 0 ∧ v.total = 0 ∧ v.cb = Vector.replicate 257 [] ∧
      v.nodeCount = 0 ∧ v.root = 0 ∧ v.built = false := by
  rw [execClear_next h]
  exact ⟨rfl, rfl, rfl, rfl, rfl, rfl⟩

/-- Settles O52: a reset turn is `applyReset`, whose fields are those of `State.resetWith`. -/
theorem resetGivesTheResetValues : Obligations.ResetGivesTheResetValues := by
  intro s rest hs
  refine ⟨applyReset { s with schedule := rest }, by rw [step, hs], ?_⟩
  simpa [irq, Memory.read_nil] using exec_clear_codec

end Sys2Proof.Machine

/-! PROOFS. The shape and the weights of what seed() and merge() build (42_trie_builder.md R171, R172, R175,
R176). -/

namespace Sys2Proof.Machine

/-! ## The leaves of seed() -/

/-- The symbol id a node holds, if it is a leaf. -/
def nodeSym : Node → Option Nat
  | .leaf _ sym => some sym.toNat
  | .internal _ _ _ => none

theorem leafSym_eq (node : Vector Node 513) (i : Nat) : leafSym node i = node[i]?.bind nodeSym := by
  unfold leafSym
  rcases node[i]? with _ | ⟨w, sym⟩ | ⟨w, l, r⟩ <;> rfl

theorem mem_leavesFrom {s : Nat} {cs : List Word} {x : Node} (hs : s + cs.length ≤ 1024)
    (h : x ∈ leavesFrom s cs) :
    ∃ w sym, x = .leaf w sym ∧ 0 < w.toNat ∧ s ≤ sym.toNat ∧ sym.toNat < s + cs.length := by
  induction cs generalizing s with
  | nil => cases h
  | cons c cs ih =>
    rw [List.length_cons] at hs ⊢
    have tail : x ∈ leavesFrom (s + 1) cs → ∃ w sym, x = .leaf w sym ∧ 0 < w.toNat ∧
        s ≤ sym.toNat ∧ sym.toNat < s + (cs.length + 1) := fun h => by
      obtain ⟨w, sym, rfl, hw, hlo, hhi⟩ := ih (by omega) h
      exact ⟨w, sym, rfl, hw, by omega, by omega⟩
    rw [leavesFrom] at h
    split at h
    · exact tail h
    · obtain rfl | h := List.mem_cons.1 h
      · have hc : (BitVec.ofNat 10 s).toNat = s := by
          rw [BitVec.toNat_ofNat]; exact Nat.mod_eq_of_lt (by omega)
        exact ⟨c, _, rfl, by bv_omega, by omega, by omega⟩
      · exact tail h

theorem length_leavesFrom_le (s : Nat) (cs : List Word) : (leavesFrom s cs).length ≤ cs.length := by
  induction cs generalizing s with
  | nil => exact Nat.le_refl 0
  | cons c cs ih =>
    have := ih (s + 1)
    rw [leavesFrom]
    split <;> simp only [List.length_cons] <;> omega

/-- The leaves of different counters hold different symbols (R171). -/
theorem nodup_leavesFrom {s : Nat} {cs : List Word} (hs : s + cs.length ≤ 1024) :
    ((leavesFrom s cs).map nodeSym).Nodup := by
  induction cs generalizing s with
  | nil => exact List.nodup_nil
  | cons c cs ih =>
    rw [List.length_cons] at hs
    rw [leavesFrom]
    split
    · exact ih (by omega)
    · refine List.nodup_cons.2 ⟨fun h => ?_, ih (by omega)⟩
      obtain ⟨x, hx, heq⟩ := List.mem_map.1 h
      obtain ⟨w, sym, rfl, -, hlo, -⟩ := mem_leavesFrom (by omega) hx
      simp only [nodeSym, Option.some.injEq, BitVec.toNat_ofNat] at heq
      omega

theorem sum_leavesFrom (s : Nat) (cs : List Word) :
    ((leavesFrom s cs).map fun x => (nodeWeight x).toNat).sum = (cs.map BitVec.toNat).sum := by
  induction cs generalizing s with
  | nil => rfl
  | cons c cs ih =>
    rw [leavesFrom]
    split
    · rw [ih, List.map_cons, List.sum_cons, ‹c = 0›]
      exact (Nat.zero_add _).symm
    · rw [List.map_cons, List.map_cons, List.sum_cons, List.sum_cons, ih]
      rfl

theorem length_seedLeaves (freq : Vector Word 256) :
    0 < (seedLeaves freq).length ∧ (seedLeaves freq).length ≤ 257 := by
  have := length_leavesFrom_le 0 freq.toList
  simp only [seedLeaves, List.length_append, List.length_singleton, Vector.length_toList] at *
  omega

theorem mem_seedLeaves {freq : Vector Word 256} {x : Node} (h : x ∈ seedLeaves freq) :
    ∃ w sym, x = .leaf w sym ∧ 0 < w.toNat ∧ sym.toNat ≤ Config.sent := by
  obtain h | h := List.mem_append.1 h
  · obtain ⟨w, sym, rfl, hw, -, hhi⟩ := mem_leavesFrom (by simp) h
    rw [Vector.length_toList] at hhi
    exact ⟨w, sym, rfl, hw, by simp only [Config.sent]; omega⟩
  · rw [List.mem_singleton.1 h]
    exact ⟨_, _, rfl, by decide, by decide⟩

theorem nodup_seedLeaves (freq : Vector Word 256) : ((seedLeaves freq).map nodeSym).Nodup := by
  rw [seedLeaves, List.map_append, List.nodup_append]
  refine ⟨nodup_leavesFrom (by simp), List.nodup_singleton _, fun a ha b hb hab => ?_⟩
  obtain ⟨x, hx, rfl⟩ := List.mem_map.1 ha
  obtain ⟨w, sym, rfl, -, -, hhi⟩ := mem_leavesFrom (by simp) hx
  rw [List.map_singleton, List.mem_singleton] at hb
  rw [Vector.length_toList] at hhi
  simp [hb, nodeSym, Config.sent] at hab
  omega

theorem sum_seedLeaves (freq : Vector Word 256) :
    ((seedLeaves freq).map fun x => (nodeWeight x).toNat).sum =
      (freq.toList.map BitVec.toNat).sum + 1 := by
  rw [seedLeaves, List.map_append, List.sum_append, sum_leavesFrom]
  rfl

theorem seedLeaves_last (freq : Vector Word 256) :
    (seedLeaves freq)[(seedLeaves freq).length - 1]? = some (.leaf 1 (BitVec.ofNat 10 Config.sent)) := by
  rw [← List.getLast?_eq_getElem?, seedLeaves, List.getLast?_concat]

/-! ## The queue as a list -/

theorem queue_nodup (b : Builder) : (queue b).Nodup := List.nodup_range.filter _

theorem push_node_lt {x : Node} {b : Builder} {i : Nat} (h : i < b.n) :
    (push x b).node[i]? = b.node[i]? := by
  rw [push_node, Vector.getElem?_setIfInBounds, if_neg (by omega)]

theorem push_node_self {x : Node} {b : Builder} (h : b.n < 513) : (push x b).node[b.n]? = some x := by
  rw [push_node, Vector.getElem?_setIfInBounds, if_pos rfl, if_pos h]

theorem queue_push {x : Node} {b : Builder} (h : b.n < 513) : queue (push x b) = queue b ++ [b.n] := by
  have hold : ∀ i ∈ List.range b.n, (((push x b).inq[i]? == some true) = (b.inq[i]? == some true)) := by
    intro i hi
    have : i < b.n := List.mem_range.1 hi
    rw [push_inq, Vector.getElem?_setIfInBounds, if_neg (by omega)]
  have hnew : ((push x b).inq[b.n]? == some true) = true := by
    simp [h]
  rw [queue, push_n, List.range_succ, List.filter_append, List.filter_congr hold, List.filter_cons,
    if_pos hnew, List.filter_nil, queue]

theorem queue_dequeue {x : Nat} {b : Builder} : queue (dequeue x b) = (queue b).erase x := by
  rw [(queue_nodup b).erase_eq_filter, queue, queue, List.filter_filter, dequeue_n]
  refine List.filter_congr fun i hi => ?_
  by_cases hx : x = i
  · subst hx
    simp [Vector.getElem?_setIfInBounds]
  · simp [hx, Ne.symm hx]

/-- The builder after one round of merge() that takes `x` and `y` (R172). -/
def mergeRound (x y : Nat) (b : Builder) : Builder :=
  push (parentOf b.node x y) (dequeue y (dequeue x b))

theorem least_two {cp : Byte} {b : Builder} {x y : Nat} (hx : least cp b = some x)
    (hy : least cp (dequeue x b) = some y) : x ∈ queue b ∧ y ∈ queue b ∧ y ≠ x := by
  have hy := mem_queue_dequeue.1 (least_mem hy)
  exact ⟨least_mem hx, hy.1, hy.2⟩

/-- One round takes `x` and `y` out of the queue and puts their parent at its end (R172). -/
theorem queue_mergeRound {b : Builder} {x y : Nat} (hn : b.n < 513) (hx : x ∈ queue b) (hy : y ∈ queue b)
    (hxy : y ≠ x) : ∃ rest, (queue b).Perm (x :: y :: rest) ∧ queue (mergeRound x y b) = rest ++ [b.n] := by
  refine ⟨((queue b).erase x).erase y, ?_, ?_⟩
  · exact (List.perm_cons_erase hx).trans
      ((List.perm_cons_erase ((List.mem_erase_of_ne hxy).2 hy)).cons x)
  · rw [mergeRound, queue_push (by exact hn), queue_dequeue, queue_dequeue]
    rfl

/-- merge() makes a round, or stops with at most one node in the queue (R172). -/
theorem merge_succ_cases (cp : Byte) (k : Nat) (b : Builder) :
    (∃ x y, x ∈ queue b ∧ y ∈ queue b ∧ y ≠ x ∧ merge cp (k + 1) b = merge cp k (mergeRound x y b)) ∨
    ((queue b).length ≤ 1 ∧ merge cp (k + 1) b = b) := by
  obtain ⟨x, y, hx, hy, he⟩ | ⟨hstop, he⟩ := merge_succ cp k b
  · obtain ⟨hx, hy, hxy⟩ := least_two hx hy
    exact .inl ⟨x, y, hx, hy, hxy, he⟩
  · refine .inr ⟨?_, he⟩
    cases hx : least cp b with
    | none => rw [least_eq_none.1 hx]; exact Nat.zero_le 1
    | some x =>
      have hlen := congrArg List.length (least_eq_none.1 (hstop x hx))
      rw [queue_dequeue, List.length_erase_of_mem (least_mem hx), List.length_nil] at hlen
      omega

/-- What every round of merge() keeps holds of what merge() leaves (R172). -/
theorem merge_keeps {P : Builder → Prop} {cp : Byte}
    (round : ∀ b x y, P b → x ∈ queue b → y ∈ queue b → y ≠ x → P (mergeRound x y b))
    {k : Nat} {b : Builder} (h : P b) : P (merge cp k b) := by
  induction k generalizing b with
  | zero => exact h
  | succ k ih =>
    obtain ⟨x, y, hx, hy, hxy, he⟩ | ⟨-, he⟩ := merge_succ_cases cp k b
    · rw [he]; exact ih (round b x y h hx hy hxy)
    · rw [he]; exact h

/-! ## seed() -/

/-- Pushing a list of nodes puts them at the next indices and queues each (R171). -/
theorem foldl_push (xs : List Node) (b : Builder) (h : b.n + xs.length ≤ 513) :
    let b' := xs.foldl (fun b x => push x b) b
    b'.n = b.n + xs.length ∧ (∀ i < b.n, b'.node[i]? = b.node[i]?) ∧
      (∀ k < xs.length, b'.node[b.n + k]? = xs[k]?) ∧
      queue b' = queue b ++ List.range' b.n xs.length := by
  induction xs generalizing b with
  | nil => simp
  | cons x xs ih =>
    rw [List.length_cons] at h ⊢
    obtain ⟨hn, hold, hnew, hq⟩ := ih (push x b) (by rw [push_n]; omega)
    rw [push_n] at hn hold hnew hq
    refine ⟨by rw [List.foldl_cons, hn]; omega, fun i hi => ?_, fun k hk => ?_, ?_⟩
    · rw [List.foldl_cons, hold i (by omega), push_node_lt hi]
    · cases k with
      | zero => rw [List.foldl_cons, Nat.add_zero, hold b.n (by omega), push_node_self (by omega)]; rfl
      | succ k => 
        rw [List.foldl_cons, show b.n + (k + 1) = b.n + 1 + k by omega, hnew k (by omega)]
        rfl
    · rw [List.foldl_cons, hq, queue_push (by omega), List.append_assoc, List.range'_succ]
      rfl

/-! ## The shape of the forest -/

/-- The parents of node `i` among the first `n` nodes. -/
def parentsOf (node : Vector Node 513) (n i : Nat) : List Nat := (List.range n).filter (isChild node i)

/-- What seed() establishes and every round of merge() keeps: the leaves stand at the lowest indices, every later
node is internal with two different children below it, the queued nodes are those that have no parent yet, and
each other node has one (R171, R172, R176). -/
structure Shape (freq : Vector Word 256) (b : Builder) : Prop where
  count : b.n + (queue b).length = 2 * (seedLeaves freq).length
  last : 0 < b.n ∧ b.n - 1 ∈ queue b
  seeded : (seedLeaves freq).length ≤ b.n
  leaves : ∀ i < (seedLeaves freq).length, b.node[i]? = (seedLeaves freq)[i]?
  merged : ∀ i, (seedLeaves freq).length ≤ i → i < b.n → ∃ w left right,
    b.node[i]? = some (.internal w left right) ∧ left.toNat < i ∧ right.toNat < i ∧ left ≠ right
  parents : ∀ i < b.n, (parentsOf b.node b.n i).length = if i ∈ queue b then 0 else 1

/-- Only internal nodes have children. -/
theorem isChild_eq_true {node : Vector Node 513} {i j : Nat} : isChild node i j = true ↔
    ∃ w left right, node[j]? = some (.internal w left right) ∧ (left.toNat = i ∨ right.toNat = i) := by
  unfold isChild
  rcases node[j]? with _ | ⟨w, sym⟩ | ⟨w, l, r⟩ <;> simp

theorem parentsOf_eq_nil {node : Vector Node 513} {n i : Nat}
    (h : ∀ j < n, ∀ w left right, node[j]? = some (.internal w left right) →
      left.toNat ≠ i ∧ right.toNat ≠ i) : parentsOf node n i = [] :=
  List.filter_eq_nil_iff.2 fun j hj hc => by
    obtain ⟨w, l, r, hnode, hlr⟩ := isChild_eq_true.1 hc
    obtain ⟨hl, hr⟩ := h j (List.mem_range.1 hj) w l r hnode
    exact hlr.elim hl hr

/-- seed() pushes leaves only. -/
theorem seedLeaves_ne_internal {freq : Vector Word 256} {i : Nat} {w : Word} {left right : Idx} :
    (seedLeaves freq)[i]? ≠ some (.internal w left right) := fun h => by
  obtain ⟨_, _, hx, -⟩ := mem_seedLeaves (List.mem_of_getElem? h)
  cases hx

/-- seed() makes exactly the leaves, and queues each (R171). -/
theorem seed_spec (node : Vector Node 513) (inq : Vector Bool 513) (freq : Vector Word 256) :
    (seed node inq freq).n = (seedLeaves freq).length ∧
      (∀ i < (seedLeaves freq).length, (seed node inq freq).node[i]? = (seedLeaves freq)[i]?) ∧
      queue (seed node inq freq) = List.range (seedLeaves freq).length := by
  have hle := (length_seedLeaves freq).2
  obtain ⟨hn, -, hleaves, hq⟩ :=
    foldl_push (seedLeaves freq) { node := node, inq := inq, n := 0 } (by dsimp only; omega)
  simp only [Nat.zero_add] at hn hleaves
  exact ⟨hn, hleaves, by rw [seed, hq, List.range_eq_range']; rfl⟩

theorem shape_seed (node : Vector Node 513) (inq : Vector Bool 513) (freq : Vector Word 256) :
    Shape freq (seed node inq freq) := by
  have hpos := (length_seedLeaves freq).1
  obtain ⟨hn, hleaves, hq⟩ := seed_spec node inq freq
  constructor
  case count => rw [hn, hq, List.length_range]; omega
  case last => rw [hn, hq, List.mem_range]; omega
  case seeded => omega
  case leaves => exact hleaves
  case merged => exact fun i hlo hhi => by omega
  case parents =>
    intro i hi
    rw [parentsOf_eq_nil fun j hj w l r hnode => ?_, hq, hn.symm, if_pos (List.mem_range.2 hi)]
    · rfl
    · rw [hleaves j (by omega)] at hnode
      exact absurd hnode seedLeaves_ne_internal

/-! ## One round of merge() -/

/-- An index of the arena fits its stored field (R51). -/
theorem toNat_ofNat_idx {i : Nat} (h : i < 2 ^ 10) : (BitVec.ofNat 10 i).toNat = i := by
  rw [BitVec.toNat_ofNat, Nat.mod_eq_of_lt h]

section
variable {freq : Vector Word 256} {b : Builder} {x y : Nat}

theorem mergeRound_n : (mergeRound x y b).n = b.n + 1 := rfl

theorem mergeRound_node_lt {i : Nat} (h : i < b.n) : (mergeRound x y b).node[i]? = b.node[i]? :=
  push_node_lt (b := dequeue y (dequeue x b)) h

theorem mergeRound_node_self (h : b.n < 513) :
    (mergeRound x y b).node[b.n]? = some (parentOf b.node x y) :=
  push_node_self (b := dequeue y (dequeue x b)) h

theorem mem_queue_mergeRound {i : Nat} (hn : b.n < 513) :
    i ∈ queue (mergeRound x y b) ↔ (i ∈ queue b ∧ ¬ (x = i ∨ y = i)) ∨ i = b.n := by
  rw [mergeRound, mem_queue_push (by exact hn), mem_queue_dequeue, mem_queue_dequeue, dequeue_n, dequeue_n]
  grind

/-- The new node is the parent of `x` and `y` only (R172). -/
theorem isChild_mergeRound_self (hn : b.n < 513) (hx : x < b.n) (hy : y < b.n) (i : Nat) :
    isChild (mergeRound x y b).node i b.n = true ↔ x = i ∨ y = i := by
  have hxi := toNat_ofNat_idx (i := x) (by omega)
  have hyi := toNat_ofNat_idx (i := y) (by omega)
  rw [isChild_eq_true, mergeRound_node_self hn, parentOf]
  constructor
  · rintro ⟨w, l, r, heq, h⟩
    cases heq
    rwa [hxi, hyi] at h
  · exact fun h => ⟨_, _, _, rfl, by rwa [hxi, hyi]⟩

theorem parentsOf_mergeRound (hn : b.n < 513) (hx : x < b.n) (hy : y < b.n) (i : Nat) :
    (parentsOf (mergeRound x y b).node (b.n + 1) i).length =
      (parentsOf b.node b.n i).length + if x = i ∨ y = i then 1 else 0 := by
  have hold : ∀ j ∈ List.range b.n, isChild (mergeRound x y b).node i j = isChild b.node i j := by
    intro j hj
    rw [isChild, isChild, mergeRound_node_lt (List.mem_range.1 hj)]
  rw [parentsOf, parentsOf, List.range_succ, List.filter_append, List.filter_congr hold,
    List.length_append]
  have hnew := isChild_mergeRound_self hn hx hy i
  by_cases hxyi : x = i ∨ y = i
  · simp [hnew.2 hxyi, hxyi]
  · simp [Bool.eq_false_iff.2 (mt hnew.1 hxyi), hxyi]

theorem Shape.internal (h : Shape freq b) {i : Nat} (hi : i < b.n) {w : Word} {left right : Idx}
    (hnode : b.node[i]? = some (.internal w left right)) :
    (seedLeaves freq).length ≤ i ∧ left.toNat < i ∧ right.toNat < i ∧ left ≠ right := by
  have hlo : (seedLeaves freq).length ≤ i := by
    by_contra hlt
    rw [h.leaves i (by omega)] at hnode
    exact seedLeaves_ne_internal hnode
  obtain ⟨_, _, _, hnode', hlr⟩ := h.merged i hlo hi
  rw [hnode'] at hnode
  cases hnode
  exact ⟨hlo, hlr⟩

/-- Two nodes are queued, so there is room for their parent (R176). -/
theorem Shape.room (h : Shape freq b) (hx : x ∈ queue b) (hy : y ∈ queue b) (hxy : y ≠ x) : b.n < 513 := by
  have hc := h.count
  have hls := (length_seedLeaves freq).2
  have hpos : 0 < ((queue b).erase x).length := List.length_pos_of_mem ((List.mem_erase_of_ne hxy).2 hy)
  rw [List.length_erase_of_mem hx] at hpos
  omega

theorem Shape.mergeRound (h : Shape freq b) (hx : x ∈ queue b) (hy : y ∈ queue b) (hxy : y ≠ x) :
    Shape freq (mergeRound x y b) := by
  have hn := h.room hx hy hxy
  have hxn := (mem_queue.1 hx).1
  have hyn := (mem_queue.1 hy).1
  have hseed := h.seeded
  obtain ⟨rest, hperm, hq⟩ := queue_mergeRound hn hx hy hxy
  constructor
  case count =>
    have hlen := hperm.length_eq
    have hc := h.count
    rw [hq, mergeRound_n, List.length_append, List.length_singleton]
    rw [List.length_cons, List.length_cons] at hlen
    omega
  case last => rw [hq, mergeRound_n]; simp
  case seeded => rw [mergeRound_n]; omega
  case leaves => exact fun i hi => by rw [mergeRound_node_lt (by omega), h.leaves i hi]
  case merged =>
    intro i hlo hhi
    rw [mergeRound_n] at hhi
    obtain hhi | rfl := Nat.lt_succ_iff_lt_or_eq.1 hhi
    · rw [mergeRound_node_lt hhi]; exact h.merged i hlo hhi
    · refine ⟨_, _, _, mergeRound_node_self hn, ?_, ?_, fun heq => hxy ?_⟩
      · rwa [toNat_ofNat_idx (by omega)]
      · rwa [toNat_ofNat_idx (by omega)]
      · rw [← toNat_ofNat_idx (i := x) (by omega), heq, toNat_ofNat_idx (by omega)]
  case parents =>
    intro i hi
    rw [mergeRound_n] at hi ⊢
    simp only [parentsOf_mergeRound hn hxn hyn i, mem_queue_mergeRound hn]
    obtain hi | rfl := Nat.lt_succ_iff_lt_or_eq.1 hi
    · rw [h.parents i hi]
      by_cases hxyi : x = i ∨ y = i
      · have hiq : i ∈ queue b := hxyi.elim (· ▸ hx) (· ▸ hy)
        simp [hxyi, hiq, hi.ne]
      · simp [hxyi, hi.ne]
    · rw [parentsOf_eq_nil fun j hj w l r hnode => ?_]
      · simp [hxn.ne, hyn.ne]
      · obtain ⟨-, hl, hr, -⟩ := h.internal hj hnode
        omega

/-! ## Weights -/

/-- The queued weights sum up to `W`, and the weight of every internal node is the exact sum of its children's
(R54, R175). -/
structure Weighted (W : Nat) (b : Builder) : Prop where
  sum : ((queue b).map fun i => (weightAt b.node i).toNat).sum = W
  additive : ∀ i < b.n, ∀ w left right, b.node[i]? = some (.internal w left right) →
    w.toNat = (weightAt b.node left.toNat).toNat + (weightAt b.node right.toNat).toNat

theorem weightAt_mergeRound_lt {i : Nat} (h : i < b.n) :
    weightAt (mergeRound x y b).node i = weightAt b.node i := by
  rw [weightAt, weightAt, mergeRound_node_lt h]

theorem weightAt_mergeRound_self (h : b.n < 513) :
    weightAt (mergeRound x y b).node b.n = weightAt b.node x + weightAt b.node y :=
  weightAt_eq (mergeRound_node_self h)

/-- While the queued weights sum up to less than 2^32, a parent's 32-bit sum is exact and the sum stays (R175). -/
theorem Weighted.mergeRound {W : Nat} (h : Weighted W b) (hs : Shape freq b) (hW : W < 2 ^ 32)
    (hx : x ∈ queue b) (hy : y ∈ queue b) (hxy : y ≠ x) : Weighted W (mergeRound x y b) := by
  have hn := hs.room hx hy hxy
  have hxn := (mem_queue.1 hx).1
  have hyn := (mem_queue.1 hy).1
  obtain ⟨rest, hperm, hq⟩ := queue_mergeRound hn hx hy hxy
  have hsum := (hperm.map fun i => (weightAt b.node i).toNat).sum_eq
  rw [h.sum, List.map_cons, List.map_cons, List.sum_cons, List.sum_cons] at hsum
  have hadd : (weightAt b.node x + weightAt b.node y).toNat =
      (weightAt b.node x).toNat + (weightAt b.node y).toNat := by
    rw [BitVec.toNat_add]
    exact Nat.mod_eq_of_lt (by omega)
  constructor
  case sum =>
    have hrest : rest.map (fun i => (weightAt (Machine.mergeRound x y b).node i).toNat) =
        rest.map fun i => (weightAt b.node i).toNat := List.map_congr_left fun i hi => by
      have hi : i ∈ queue b := hperm.mem_iff.2 (List.mem_cons_of_mem _ (List.mem_cons_of_mem _ hi))
      rw [weightAt_mergeRound_lt (mem_queue.1 hi).1]
    rw [hq, List.map_append, List.sum_append, hrest, List.map_singleton, List.sum_singleton,
      weightAt_mergeRound_self hn, hadd]
    omega
  case additive =>
    intro i hi w l r hnode
    rw [mergeRound_n] at hi
    obtain hi | rfl := Nat.lt_succ_iff_lt_or_eq.1 hi
    · rw [mergeRound_node_lt hi] at hnode
      obtain ⟨-, hl, hr, -⟩ := hs.internal hi hnode
      rw [weightAt_mergeRound_lt (hl.trans hi), weightAt_mergeRound_lt (hr.trans hi)]
      exact h.additive i hi w l r hnode
    · rw [mergeRound_node_self hn, parentOf] at hnode
      cases hnode
      rw [toNat_ofNat_idx (by omega), toNat_ofNat_idx (by omega), weightAt_mergeRound_lt hxn,
        weightAt_mergeRound_lt hyn, hadd]

end

theorem weighted_seed (node : Vector Node 513) (inq : Vector Bool 513) (freq : Vector Word 256) :
    Weighted ((freq.toList.map BitVec.toNat).sum + 1) (seed node inq freq) := by
  obtain ⟨hn, hleaves, hq⟩ := seed_spec node inq freq
  constructor
  case sum =>
    rw [hq, ← sum_seedLeaves]
    congr 1
    refine List.ext_getElem (by simp) fun i hi hi' => ?_
    rw [List.length_map] at hi'
    rw [List.getElem_map, List.getElem_map, List.getElem_range, weightAt, hleaves i hi',
      List.getElem?_eq_getElem hi']
    rfl
  case additive =>
    intro i hi w l r hnode
    rw [hleaves i (by omega)] at hnode
    exact absurd hnode seedLeaves_ne_internal

/-! ## merge() -/

theorem Shape.merge {freq : Vector Word 256} {b : Builder} (h : Shape freq b) (cp : Byte) (k : Nat) :
    Shape freq (merge cp k b) :=
  merge_keeps (fun _ _ _ h hx hy hxy => h.mergeRound hx hy hxy) h

theorem Weighted.merge {freq : Vector Word 256} {b : Builder} {W : Nat} (h : Weighted W b)
    (hs : Shape freq b) (hW : W < 2 ^ 32) (cp : Byte) (k : Nat) : Weighted W (merge cp k b) :=
  (merge_keeps (P := fun b => Shape freq b ∧ Weighted W b)
    (fun _ _ _ h hx hy hxy => ⟨h.1.mergeRound hx hy hxy, h.2.mergeRound h.1 hW hx hy hxy⟩) ⟨hs, h⟩).2

/-- With as many rounds as there are nodes to take, one node is left in the queue (R172, R176). -/
theorem Shape.length_queue_merge {freq : Vector Word 256} {cp : Byte} {k : Nat} {b : Builder}
    (h : Shape freq b) (hk : (queue b).length ≤ k + 1) : (queue (Machine.merge cp k b)).length = 1 := by
  induction k generalizing b with
  | zero =>
    have := List.length_pos_of_mem h.last.2
    rw [Machine.merge]
    omega
  | succ k ih =>
    obtain ⟨x, y, hx, hy, hxy, he⟩ | ⟨hstop, he⟩ := merge_succ_cases cp k b
    · obtain ⟨rest, hperm, hq⟩ := queue_mergeRound (h.room hx hy hxy) hx hy hxy
      have hlen := hperm.length_eq
      rw [List.length_cons, List.length_cons] at hlen
      rw [he]
      refine ih (h.mergeRound hx hy hxy) ?_
      rw [hq, List.length_append, List.length_singleton]
      omega
    · have := List.length_pos_of_mem h.last.2
      rw [he]
      omega

/-- A root left alone in the queue is the last node made (R176). -/
theorem Shape.rootOf_succ {freq : Vector Word 256} {b : Builder} (h : Shape freq b)
    (hq : queue b = [rootOf b]) : rootOf b + 1 = b.n := by
  obtain ⟨hpos, hlast⟩ := h.last
  rw [hq, List.mem_singleton] at hlast
  omega

/-! ## BUILD's trie -/

section
variable (cp : Byte) (node : Vector Node 513) (inq : Vector Bool 513) (freq : Vector Word 256)

theorem shape_buildTrie : Shape freq (buildTrie cp node inq freq) := (shape_seed node inq freq).merge _ _

theorem weighted_buildTrie (h : (freq.toList.map BitVec.toNat).sum ≤ Config.totalMax) :
    Weighted ((freq.toList.map BitVec.toNat).sum + 1) (buildTrie cp node inq freq) := by
  refine (weighted_seed node inq freq).merge (shape_seed node inq freq) ?_ _ _
  simp only [Config.totalMax] at h
  omega

theorem length_queue_buildTrie : (queue (buildTrie cp node inq freq)).length = 1 := by
  refine (shape_seed node inq freq).length_queue_merge ?_
  have hc := (shape_seed node inq freq).count
  have hs := (shape_seed node inq freq).seeded
  omega

/-- The root is the node left in the queue (R170). -/
theorem queue_buildTrie :
    queue (buildTrie cp node inq freq) = [rootOf (buildTrie cp node inq freq)] := by
  obtain ⟨r, hr⟩ := List.length_eq_one_iff.1 (length_queue_buildTrie cp node inq freq)
  rw [rootOf, hr]
  rfl

theorem rootOf_buildTrie : rootOf (buildTrie cp node inq freq) + 1 = (buildTrie cp node inq freq).n :=
  (shape_buildTrie cp node inq freq).rootOf_succ (queue_buildTrie cp node inq freq)

/-- With L leaves there are 2L - 1 nodes (R176). -/
theorem n_buildTrie : (buildTrie cp node inq freq).n + 1 = 2 * (seedLeaves freq).length := by
  have hc := (shape_buildTrie cp node inq freq).count
  rwa [length_queue_buildTrie] at hc

theorem n_buildTrie_le : (buildTrie cp node inq freq).n ≤ 513 := by
  have := n_buildTrie cp node inq freq
  have := length_seedLeaves freq
  omega

end

end Sys2Proof.Machine

/-! PROOFS. What BUILD makes meets the codec invariants (10_state.md R54): the trie is one binary tree
(42_trie_builder.md R176) and the codebook is the trie's (43_codebook.md R200 to R202). -/

namespace Sys2Proof.Machine

/-! ## The trie -/

theorem leafSym_eq_of_lt {freq : Vector Word 256} {b : Builder} (h : Shape freq b) {i : Nat}
    (hi : i < (seedLeaves freq).length) : leafSym b.node i = (seedLeaves freq)[i]?.bind nodeSym := by
  rw [leafSym_eq, h.leaves i hi]

/-- Every node that holds a symbol is one of the leaves of seed(). -/
theorem Shape.lt_of_leafSym {freq : Vector Word 256} {b : Builder} (h : Shape freq b) {i : Nat}
    (hi : i < b.n) (hs : leafSym b.node i ≠ none) : i < (seedLeaves freq).length := by
  by_contra hlo
  obtain ⟨w, l, r, hnode, -⟩ := h.merged i (by omega) hi
  exact hs (by rw [leafSym_eq, hnode]; rfl)

/-- A forest of exact weights that merge() has brought down to one tree is a trie (R54, R176). -/
theorem trieOk_of_shape {freq : Vector Word 256} {b : Builder} {W : Nat} (h : Shape freq b)
    (hw : Weighted W b) (hq : queue b = [rootOf b]) : TrieOk b.node b.n (rootOf b) := by
  have hroot := h.rootOf_succ hq
  have hn : b.n + 1 = 2 * (seedLeaves freq).length := by have := h.count; rwa [hq] at this
  have hle := (length_seedLeaves freq).2
  have hseed := h.seeded
  constructor
  case size => omega
  case rootLast => exact hroot
  case leaves =>
    intro i hi w sym hnode
    have hlt := h.lt_of_leafSym hi (by rw [leafSym_eq, hnode]; exact Option.some_ne_none _)
    rw [h.leaves i hlt] at hnode
    obtain ⟨w', sym', heq, hpos, hsym⟩ := mem_seedLeaves (List.mem_of_getElem? hnode)
    cases heq
    exact ⟨hpos, hsym⟩
  case internals =>
    intro i hi w l r hnode
    obtain ⟨-, hl, hr, hne⟩ := h.internal hi hnode
    exact ⟨hl, hr, hne, hw.additive i hi w l r hnode⟩
  case oneParent =>
    intro i hi
    have hp := h.parents i (by omega)
    rwa [hq, if_neg (by rw [List.mem_singleton]; omega)] at hp
  case distinct =>
    intro i hi j hj hs he
    have hi := h.lt_of_leafSym hi hs
    have hj := h.lt_of_leafSym hj (he ▸ hs)
    rw [leafSym_eq_of_lt h hi, leafSym_eq_of_lt h hj, List.getElem?_eq_getElem hi,
      List.getElem?_eq_getElem hj] at he
    exact (List.Nodup.getElem_inj_iff (nodup_seedLeaves freq) (hi := by simpa) (hj := by simpa)).1
      (by simpa using he)
  case sentinel =>
    have hpos := (length_seedLeaves freq).1
    refine ⟨(seedLeaves freq).length - 1, by omega, ?_⟩
    rw [leafSym_eq_of_lt h (by omega), seedLeaves_last]
    rfl

/-! ## Paths -/

theorem follow_append (node : Vector Node 513) (i : Nat) (p q : Bits) :
    follow node i (p ++ q) = (follow node i p).bind fun j => follow node j q := by
  induction p generalizing i with
  | nil => rfl
  | cons b p ih =>
    rw [List.cons_append, follow, follow]
    split
    · exact ih _
    · rfl

/-- The child of an internal node that a bit leads to (R202). -/
theorem follow_internal {node : Vector Node 513} {i : Nat} {w : Word} {left right : Idx}
    (h : node[i]? = some (.internal w left right)) (b : Bool) (q : Bits) :
    follow node i (b :: q) = follow node (if b then right.toNat else left.toNat) q := by
  rw [follow, h]

/-- A path that takes a bit leaves an internal node. -/
theorem follow_cons {node : Vector Node 513} {i j : Nat} {b : Bool} {q : Bits}
    (h : follow node i (b :: q) = some j) : ∃ w left right, node[i]? = some (.internal w left right) ∧
      follow node (if b then right.toNat else left.toNat) q = some j := by
  rw [follow] at h
  split at h
  · exact ⟨_, _, _, ‹_›, h⟩
  · cases h

section
variable {node : Vector Node 513} {n root : Nat}

theorem TrieOk.child_lt (ht : TrieOk node n root) {i : Nat} (hi : i < n) {w : Word} {left right : Idx}
    (hnode : node[i]? = some (.internal w left right)) (b : Bool) :
    (if b then right.toNat else left.toNat) < i := by
  obtain ⟨hl, hr, -⟩ := ht.internals i hi w left right hnode
  split
  · exact hr
  · exact hl

/-- Every bit of a path leads to a smaller index. -/
theorem TrieOk.length_follow_le (ht : TrieOk node n root) {i j : Nat} {q : Bits} (hi : i < n)
    (h : follow node i q = some j) : q.length + j ≤ i := by
  induction q generalizing i with
  | nil => cases h; simp
  | cons b q ih =>
    obtain ⟨w, l, r, hnode, h⟩ := follow_cons h
    have hc := ht.child_lt hi hnode b
    have := ih (by omega) h
    rw [List.length_cons]
    omega

/-- Where all internal nodes have an index of at least `m`, a path below node `i` is at most as long as there are
internal nodes from `m` to `i` (R202). -/
theorem TrieOk.length_follow_of_internals (ht : TrieOk node n root) {m : Nat}
    (hm : ∀ i < n, ∀ w left right, node[i]? = some (.internal w left right) → m ≤ i) {i j : Nat} {q : Bits}
    (hi : i < n) (hq : q ≠ []) (h : follow node i q = some j) : q.length + m ≤ i + 1 := by
  induction q generalizing i with
  | nil => exact absurd rfl hq
  | cons b q ih =>
    obtain ⟨w, l, r, hnode, h⟩ := follow_cons h
    have hmi := hm i hi w l r hnode
    have hc := ht.child_lt hi hnode b
    rw [List.length_cons]
    by_cases hq : q = []
    · rw [hq, List.length_nil]; omega
    · have := ih (by omega) hq h
      omega

/-- Every node is reached from the root: its parent is, and it has one (R176). -/
theorem TrieOk.reachable (ht : TrieOk node n root) {i : Nat} (hi : i ≤ root) :
    ∃ q, follow node root q = some i := by
  induction hk : root - i using Nat.strong_induction_on generalizing i with
  | _ k ih =>
    obtain rfl | hlt := Nat.eq_or_lt_of_le hi
    · exact ⟨[], rfl⟩
    · have hlast := ht.rootLast
      obtain ⟨p, hp⟩ := List.length_eq_one_iff.1 (ht.oneParent i hlt)
      obtain ⟨hpn, hc⟩ := List.mem_filter.1 (hp ▸ List.mem_singleton_self p)
      have hpn := List.mem_range.1 hpn
      obtain ⟨w, l, r, hnode, hlr⟩ := isChild_eq_true.1 hc
      obtain ⟨hl, hr, -⟩ := ht.internals p hpn w l r hnode
      obtain ⟨q, hq⟩ := ih (root - p) (by omega) (by omega) rfl
      obtain rfl | rfl := hlr
      · exact ⟨q ++ [false], by rw [follow_append, hq, Option.bind_some, follow_internal hnode]; rfl⟩
      · exact ⟨q ++ [true], by rw [follow_append, hq, Option.bind_some, follow_internal hnode]; rfl⟩

/-- A root that is a leaf is the only node (R177). -/
theorem TrieOk.eq_root_of_leaf (ht : TrieOk node n root) (h : leafSym node root ≠ none) {i : Nat}
    (hi : i < n) : i = root := by
  have hlast := ht.rootLast
  obtain ⟨q, hq⟩ := ht.reachable (i := i) (by omega)
  cases q with
  | nil => cases hq; rfl
  | cons b q =>
    obtain ⟨w, l, r, hnode, -⟩ := follow_cons hq
    exact absurd (by rw [leafSym_eq, hnode]; rfl) h

/-- A root that is a leaf is the sentinel's (R177). -/
theorem TrieOk.root_leaf (ht : TrieOk node n root) (h : leafSym node root ≠ none) :
    leafSym node root = some Config.sent := by
  obtain ⟨i, hi, hs⟩ := ht.sentinel
  rwa [ht.eq_root_of_leaf h hi] at hs

theorem TrieOk.leafSym_lt (ht : TrieOk node n root) {i k : Nat} (hi : i < n)
    (h : leafSym node i = some k) : k < 257 := by
  rw [leafSym] at h
  split at h
  next w sym hnode =>
    cases h
    exact Nat.lt_succ_of_le (ht.leaves i hi w sym hnode).2
  next => cases h

end

/-! ## The codebook -/

/-- Every nonempty codeword leads from the root to its symbol's leaf (R202). -/
def PathsOk (node : Vector Node 513) (root : Nat) (cb : Vector Bits 257) : Prop :=
  ∀ k (h : k < 257), cb[k] ≠ [] → (follow node root cb[k]).bind (leafSym node) = some k

theorem pathsOk_visit {node : Vector Node 513} {root d i : Nat} {path : Bits} {cb : Vector Bits 257}
    (hp : follow node root path = some i) (hcb : PathsOk node root cb) :
    PathsOk node root (visit node d i path cb) := by
  induction d generalizing i path cb with
  | zero => exact hcb
  | succ d ih =>
    rw [visit]
    split
    next => exact hcb
    next w sym hnode =>
      intro k hk hne
      rw [Vector.getElem_setIfInBounds] at hne ⊢
      split
      next heq => rw [hp, Option.bind_some, leafSym_eq, hnode, ← heq]; rfl
      next heq => exact hcb k hk (by rwa [if_neg heq] at hne)
    next w l r hnode =>
      have step : ∀ b, follow node root (path ++ [b]) = some (if b then r.toNat else l.toNat) := fun b => by
        rw [follow_append, hp, Option.bind_some, follow_internal hnode]; rfl
      exact ih (step true) (ih (step false) hcb)

/-- Below the root, visit() keeps every codeword nonempty. -/
theorem visit_ne_nil {node : Vector Node 513} {d i k : Nat} {path : Bits} {cb : Vector Bits 257}
    (hk : k < 257) (hp : path ≠ []) (h : cb[k] ≠ []) : (visit node d i path cb)[k] ≠ [] := by
  induction d generalizing i path cb with
  | zero => exact h
  | succ d ih =>
    rw [visit]
    split
    · exact h
    · rw [Vector.getElem_setIfInBounds]
      split
      · exact hp
      · exact h
    · exact ih (by simp) (ih (by simp) h)

/-- visit() gives a codeword to the symbol of every leaf it reaches by a nonempty path (R200). -/
theorem visit_reaches {node : Vector Node 513} {d i j k : Nat} {path q : Bits} {cb : Vector Bits 257}
    (hk : k < 257) (hq : follow node i q = some j) (hj : leafSym node j = some k) (hd : q.length < d)
    (hp : path ++ q ≠ []) : (visit node d i path cb)[k] ≠ [] := by
  induction q generalizing d i path cb with
  | nil =>
    cases hq
    obtain ⟨d, rfl⟩ := Nat.exists_eq_add_one.2 (Nat.zero_lt_of_lt hd)
    rw [leafSym] at hj
    split at hj
    next w sym hnode =>
      cases hj
      rw [visit, hnode]
      simpa using hp
    next => cases hj
  | cons b q ih =>
    obtain ⟨w, l, r, hnode, hq⟩ := follow_cons hq
    obtain ⟨d, rfl⟩ := Nat.exists_eq_add_one.2 (Nat.zero_lt_of_lt hd)
    have hlen : q.length < d := by simpa using hd
    rw [visit, hnode]
    cases b with
    | false => exact visit_ne_nil hk (by simp) (ih hq hlen (by simp))
    | true => exact ih hq hlen (by simp)

theorem deriveCodebook_leaf {node : Vector Node 513} {root k : Nat} (h : leafSym node root = some k) :
    deriveCodebook node root = (Vector.replicate 257 []).setIfInBounds k [false] := by
  rw [leafSym] at h
  split at h
  next w sym hnode => cases h; rw [deriveCodebook, hnode]
  next => cases h

theorem deriveCodebook_internal {node : Vector Node 513} {root : Nat} (h : leafSym node root = none) :
    deriveCodebook node root = visit node 513 root [] (Vector.replicate 257 []) := by
  rw [deriveCodebook]
  split
  next w sym hnode => rw [leafSym, hnode] at h; cases h
  next => rfl

/-- The codebook of a trie whose internal nodes are its last ones, at most 256 of them (R200 to R202). -/
theorem codebookOk_deriveCodebook {node : Vector Node 513} {n root m : Nat} (ht : TrieOk node n root)
    (hm : ∀ i < n, ∀ w left right, node[i]? = some (.internal w left right) → m ≤ i)
    (hn : n ≤ m + 256) : CodebookOk node n root (deriveCodebook node root) := by
  have hsize := ht.size
  have hlast := ht.rootLast
  cases hroot : leafSym node root with
  | some k =>
    have hleaf : leafSym node root ≠ none := by rw [hroot]; exact Option.some_ne_none k
    have hk := ht.root_leaf hleaf
    have hcb := deriveCodebook_leaf hk
    constructor
    case oneLeaf => exact fun _ => hcb
    case paths => exact fun h => absurd h hleaf
    case present =>
      intro i hi j hj
      rw [ht.eq_root_of_leaf hleaf hi, hk] at hj
      cases hj
      exact ⟨by decide, by simp [hcb]⟩
    case short =>
      intro j hj
      rw [hcb, Vector.getElem_setIfInBounds]
      split
      · decide
      · rw [Vector.getElem_replicate]; decide
  | none =>
    have hcb := deriveCodebook_internal hroot
    have hpaths : PathsOk node root (deriveCodebook node root) := by
      rw [hcb]
      exact pathsOk_visit rfl fun k hk hne => absurd (Vector.getElem_replicate hk) hne
    constructor
    case oneLeaf => exact fun h => absurd hroot h
    case paths => exact fun _ => hpaths
    case present =>
      intro i hi k hk
      obtain ⟨q, hq⟩ := ht.reachable (i := i) (by omega)
      have hlen := ht.length_follow_le (by omega) hq
      have hq0 : q ≠ [] := fun h => by
        subst h
        cases hq
        rw [hroot] at hk
        cases hk
      rw [hcb]
      exact ⟨ht.leafSym_lt hi hk, visit_reaches _ hq hk (by omega) hq0⟩
    case short =>
      intro k hk
      by_cases hne : (deriveCodebook node root)[k] = []
      · rw [hne]; exact Nat.zero_le _
      · have hp := hpaths k hk hne
        obtain ⟨j, hj, -⟩ := Option.bind_eq_some_iff.1 hp
        have := ht.length_follow_of_internals hm (by omega) hne hj
        simp only [Config.cwMax]
        omega

/-! ## BUILD -/

section
variable (cp : Byte) (node : Vector Node 513) (inq : Vector Bool 513) (freq : Vector Word 256)

/-- From exact counts BUILD makes a trie (R54, R176). -/
theorem trieOk_buildTrie (h : (freq.toList.map BitVec.toNat).sum ≤ Config.totalMax) :
    TrieOk (buildTrie cp node inq freq).node (buildTrie cp node inq freq).n
      (rootOf (buildTrie cp node inq freq)) :=
  trieOk_of_shape (shape_buildTrie cp node inq freq) (weighted_buildTrie cp node inq freq h)
    (queue_buildTrie cp node inq freq)

/-- From exact counts BUILD makes the trie's codebook (R200). -/
theorem codebookOk_buildTrie (h : (freq.toList.map BitVec.toNat).sum ≤ Config.totalMax) :
    CodebookOk (buildTrie cp node inq freq).node (buildTrie cp node inq freq).n
      (rootOf (buildTrie cp node inq freq))
      (deriveCodebook (buildTrie cp node inq freq).node (rootOf (buildTrie cp node inq freq))) := by
  have hn := n_buildTrie cp node inq freq
  have hls := length_seedLeaves freq
  exact codebookOk_deriveCodebook (trieOk_buildTrie cp node inq freq h)
    (fun i hi w l r hnode => ((shape_buildTrie cp node inq freq).internal hi hnode).1) (by omega)

end

theorem codecOk_installCodec {s : State} (hs : CountsOk s) :
    CodecOk (installCodec (buildTrie s.params.sentinelCp s.node s.inq s.freq) s) := by
  have hsum : (s.freq.toList.map BitVec.toNat).sum ≤ Config.totalMax := hs.sum ▸ hs.bound
  have hroot := rootOf_buildTrie s.params.sentinelCp s.node s.inq s.freq
  have hle := n_buildTrie_le s.params.sentinelCp s.node s.inq s.freq
  have ht := trieOk_buildTrie s.params.sentinelCp s.node s.inq s.freq hsum
  have hc := codebookOk_buildTrie s.params.sentinelCp s.node s.inq s.freq hsum
  generalize buildTrie s.params.sentinelCp s.node s.inq s.freq = b at *
  have hn : (BitVec.ofNat 10 b.n).toNat = b.n := toNat_ofNat_idx (by omega)
  have hr : (BitVec.ofNat 10 (rootOf b)).toNat = rootOf b := toNat_ofNat_idx (by omega)
  constructor
  case unbuilt => exact fun h => absurd h.symm Bool.false_ne_true
  case trie =>
    intro _
    simp only [installCodec, hn, hr]
    exact ht
  case codebook =>
    intro _
    simp only [installCodec, hn, hr]
    exact hc

theorem codecOk_exec {i : Instr} {s t : State} (hs : CountsOk s) (hc : CodecOk s)
    (h : exec i s = .next t) : CodecOk t := by
  cases exec_effect h with
  | clear => exact ⟨fun _ => ⟨rfl, rfl, rfl⟩, fun h => absurd h Bool.false_ne_true,
      fun h => absurd h Bool.false_ne_true⟩
  | counted => exact ⟨hc.unbuilt, hc.trie, hc.codebook⟩
  | built =>
    have hb := codecOk_installCodec hs
    exact ⟨hb.unbuilt, hb.trie, hb.codebook⟩
  | _ => exact ⟨hc.unbuilt, hc.trie, hc.codebook⟩

/-- Settles O56: BUILD makes a trie and its codebook out of exact counts, CLEAR and reset empty the codec, and
nothing else writes it. -/
theorem codecStaysATrieAndItsCodebook : Obligations.CodecStaysATrieAndItsCodebook := by
  intro s t hs hc h
  refine (?_ : CountsOk t ∧ CodecOk t).2
  apply step_keeps (P := fun s => CountsOk s ∧ CodecOk s) (hs := ⟨hs, hc⟩) (h := h)
  case schedule =>
    exact fun s rest ⟨hs, hc⟩ => ⟨⟨hs.sum, hs.bound⟩, ⟨hc.unbuilt, hc.trie, hc.codebook⟩⟩
  case command => exact fun i s t ⟨hs, hc⟩ h => ⟨countsOk_exec hs h, codecOk_exec hs hc h⟩
  case illegal =>
    exact fun s ⟨hs, hc⟩ => ⟨⟨hs.sum, hs.bound⟩, ⟨hc.unbuilt, hc.trie, hc.codebook⟩⟩
  case host => exact fun s t ⟨hs, hc⟩ h => ⟨h.countsOk hs, h.codecOk hc⟩
  case reset =>
    intro s _
    have hs := countsOk_resetWith s.params
    have hc := codecOk_resetWith s.params
    exact ⟨⟨hs.sum, hs.bound⟩, ⟨hc.unbuilt, hc.trie, hc.codebook⟩⟩

end Sys2Proof.Machine

/-! PROOFS. INQ, the arena at and above NODE_COUNT and the latches of an idle engine cannot be observed
(10_state.md R39, R51, R52, R56). -/

namespace Sys2Proof.Machine

/-! ## Functions of the arena read only the nodes in use -/

/-- Two arenas hold the same first `n` nodes. -/
def AgreeBelow (n : Nat) (node node' : Vector Node 513) : Prop := ∀ i < n, node'[i]? = node[i]?

/-- The children of the first `n` nodes are among them. -/
def Closed (n : Nat) (node : Vector Node 513) : Prop :=
  ∀ i < n, ∀ w left right, node[i]? = some (.internal w left right) → left.toNat < n ∧ right.toNat < n

theorem TrieOk.closed {node : Vector Node 513} {n root : Nat} (h : TrieOk node n root) : Closed n node :=
  fun i hi w l r hnode => by
    obtain ⟨hl, hr, -⟩ := h.internals i hi w l r hnode
    omega

theorem Shape.closed {freq : Vector Word 256} {b : Builder} (h : Shape freq b) : Closed b.n b.node :=
  fun i hi w l r hnode => by
    obtain ⟨-, hl, hr, -⟩ := h.internal hi hnode
    omega

section
variable {n : Nat} {node node' : Vector Node 513}

theorem settle_congr (h : AgreeBelow n node node') {root cur : Nat} (hr : root < n) (hc : cur < n)
    (out : List Byte) : settle node' root cur out = settle node root cur out := by
  rw [settle, settle, h cur hc, h root hr]

/-- The walk stands at internal nodes in use only. -/
theorem settle_atNode_lt (hcl : Closed n node) {root cur : Nat} (hr : root < n) (hc : cur < n)
    {out out' : List Byte} {left right : Idx} (h : settle node root cur out = .atNode left right out') :
    left.toNat < n ∧ right.toNat < n := by
  rw [settle] at h
  split at h
  · cases h
  next hnode => cases h; exact hcl cur hc _ _ _ hnode
  · split at h
    · cases h
    · split at h
      · cases h
      next hnode => cases h; exact hcl root hr _ _ _ hnode
      · split at h <;> cases h

theorem walk_congr (h : AgreeBelow n node node') (hcl : Closed n node) {root : Nat} (hr : root < n)
    (m : Memory) (a k : Nat) {cur : Nat} (hc : cur < n) (p : Nat) (out : List Byte) :
    walk node' root m a k cur p out = walk node root m a k cur p out := by
  induction k generalizing cur p out with
  | zero => rw [walk, walk, settle_congr h hr hc]
  | succ k ih =>
    rw [walk, walk, settle_congr h hr hc]
    split
    · rfl
    · rfl
    next left right out' hat =>
      obtain ⟨hl, hrt⟩ := settle_atNode_lt hcl hr hc hat
      split
      · rfl
      next b _ => exact ih (by split; exacts [hrt, hl]) _ _

theorem visit_congr (h : AgreeBelow n node node') (hcl : Closed n node) (d : Nat) {i : Nat} (hi : i < n)
    (path : Bits) (cb : Vector Bits 257) : visit node' d i path cb = visit node d i path cb := by
  induction d generalizing i path cb with
  | zero => rfl
  | succ d ih =>
    rw [visit, visit, h i hi]
    split
    · rfl
    · rfl
    next w l r hnode =>
      obtain ⟨hl, hr⟩ := hcl i hi w l r hnode
      rw [ih hl, ih hr]

theorem deriveCodebook_congr (h : AgreeBelow n node node') (hcl : Closed n node) {root : Nat}
    (hr : root < n) : deriveCodebook node' root = deriveCodebook node root := by
  rw [deriveCodebook, deriveCodebook, h root hr]
  split
  · rfl
  · exact visit_congr h hcl 513 hr _ _

end

/-! ## BUILD reads nothing of the old arena and queue -/

/-- Two builders hold the same nodes and the same queue. -/
structure SameBuilder (b b' : Builder) : Prop where
  n : b'.n = b.n
  node : AgreeBelow b.n b.node b'.node
  inq : ∀ i < b.n, b'.inq[i]? = b.inq[i]?

section
variable {b b' : Builder}

theorem SameBuilder.push (h : SameBuilder b b') (x : Node) : SameBuilder (push x b) (push x b') where
  n := by rw [push_n, push_n, h.n]
  node i hi := by
    rw [push_node, push_node, h.n, Vector.getElem?_setIfInBounds, Vector.getElem?_setIfInBounds]
    split
    · rfl
    · exact h.node i (by rw [push_n] at hi; omega)
  inq i hi := by
    rw [push_inq, push_inq, h.n, Vector.getElem?_setIfInBounds, Vector.getElem?_setIfInBounds]
    split
    · rfl
    · exact h.inq i (by rw [push_n] at hi; omega)

theorem SameBuilder.dequeue (h : SameBuilder b b') (x : Nat) :
    SameBuilder (dequeue x b) (dequeue x b') where
  n := h.n
  node := h.node
  inq i hi := by
    rw [dequeue_inq, dequeue_inq, Vector.getElem?_setIfInBounds, Vector.getElem?_setIfInBounds]
    split
    · rfl
    · exact h.inq i hi

theorem SameBuilder.queue (h : SameBuilder b b') : queue b' = queue b := by
  rw [Machine.queue, Machine.queue, h.n]
  exact List.filter_congr fun i hi => by rw [h.inq i (List.mem_range.1 hi)]

theorem minBy_congr {lt lt' : Nat → Nat → Bool} {l : List Nat}
    (h : ∀ i ∈ l, ∀ j ∈ l, lt' i j = lt i j) : minBy lt' l = minBy lt l := by
  induction l with
  | nil => rfl
  | cons i is ih =>
    rw [minBy, minBy, ih fun a ha c hc => h a (List.mem_cons_of_mem _ ha) c (List.mem_cons_of_mem _ hc)]
    split
    · rfl
    next j hj => rw [h j (List.mem_cons_of_mem _ (minBy_mem hj)) i List.mem_cons_self]

theorem SameBuilder.least (h : SameBuilder b b') (cp : Byte) : least cp b' = least cp b := by
  rw [Machine.least, Machine.least, h.queue]
  refine minBy_congr fun i hi j hj => ?_
  rw [precedes, precedes, h.node i (mem_queue.1 hi).1, h.node j (mem_queue.1 hj).1]

theorem SameBuilder.mergeRound (h : SameBuilder b b') {x y : Nat} (hx : x < b.n) (hy : y < b.n) :
    SameBuilder (mergeRound x y b) (mergeRound x y b') := by
  have hp : parentOf b'.node x y = parentOf b.node x y := by
    rw [parentOf, parentOf, weightAt, weightAt, h.node x hx, h.node y hy]
    rfl
  rw [Machine.mergeRound, Machine.mergeRound, hp]
  exact ((h.dequeue x).dequeue y).push _

theorem SameBuilder.merge (h : SameBuilder b b') (cp : Byte) (k : Nat) :
    SameBuilder (merge cp k b) (merge cp k b') := by
  induction k generalizing b b' with
  | zero => exact h
  | succ k ih =>
    rw [Machine.merge, Machine.merge, h.least]
    split
    · exact h
    next x hx =>
      rw [(h.dequeue x).least]
      split
      · exact h
      next y hy =>
        obtain ⟨hx, hy, -⟩ := least_two hx hy
        exact ih (h.mergeRound (mem_queue.1 hx).1 (mem_queue.1 hy).1)

end

theorem SameBuilder.foldl_push {b b' : Builder} (h : SameBuilder b b') (xs : List Node) :
    SameBuilder (xs.foldl (fun b x => Machine.push x b) b) (xs.foldl (fun b x => Machine.push x b) b') := by
  induction xs generalizing b b' with
  | nil => exact h
  | cons x xs ih => exact ih (h.push x)

theorem sameBuilder_seed (node node' : Vector Node 513) (inq inq' : Vector Bool 513)
    (freq : Vector Word 256) : SameBuilder (seed node inq freq) (seed node' inq' freq) :=
  have start : SameBuilder { node := node, inq := inq, n := 0 } { node := node', inq := inq', n := 0 } :=
    ⟨rfl, fun _ h => absurd h (Nat.not_lt_zero _), fun _ h => absurd h (Nat.not_lt_zero _)⟩
  start.foldl_push _

/-- BUILD overwrites whatever NODE and INQ held (R51, R52, R171). -/
theorem sameBuilder_buildTrie (cp : Byte) (node node' : Vector Node 513) (inq inq' : Vector Bool 513)
    (freq : Vector Word 256) :
    SameBuilder (buildTrie cp node inq freq) (buildTrie cp node' inq' freq) := by
  have h := sameBuilder_seed node node' inq inq' freq
  rw [buildTrie, buildTrie, h.n]
  exact h.merge _ _

theorem SameBuilder.rootOf {b b' : Builder} (h : SameBuilder b b') : rootOf b' = rootOf b := by
  rw [Machine.rootOf, Machine.rootOf, h.queue]

/-! ## Commands -/

/-- `s` with another arena and another queue membership. -/
def withArena (node : Vector Node 513) (inq : Vector Bool 513) (s : State) : State :=
  { s with node := node, inq := inq }

/-- A change of the state applied to the state that a step answers. -/
def mapNext (f : State → State) : Host.Outcome State Fault Refusal → Host.Outcome State Fault Refusal
  | .next s => .next (f s)
  | .fault r => .fault r
  | .refused r => .refused r

/-- While a command is pending, two machines that look the same differ in NODE and INQ only (R39). -/
theorem SameVisible.eq_withArena {s t : State} (h : SameVisible s t) (hb : s.busy = true) :
    t = withArena t.node t.inq s := by
  obtain ⟨hl, hL⟩ := h.pending hb
  cases s
  cases t
  simp only [withArena, State.mk.injEq]
  exact ⟨h.params, h.ie, h.busy, h.done, h.built, h.ovr, h.err, h.args, h.resultLen, h.resultBits, h.errPos,
    h.res0, h.res1, h.cwbits, hl, hL, h.freq, h.total, trivial, h.nodeCount, h.root, trivial, h.cb, h.mem,
    h.host, h.schedule, h.readData, h.draws⟩

/-- A machine with another arena and queue membership looks the same, if the nodes in use are the same. -/
theorem sameVisible_withArena {s : State} {node : Vector Node 513} (inq : Vector Bool 513)
    (h : AgreeBelow s.nodeCount.toNat s.node node) : SameVisible s (withArena node inq s) := by
  constructor
  case node => exact h
  case pending => exact fun _ => ⟨rfl, rfl⟩
  all_goals rfl

theorem mapNext_ite (f : State → State) (c : Prop) [Decidable c] (a b : Host.Outcome State Fault Refusal) :
    mapNext f (if c then a else b) = if c then mapNext f a else mapNext f b :=
  apply_ite (mapNext f) c a b

theorem execDecode_unbuilt {s : State} (h : s.built = false) :
    execDecode s = .next (raiseBulk .notBuilt 0 0 s) := by
  rw [execDecode, h]
  rfl

/-- NODE_READ of no node in use is an error, whatever the arena holds there (R178). -/
theorem execNodeRead_of_le {idx : Nat} {s : State} (h : s.nodeCount.toNat ≤ idx) : execNodeRead idx s =
    if ¬ s.built then .next (raiseError .notBuilt s) else .next (raiseError .badIndex s) := by
  rw [execNodeRead, if_pos h]

section
variable (node : Vector Node 513) (inq : Vector Bool 513) (s : State)

theorem execCount_withArena :
    execCount (withArena node inq s) = mapNext (withArena node inq) (execCount s) := by
  have hread : (withArena node inq s).mem.readBytes (srcAddr (withArena node inq s))
    (srcLen (withArena node inq s)) = s.mem.readBytes (srcAddr s) (srcLen s) := rfl
  rw [execCount, execCount, hread, mapNext_ite, mapNext_ite, mapNext_ite]
  cases s.mem.readBytes (srcAddr s) (srcLen s) <;> rfl

theorem emitStream_withArena (bs : Bits) :
    emitStream bs (withArena node inq s) = withArena node inq (emitStream bs s) := by
  rw [emitStream, emitStream, apply_ite (withArena node inq)]
  rfl

theorem execEncode_withArena :
    execEncode (withArena node inq s) = mapNext (withArena node inq) (execEncode s) := by
  have hcode : translate (withArena node inq s).cb (withArena node inq s).mem
    (srcAddr (withArena node inq s)) (srcLen (withArena node inq s)) 0 =
      translate s.cb s.mem (srcAddr s) (srcLen s) 0 := rfl
  rw [execEncode, execEncode, hcode, mapNext_ite, mapNext_ite]
  simp only [emitStream_withArena]
  cases translate s.cb s.mem (srcAddr s) (srcLen s) 0 <;> rfl

theorem emitSymbols_withArena (out : List Byte) (p : Nat) :
    emitSymbols out p (withArena node inq s) = withArena node inq (emitSymbols out p s) := by
  rw [emitSymbols, emitSymbols, apply_ite (withArena node inq)]
  rfl

theorem execCbLookup_withArena (idx : Nat) :
    execCbLookup idx (withArena node inq s) = mapNext (withArena node inq) (execCbLookup idx s) := by
  rw [execCbLookup, execCbLookup, mapNext_ite, apply_dite (mapNext (withArena node inq))]
  rfl

theorem execFreqRead_withArena (idx : Nat) :
    execFreqRead idx (withArena node inq s) = mapNext (withArena node inq) (execFreqRead idx s) := by
  rw [execFreqRead, execFreqRead, apply_dite (mapNext (withArena node inq))]
  rfl

end

section
variable {s : State} {node : Vector Node 513} (hc : CodecOk s)
  (hn : AgreeBelow s.nodeCount.toNat s.node node) (inq : Vector Bool 513)
include hc hn

/-- DECODE's walk stays among the nodes in use (R54, R242). -/
theorem decodeWalk_withArena (hb : s.built = true) :
    decodeWalk (withArena node inq s) = decodeWalk s := by
  have ht := hc.trie hb
  have hroot : s.root.toNat < s.nodeCount.toNat := by have := ht.rootLast; omega
  exact walk_congr hn ht.closed hroot _ _ _ hroot _ _

theorem execDecode_withArena :
    execDecode (withArena node inq s) = mapNext (withArena node inq) (execDecode s) := by
  cases hb : s.built with
  | false =>
    rw [execDecode_unbuilt hb, execDecode_unbuilt (s := withArena node inq s) hb]
    rfl
  | true =>
    rw [execDecode, execDecode, decodeWalk_withArena hc hn inq hb, mapNext_ite, mapNext_ite]
    simp only [emitSymbols_withArena]
    cases decodeWalk s <;> rfl

omit hc in
/-- NODE_READ reads a node in use (R178). -/
theorem execNodeRead_withArena (idx : Nat) :
    execNodeRead idx (withArena node inq s) = mapNext (withArena node inq) (execNodeRead idx s) := by
  by_cases hi : idx < s.nodeCount.toNat
  · have hnode : (withArena node inq s).node[idx]? = s.node[idx]? := hn idx hi
    rw [execNodeRead, execNodeRead, hnode, mapNext_ite, mapNext_ite]
    cases s.node[idx]? <;> rfl
  · have hle := Nat.le_of_not_lt hi
    rw [execNodeRead_of_le hle, execNodeRead_of_le (s := withArena node inq s) hle, mapNext_ite]
    rfl

/-- No command but BUILD writes the arena, and none reads it beyond the nodes in use (R51, R52). -/
theorem exec_withArena {i : Instr} (hi : i ≠ .build) :
    exec i (withArena node inq s) = mapNext (withArena node inq) (exec i s) := by
  cases i with
  | nop => rfl
  | clear => rfl
  | count => exact execCount_withArena node inq s
  | build => exact absurd rfl hi
  | encode => exact execEncode_withArena node inq s
  | decode => exact execDecode_withArena hc hn inq
  | cbLookup idx => exact execCbLookup_withArena node inq s idx
  | nodeRead idx => exact execNodeRead_withArena hn inq idx
  | freqRead idx => exact execFreqRead_withArena node inq s idx

omit hc in
theorem agreeBelow_exec {i : Instr} {s' : State} (hi : i ≠ .build) (h : exec i s = .next s') :
    AgreeBelow s'.nodeCount.toNat s'.node node := by
  cases exec_effect h with
  | clear => exact fun _ h => absurd h (Nat.not_lt_zero _)
  | built => exact absurd rfl hi
  | _ => exact hn

end

/-- BUILD makes the same codec whatever the arena and the queue held (R174). -/
theorem sameVisible_installCodec {b b' : Builder} {freq : Vector Word 256} (h : SameBuilder b b')
    (hb : Shape freq b) (hroot : rootOf b < b.n) (hn : b.n ≤ 513) (node : Vector Node 513)
    (inq : Vector Bool 513) (s : State) :
    SameVisible (complete errOk (installCodec b s))
      (complete errOk (installCodec b' (withArena node inq s))) := by
  constructor
  case nodeCount => exact congrArg (BitVec.ofNat 10) h.n
  case root => exact congrArg (BitVec.ofNat 10) h.rootOf
  case cb =>
    simp only [complete_cb, installCodec, h.rootOf]
    exact deriveCodebook_congr h.node hb.closed hroot
  case node =>
    intro i hi
    refine h.node i (lt_of_lt_of_eq hi ?_)
    exact toNat_ofNat_idx (by omega)
  case pending => exact fun hb => absurd hb Bool.false_ne_true
  all_goals rfl

theorem execBuild_sameVisible {s s' : State} {node : Vector Node 513} (inq : Vector Bool 513)
    (hn : AgreeBelow s.nodeCount.toNat s.node node) (h : execBuild s = .next s') :
    ∃ t', execBuild (withArena node inq s) = .next t' ∧ SameVisible s' t' := by
  obtain ⟨hb, rfl⟩ | ⟨hb, _, rfl, rfl⟩ := execBuild_next h
  · exact ⟨raiseError .alreadyBuilt (withArena node inq s), if_pos hb,
      sameVisible_withArena (s := raiseError .alreadyBuilt s) inq hn⟩
  · have hroot := rootOf_buildTrie s.params.sentinelCp s.node s.inq s.freq
    exact ⟨_, if_neg (by rw [show (withArena node inq s).built = false from hb]; exact Bool.false_ne_true),
      sameVisible_installCodec (sameBuilder_buildTrie _ _ _ _ _ _) (shape_buildTrie _ _ _ _)
        (by omega) (n_buildTrie_le _ _ _ _) node inq s⟩

/-! ## The engine's turn -/

theorem SameVisible.raiseError {s t : State} (h : SameVisible s t) (e : ErrKind) :
    SameVisible (raiseError e s) (raiseError e t) :=
  { h with err := rfl, busy := rfl, done := rfl, pending := fun hb => absurd hb Bool.false_ne_true }

theorem exec_sameVisible {i : Instr} {s t s' : State} (hc : CodecOk s) (hv : SameVisible s t)
    (hb : s.busy = true) (h : exec i s = .next s') : ∃ t', exec i t = .next t' ∧ SameVisible s' t' := by
  have hn : AgreeBelow s.nodeCount.toNat s.node t.node := hv.node
  rw [hv.eq_withArena hb]
  by_cases hi : i = .build
  · subst hi
    exact execBuild_sameVisible t.inq hn h
  · refine ⟨withArena t.node t.inq s', ?_, sameVisible_withArena t.inq (agreeBelow_exec hn hi h)⟩
    rw [exec_withArena hc hn t.inq hi, h]
    rfl

theorem engineStep_sameVisible {s t s' : State} (hc : CodecOk s) (hv : SameVisible s t)
    (hb : s.busy = true) (h : engineStep s = .next s') :
    ∃ t', engineStep t = .next t' ∧ SameVisible s' t' := by
  rw [engineStep, (hv.pending hb).1]
  obtain ⟨i, hi, h⟩ | ⟨e, he, rfl⟩ := engineStep_next h
  · rw [hi]
    exact exec_sameVisible hc hv hb h
  · rw [he]
    exact ⟨_, rfl, hv.raiseError _⟩

/-! ## The host's turn -/

theorem writeCmd_of_idle (v : Word) {s : State} (h : s.busy = false) : writeCmd v s = accept v s := by
  rw [writeCmd, h]
  rfl

theorem writeCmd_of_busy (v : Word) {s : State} (h : s.busy = true) :
    writeCmd v s = { s with ovr := true } :=
  if_pos h

section
variable {s t : State} (h : SameVisible s t)
include h

theorem SameVisible.regValue (r : Reg) : regValue r t = regValue r s := by
  cases r <;> simp only [Machine.regValue, h.params, h.ie, h.busy, h.done, h.built, h.ovr, h.err, h.args,
    h.resultLen, h.resultBits, h.errPos, h.total, h.nodeCount, h.root, h.res0, h.res1, h.cwbits]

theorem SameVisible.readValue (r : Reg) : readValue r t = readValue r s := by
  simp only [Machine.readValue, busyValue, h.regValue, h.busy, h.done, h.ovr, h.draws]

theorem SameVisible.readReg (r : Reg) : SameVisible (readReg r s) (readReg r t) :=
  { h with
    readData := congrArg some (h.readValue r)
    draws := by
      have hd : drawsFree r t = drawsFree r s := by rw [drawsFree, drawsFree, h.busy]
      rw [Machine.readReg, Machine.readReg, answer_draws, answer_draws, hd, h.draws] }

theorem SameVisible.writeCmd (v : Word) : SameVisible (writeCmd v s) (writeCmd v t) := by
  obtain ⟨hb, hs⟩ | ⟨hb, hs⟩ := writeCmd_cases v s
  · rw [hs, writeCmd_of_idle v (h.busy.trans hb)]
    exact { h with busy := rfl, done := rfl, pending := fun _ => ⟨rfl, h.args⟩ }
  · rw [hs, writeCmd_of_busy v (h.busy.trans hb)]
    exact { h with ovr := rfl }

theorem SameVisible.writeReg (r : Reg) (v : Word) : SameVisible (writeReg r v s) (writeReg r v t) := by
  cases r with
  | ctrl => exact { h with ie := rfl }
  | status =>
    exact { h with done := congrArg (· && !v.getLsbD 1) h.done, ovr := congrArg (· && !v.getLsbD 3) h.ovr }
  | cmd => exact h.writeCmd v
  | srcAddr => exact { h with args := congrArg (fun a : Args => { a with srcAddr := v }) h.args }
  | srcLen => exact { h with args := congrArg (fun a : Args => { a with srcLen := v }) h.args }
  | dstAddr => exact { h with args := congrArg (fun a : Args => { a with dstAddr := v }) h.args }
  | dstCap => exact { h with args := congrArg (fun a : Args => { a with dstCap := v }) h.args }
  | _ => exact h

theorem SameVisible.busRead {addr size : Nat} {s' : State} (ha : busRead addr size s = .next s') :
    ∃ t', busRead addr size t = .next t' ∧ SameVisible s' t' := by
  obtain ⟨o, hr, hal, rfl⟩ | ⟨a, v, hr, hal, hb, hm, rfl⟩ := busRead_next ha
  · rw [← h.params] at hr
    exact ⟨_, busRead_of_registers hr hal, h.readReg _⟩
  · rw [← h.params] at hr
    rw [← h.mem] at hm
    exact ⟨_, busRead_of_dmem hr hal (h.busy.trans hb) hm, { h with readData := rfl }⟩

theorem SameVisible.busWrite {addr size : Nat} {v : Word} {s' : State}
    (ha : busWrite addr size v s = .next s') :
    ∃ t', busWrite addr size v t = .next t' ∧ SameVisible s' t' := by
  obtain ⟨o, hr, hal, rfl⟩ | ⟨a, hr, hal, hb, rfl⟩ := busWrite_next ha
  · rw [← h.params] at hr
    exact ⟨_, busWrite_of_registers hr hal v, h.writeReg _ v⟩
  · rw [← h.params] at hr
    exact ⟨_, busWrite_of_dmem hr hal (h.busy.trans hb) v,
      { h with mem := congrArg (fun m : Memory => m.writeLE a size v) h.mem }⟩

theorem SameVisible.pollStatus (rest : List HostOp) :
    SameVisible (pollStatus rest s) (pollStatus rest t) := by
  have hr := h.readReg .status
  rw [Machine.pollStatus, Machine.pollStatus, h.readValue]
  split
  · exact hr
  · exact { hr with host := rfl }

theorem SameVisible.hostTurn {s' : State} (ha : hostTurn s = .next s') :
    ∃ t', hostTurn t = .next t' ∧ SameVisible s' t' := by
  have hops : ∀ ops, SameVisible { s with host := ops } { t with host := ops } :=
    fun ops => { h with host := rfl }
  rw [Machine.hostTurn, h.host]
  obtain ⟨hs, rfl⟩ | ⟨addr, size, ops, hs, ha⟩ | ⟨addr, size, v, ops, hs, ha⟩ | ⟨ops, hs, rfl⟩ :=
    hostTurn_next ha
  · rw [hs]
    exact ⟨t, rfl, h⟩
  · rw [hs]
    dsimp only [busAccess]
    exact (hops ops).busRead ha
  · rw [hs]
    dsimp only [busAccess]
    exact (hops ops).busWrite ha
  · rw [hs]
    exact ⟨_, rfl, h.pollStatus ops⟩

/-! ## The step -/

theorem SameVisible.applyReset : SameVisible (applyReset s) (applyReset t) := by
  constructor
  case params => exact h.params
  case host => exact h.host
  case schedule => exact h.schedule
  case readData => exact h.readData
  case draws => exact h.draws
  case pending => exact fun hb => absurd hb Bool.false_ne_true
  case node => exact fun _ _ => rfl
  all_goals rfl

theorem SameVisible.engineTurn (hc : CodecOk s) {s' : State} (ha : engineTurn s = .next s') :
    ∃ t', engineTurn t = .next t' ∧ SameVisible s' t' := by
  rw [Machine.engineTurn] at ha ⊢
  by_cases hb : s.busy = true
  · rw [if_pos hb] at ha
    rw [if_pos (h.busy.trans hb)]
    exact engineStep_sameVisible hc h hb ha
  · rw [if_neg hb] at ha
    rw [if_neg (h.busy ▸ hb)]
    cases ha
    exact ⟨t, rfl, h⟩

end

/-- Settles O57: a pending command reads the arena only below NODE_COUNT, BUILD writes it before it reads it, and
the host reads neither it nor INQ nor the latches. -/
theorem hiddenStateIsUnobservable : Obligations.HiddenStateIsUnobservable := by
  intro s t s' hc hv h
  have turn : ∀ rest, SameVisible { s with schedule := rest } { t with schedule := rest } :=
    fun rest => { hv with schedule := rfl }
  have codec : ∀ rest, CodecOk { s with schedule := rest } :=
    fun rest => ⟨hc.unbuilt, hc.trie, hc.codebook⟩
  rw [step] at h ⊢
  rw [hv.schedule]
  split at h
  · by_cases hb : s.busy = true
    · rw [if_pos hb] at h
      rw [if_pos (hv.busy.trans hb)]
      exact engineStep_sameVisible hc hv hb h
    · rw [if_neg hb] at h
      rw [if_neg (hv.busy ▸ hb)]
      exact hv.hostTurn h
  next rest _ => exact (turn rest).hostTurn h
  next rest _ => exact (turn rest).engineTurn (codec rest) h
  next rest _ =>
    cases h
    exact ⟨_, rfl, (turn rest).applyReset⟩

end Sys2Proof.Machine

/-! PROOFS. The host's accesses to DMEM and their stops (20_memory.md R81 to R85, R91, R93, R100), and DMEM's
canonical form (R80). -/

namespace Sys2Proof.Machine

/-! ## Where an access stops -/

theorem regionOf_unmapped (p : Params) {o : Nat} (h : 0x10000 + dmemSize p ≤ o) (ho : o < 2 ^ 24) :
    regionOf p (busBase p + o) = .unmapped := by
  rw [regionOf_offset p ho, if_neg (by simp only [Config.dmemOff]; omega),
    if_neg (by simp only [Config.dmemOff]; omega)]

theorem regionOf_outside {p : Params} {addr : Nat} (h : addr < busBase p ∨ busBase p + 2 ^ 24 ≤ addr) :
    regionOf p addr = .outside :=
  if_pos (h.imp_right Nat.le_sub_of_add_le')

section
variable {s : State} {addr : Nat} (size : Nat) (v : Word)

theorem access_outside (h : regionOf s.params addr = .outside) :
    busRead addr size s = .refused .outsideAperture ∧ busWrite addr size v s = .refused .outsideAperture := by
  rw [busRead, busWrite, h]
  exact ⟨rfl, rfl⟩

theorem access_unmapped (h : regionOf s.params addr = .unmapped) :
    busRead addr size s = .fault .decodeError ∧ busWrite addr size v s = .fault .decodeError := by
  rw [busRead, busWrite, h]
  exact ⟨rfl, rfl⟩

theorem access_registers_misaligned {o : Nat} (h : regionOf s.params addr = .registers o)
    (ha : ¬ regAligned o size) :
    busRead addr size s = .fault .slaveError ∧ busWrite addr size v s = .fault .slaveError := by
  rw [busRead, busWrite, h]
  exact ⟨if_neg ha, if_neg ha⟩

theorem access_dmem_misaligned {a : Nat} (h : regionOf s.params addr = .dmem a)
    (ha : ¬ dmemAligned a size) :
    busRead addr size s = .fault .slaveError ∧ busWrite addr size v s = .fault .slaveError := by
  rw [busRead, busWrite, h]
  exact ⟨if_pos ha, if_pos ha⟩

theorem access_dmem_busy {a : Nat} (h : regionOf s.params addr = .dmem a) (ha : dmemAligned a size)
    (hb : s.busy = true) :
    busRead addr size s = .refused .dmemWhileBusy ∧ busWrite addr size v s = .refused .dmemWhileBusy := by
  rw [busRead, busWrite, h]
  dsimp only
  rw [if_neg (not_not.2 ha), if_neg (not_not.2 ha), if_pos hb, if_pos hb]
  exact ⟨rfl, rfl⟩

end

/-- Settles O17: one lemma per region of the aperture decode and cause. -/
theorem stoppedBusAccesses : Obligations.StoppedBusAccesses := fun s size v =>
  ⟨fun _ ho ha => access_registers_misaligned size v (regionOf_registers s.params ho)
      (not_and_or.2 ha),
    fun _ hlt ha => access_dmem_misaligned size v (regionOf_dmem s.params hlt) ha,
    fun _ hlt ha hb => access_dmem_busy size v (regionOf_dmem s.params hlt) ha hb,
    fun _ hlo hhi => access_unmapped size v (regionOf_unmapped s.params hlo hhi),
    fun _ h => access_outside size v (regionOf_outside h)⟩

/-- A host read of a byte that nothing has written stops (R91). -/
theorem busRead_of_unwritten {s : State} {addr size a k : Nat} (h : regionOf s.params addr = .dmem a)
    (ha : dmemAligned a size) (hb : s.busy = false) (hk : k < size) (hr : s.mem.read (a + k) = none) :
    busRead addr size s = .fault .unwrittenByte := by
  rw [busRead, h]
  dsimp only
  rw [if_neg (not_not.2 ha), hb, if_neg Bool.false_ne_true, Memory.readLE_eq_none.2 ⟨k, hk, hr⟩]

/-! ## Accesses that complete -/

/-- Settles O15: a register read and a DMEM read both end in `answer`, and only the first may draw. -/
theorem readsHaveNoSideEffect : Obligations.ReadsHaveNoSideEffect := by
  intro addr size s t h
  obtain ⟨o, -, -, rfl⟩ | ⟨a, v, -, -, -, -, rfl⟩ := busRead_next h
  · rfl
  · rfl

/-- Byte `j` of a word, as a number (R81). -/
theorem setWidth_ushiftRight_eq_ofNat (v : Word) (j : Nat) :
    (v >>> (8 * j)).setWidth 8 = BitVec.ofNat 8 (v.toNat / 2 ^ (8 * j)) := by
  apply BitVec.eq_of_toNat_eq
  rw [BitVec.toNat_setWidth, BitVec.toNat_ushiftRight, Nat.shiftRight_eq_div_pow, BitVec.toNat_ofNat]

/-- Settles O18: the access is a `writeLE`, whose bytes and frame the laws of DMEM give. -/
theorem dmemWriteIsLittleEndianAndLocal : Obligations.DmemWriteIsLittleEndianAndLocal := by
  intro s a size v hb ha hsize hal
  refine ⟨_, busWrite_of_dmem (regionOf_dmem s.params ha) ⟨hsize, hal⟩ hb v, fun j hj => ?_,
    fun x hx => Memory.read_writeLE_other s.mem v hx, rfl⟩
  rw [Memory.read_writeLE s.mem v hj, setWidth_ushiftRight_eq_ofNat]

/-- One more low byte of a little-endian value (R81). -/
theorem setWidth_or_shiftLeft_eq_ofNat (b : Byte) (n : Nat) :
    b.setWidth 32 ||| BitVec.ofNat 32 n <<< 8 = BitVec.ofNat 32 (b.toNat + 2 ^ 8 * n) := by
  have hb := b.isLt
  have hlow : (b.setWidth 32).toNat = b.toNat := by
    rw [BitVec.toNat_setWidth, Nat.mod_eq_of_lt (by omega)]
  have hshift : (BitVec.ofNat 32 n <<< 8).toNat = 2 ^ 8 * (n % 2 ^ 24) := by
    rw [BitVec.toNat_shiftLeft, BitVec.toNat_ofNat, Nat.shiftLeft_eq]
    omega
  apply BitVec.eq_of_toNat_eq
  rw [BitVec.toNat_or, hlow, hshift, Nat.or_comm, ← Nat.two_pow_add_eq_or_of_lt hb, BitVec.toNat_ofNat]
  omega

theorem holdsBytes_cons {m : Memory} {a : Nat} {b : Byte} {bs : List Byte} :
    holdsBytes m a (b :: bs) ↔ m.read a = some b ∧ holdsBytes m (a + 1) bs := by
  constructor
  · intro h
    refine ⟨h 0 (Nat.succ_pos _), fun k hk => ?_⟩
    rw [Nat.add_right_comm]
    exact h (k + 1) (Nat.succ_lt_succ hk)
  · rintro ⟨hb, hbs⟩ k hk
    cases k with
    | zero => exact hb
    | succ k =>
      rw [← Nat.add_assoc, Nat.add_right_comm]
      exact hbs k (Nat.lt_of_succ_lt_succ hk)

/-- MemRead of bytes that DMEM holds (R81). -/
theorem Memory.readLE_of_holdsBytes {m : Memory} {a : Nat} {bs : List Byte} (h : holdsBytes m a bs) :
    m.readLE a bs.length = some (BitVec.ofNat 32 (leValue bs)) := by
  induction bs generalizing a with
  | nil => rfl
  | cons b bs ih =>
    obtain ⟨hb, hbs⟩ := holdsBytes_cons.1 h
    rw [List.length_cons, Memory.readLE, hb, ih hbs]
    exact congrArg some (setWidth_or_shiftLeft_eq_ofNat b (leValue bs))

/-- Settles O19: the access is a `readLE` of bytes that DMEM holds. -/
theorem dmemReadIsLittleEndian : Obligations.DmemReadIsLittleEndian := fun s _ _ hb ha hsize hal hh =>
  busRead_of_dmem (regionOf_dmem s.params ha) ⟨hsize, hal⟩ hb (Memory.readLE_of_holdsBytes hh)

/-! ## The canonical form -/

theorem MemOk.of_mem_eq {s t : State} (hs : MemOk s) (hm : t.mem = s.mem) (hp : t.params = s.params) :
    MemOk t where
  wf := hm ▸ hs.wf
  bound := by rw [hm, hp]; exact hs.bound

theorem MemOk.writeLE {s : State} (hs : MemOk s) {a n : Nat} (h : a + n ≤ dmemSize s.params) (v : Word) :
    MemOk { s with mem := s.mem.writeLE a n v } where
  wf := Memory.writeLE_wf hs.wf a n v
  bound c hc := by
    obtain ⟨-, hlt⟩ | hold := Memory.mem_writeLE hc
    · exact Nat.lt_of_lt_of_le hlt h
    · exact hs.bound c hold

theorem MemOk.writeBytes {s : State} (hs : MemOk s) {a : Nat} {bs : List Byte}
    (h : a + bs.length ≤ dmemSize s.params) : MemOk { s with mem := s.mem.writeBytes a bs } where
  wf := Memory.writeBytes_wf hs.wf a bs
  bound c hc := by
    obtain ⟨-, hlt⟩ | hold := Memory.mem_writeBytes hc
    · exact Nat.lt_of_lt_of_le hlt h
    · exact hs.bound c hold

/-- Output of at most DST_CAP bytes stays inside DMEM once the range check has passed (R86, R87). -/
theorem dstAddr_add_le {s : State} (hr : rangesOk s) {n : Nat} (h : n ≤ dstCap s) :
    dstAddr s + n ≤ dmemSize s.params :=
  (Nat.add_le_add_left h _).trans hr.2.1

theorem memOk_emitStream {s : State} (hs : MemOk s) (hr : rangesOk s) (bs : Bits) :
    MemOk (emitStream bs s) := by
  obtain ⟨-, h⟩ | ⟨hcap, h⟩ := emitStream_cases bs s
  · rw [h]; exact hs.of_mem_eq rfl rfl
  · rw [h]
    refine MemOk.of_mem_eq (hs.writeBytes ?_) rfl rfl
    rw [length_packBytes]
    exact dstAddr_add_le hr hcap

theorem memOk_emitSymbols {s : State} (hs : MemOk s) (hr : rangesOk s) (out : List Byte) (p : Nat) :
    MemOk (emitSymbols out p s) := by
  obtain ⟨-, h⟩ | ⟨hcap, h⟩ := emitSymbols_cases out p s
  · rw [h]; exact hs.of_mem_eq rfl rfl
  · rw [h]
    exact MemOk.of_mem_eq (hs.writeBytes (dstAddr_add_le hr hcap)) rfl rfl

/-- ENCODE and DECODE write only inside the checked destination; no other command writes DMEM (R86). -/
theorem memOk_exec {i : Instr} {s t : State} (hs : MemOk s) (h : exec i s = .next t) : MemOk t := by
  by_cases he : i = .encode
  · subst he
    obtain ⟨-, rfl⟩ | ⟨-, -, rfl⟩ | ⟨-, -, _, -, rfl⟩ | ⟨-, hr, _, -, rfl⟩ := execEncode_next h
    · exact hs.of_mem_eq rfl rfl
    · exact hs.of_mem_eq rfl rfl
    · exact hs.of_mem_eq rfl rfl
    · exact memOk_emitStream hs hr _
  by_cases hd : i = .decode
  · subst hd
    obtain ⟨-, rfl⟩ | ⟨-, -, rfl⟩ | ⟨-, -, -, rfl⟩ | ⟨-, hr, _, _, -, rfl⟩ := execDecode_next h
    · exact hs.of_mem_eq rfl rfl
    · exact hs.of_mem_eq rfl rfl
    · exact hs.of_mem_eq rfl rfl
    · exact memOk_emitSymbols hs hr _ _
  · exact hs.of_mem_eq (exec_mem h he hd) (exec_sameRest h).params

theorem writeCmd_mem (v : Word) (s : State) : (writeCmd v s).mem = s.mem := by
  obtain ⟨-, h⟩ | ⟨-, h⟩ := writeCmd_cases v s
  · rw [h, accept_mem]
  · rw [h]

theorem writeReg_mem (r : Reg) (v : Word) (s : State) : (writeReg r v s).mem = s.mem := by
  cases r with
  | cmd => exact writeCmd_mem v s
  | _ => rfl

/-- A host access stays inside DMEM because it is aligned (R82). -/
theorem memOk_hostTurn {s t : State} (hs : MemOk s) (h : hostTurn s = .next t) : MemOk t := by
  have hp : t.params = s.params := (hostFrame_hostTurn h).params
  obtain ⟨-, rfl⟩ | ⟨_, _, _, -, h⟩ | ⟨_, _, v, _, -, h⟩ | ⟨rest, -, rfl⟩ := hostTurn_next h
  · exact hs
  · exact hs.of_mem_eq (by rw [readsHaveNoSideEffect _ _ _ _ h]) hp
  · obtain ⟨o, -, -, rfl⟩ | ⟨a, hr, hal, -, rfl⟩ := busWrite_next h
    · exact hs.of_mem_eq (writeReg_mem _ v _) hp
    · exact MemOk.of_mem_eq (hs.writeLE (dmemAligned_le (regionOf_dmem_lt hr) hal) v) rfl rfl
  · obtain h | h := pollStatus_eq rest s
    · rw [h]; exact hs.of_mem_eq rfl rfl
    · rw [h]; exact hs.of_mem_eq rfl rfl

/-- Settles O54: every write of DMEM is a host access or an output range inside DMEM_SIZE, and reset empties it. -/
theorem memoryStaysCanonical : Obligations.MemoryStaysCanonical := by
  intro s t hs h
  have turn : ∀ rest, MemOk { s with schedule := rest } := fun _ => hs.of_mem_eq rfl rfl
  obtain ⟨rest, -, ⟨-, h⟩ | h | ⟨-, rfl⟩ | ⟨-, -, rfl⟩⟩ := step_next h
  · obtain ⟨i, -, h⟩ | ⟨e, -, rfl⟩ := engineStep_next h
    · exact memOk_exec (turn rest) h
    · exact (turn rest).of_mem_eq rfl rfl
  · exact memOk_hostTurn (turn rest) h
  · exact (memOk_resetWith s.params).of_mem_eq rfl rfl
  · exact turn rest

end Sys2Proof.Machine

/-! PROOFS. What COUNT, ENCODE and DECODE stop on or refuse (20_memory.md R87, R88, R91; 60_exceptions.md
R262), and a poll of WAIT (30_encoding.md R122). -/

namespace Sys2Proof.Machine

/-! ## ENCODE's loop -/

theorem prepend_nil (t : Translation) : prepend [] t = t := by cases t <;> rfl

theorem prepend_prepend (c d : Bits) (t : Translation) :
    prepend c (prepend d t) = prepend (c ++ d) t := by
  cases t with
  | bits bs => exact congrArg Translation.bits (List.append_assoc c d bs).symm
  | unknown | unwritten => rfl

theorem codeBits_cons (cb : Vector Bits 257) (b : Byte) (msg : List Byte) :
    codeBits cb (b :: msg) = codeOfByte cb b ++ codeBits cb msg :=
  List.flatMap_cons

/-- Bytes with codewords are translated to them, and the loop goes on behind them (R220). -/
theorem translate_append {cb : Vector Bits 257} {m : Memory} {a i : Nat} {msg : List Byte} (n : Nat)
    (hm : holdsBytes m (a + i) msg) (he : encodable cb msg) :
    translate cb m a (msg.length + n) i =
      prepend (codeBits cb msg) (translate cb m a n (i + msg.length)) := by
  induction msg generalizing i with
  | nil => exact (congrArg (translate cb m a · i) (Nat.zero_add n)).trans (prepend_nil _).symm
  | cons b msg ih =>
    obtain ⟨hb, hm⟩ := holdsBytes_cons.1 hm
    obtain ⟨hcode, he⟩ := List.forall_mem_cons.1 he
    rw [List.length_cons, Nat.add_right_comm, translate, hb]
    dsimp only
    rw [if_neg hcode, ih hm he, prepend_prepend, codeBits_cons, Nat.add_right_comm i, Nat.add_assoc i]

theorem translate_unwritten {cb : Vector Bits 257} {m : Memory} {a n i : Nat}
    (h : m.read (a + i) = none) : translate cb m a (n + 1) i = .unwritten := by
  rw [translate, h]

/-! ## DECODE's walk -/

/-- The bits of the stream at offset `a` from bit `p` on are `bs` (R90). -/
def BitsAt (m : Memory) (a : Nat) : Nat → Bits → Prop
  | _, [] => True
  | p, b :: bs => streamBit m a p = some b ∧ BitsAt m a (p + 1) bs

theorem bitsAt_append {m : Memory} {a p : Nat} {bs cs : Bits} :
    BitsAt m a p (bs ++ cs) ↔ BitsAt m a p bs ∧ BitsAt m a (p + bs.length) cs := by
  induction bs generalizing p with
  | nil => exact (iff_of_eq (true_and _)).symm
  | cons b bs ih =>
    rw [List.cons_append, BitsAt, BitsAt, ih, and_assoc, List.length_cons, Nat.add_right_comm,
      Nat.add_assoc]

theorem bitsAt_of_forall {m : Memory} {a p : Nat} {bs : Bits}
    (h : ∀ r (hr : r < bs.length), streamBit m a (p + r) = some bs[r]) : BitsAt m a p bs := by
  induction bs generalizing p with
  | nil => trivial
  | cons b bs ih =>
    refine ⟨h 0 (Nat.succ_pos _), ih fun r hr => ?_⟩
    rw [Nat.add_right_comm]
    exact h (r + 1) (Nat.succ_lt_succ hr)

theorem bitsAt_of_holdsBits {m : Memory} {a : Nat} {bs : Bits} (h : holdsBits m a bs) : BitsAt m a 0 bs :=
  bitsAt_of_forall fun r hr => (Nat.zero_add r).symm ▸ h r hr

/-- The walk at the node `cur` with `out` emitted needs its next bit at the internal node `i`, with `out'`
emitted (R242). -/
def StandsAt (node : Vector Node 513) (root cur : Nat) (out : List Byte) (i : Nat) (out' : List Byte) : Prop :=
  ∃ w left right, node[i]? = some (.internal w left right) ∧
    settle node root cur out = .atNode left right out'

theorem leafSym_eq_some {node : Vector Node 513} {i k : Nat} (h : leafSym node i = some k) :
    ∃ w sym, node[i]? = some (.leaf w sym) ∧ sym.toNat = k := by
  rw [leafSym] at h
  split at h
  next w sym hnode => exact ⟨w, sym, hnode, Option.some.inj h⟩
  next => cases h

/-- A node of the arena that is no leaf is internal (R51). -/
theorem internal_of_leafSym {node : Vector Node 513} {i : Nat} (hi : i < 513)
    (h : leafSym node i = none) : ∃ w left right, node[i]? = some (.internal w left right) := by
  rw [leafSym_eq, Vector.getElem?_eq_getElem hi] at h
  rw [Vector.getElem?_eq_getElem hi]
  cases hnode : node[i] with
  | leaf w sym => rw [hnode] at h; cases h
  | internal w left right => exact ⟨w, left, right, rfl⟩

section
variable {node : Vector Node 513} {root i cur : Nat} {out out' : List Byte}

theorem standsAt_internal {w : Word} {left right : Idx} (h : node[i]? = some (.internal w left right)) :
    StandsAt node root i out i out :=
  ⟨w, left, right, h, settle_internal h⟩

/-- At a byte's leaf the byte is emitted and the walk stands at the root (R242). -/
theorem standsAt_root_of_leaf {b : Byte} (h : leafSym node cur = some b.toNat)
    (hroot : ∃ w left right, node[root]? = some (.internal w left right)) :
    StandsAt node root cur out root (b :: out) := by
  obtain ⟨w, sym, hnode, hsym⟩ := leafSym_eq_some h
  obtain ⟨v, left, right, hroot⟩ := hroot
  have hb := b.isLt
  have hne : sym.toNat ≠ Config.sent := by simp only [Config.sent]; omega
  have hbyte : sym.setWidth 8 = b := by
    apply BitVec.eq_of_toNat_eq
    rw [BitVec.toNat_setWidth, hsym, Nat.mod_eq_of_lt hb]
  exact ⟨v, left, right, hroot, hbyte ▸ settle_symbol hnode hne hroot⟩

/-- The walk follows the bits of a path (R242). -/
theorem StandsAt.walk_path {m : Memory} {a p j : Nat} {q : Bits} (hat : StandsAt node root cur out i out')
    (hne : q ≠ []) (hq : follow node i q = some j) (hbits : BitsAt m a p q) (k : Nat) :
    walk node root m a (q.length + k) cur p out = walk node root m a k j (p + q.length) out' := by
  induction q generalizing i cur p out with
  | nil => exact absurd rfl hne
  | cons b q ih =>
    obtain ⟨w, left, right, hnode, hset⟩ := hat
    obtain ⟨hbit, hbits⟩ := hbits
    rw [follow_internal hnode] at hq
    rw [List.length_cons, Nat.add_right_comm, walk_bit hset hbit]
    by_cases hnil : q = []
    · subst hnil
      cases hq
      rw [List.length_nil, Nat.zero_add]
    · obtain ⟨b', q', rfl⟩ := List.exists_cons_of_ne_nil hnil
      obtain ⟨v, l, r, hchild, -⟩ := follow_cons hq
      rw [ih (standsAt_internal hchild) hnil hq hbits, Nat.add_assoc, Nat.add_comm 1]

/-- The walk over the codewords of a message emits the message and stands at the root again (R242). -/
theorem StandsAt.walk_message {cb : Vector Bits 257} (hpaths : PathsOk node root cb) {m : Memory}
    {a p : Nat} {msg : List Byte} (hat : StandsAt node root cur out root out') (he : encodable cb msg)
    (hbits : BitsAt m a p (codeBits cb msg)) :
    ∃ cur₁ out₁, StandsAt node root cur₁ out₁ root (msg.reverse ++ out') ∧
      ∀ k, walk node root m a ((codeBits cb msg).length + k) cur p out =
        walk node root m a k cur₁ (p + (codeBits cb msg).length) out₁ := by
  induction msg generalizing cur out out' p with
  | nil => exact ⟨cur, out, hat, fun k => congrArg (walk node root m a · cur p out) (Nat.zero_add k)⟩
  | cons b msg ih =>
    obtain ⟨hcode, he⟩ := List.forall_mem_cons.1 he
    rw [codeBits_cons] at hbits ⊢
    obtain ⟨hb, hbits⟩ := bitsAt_append.1 hbits
    obtain ⟨j, hj, hleaf⟩ := Option.bind_eq_some_iff.1 (hpaths b.toNat _ hcode)
    have hroot : ∃ w left right, node[root]? = some (.internal w left right) := by
      obtain ⟨w, left, right, hroot, -⟩ := hat
      exact ⟨w, left, right, hroot⟩
    obtain ⟨cur₁, out₁, hat₁, hwalk⟩ := ih (standsAt_root_of_leaf hleaf hroot) he hbits
    refine ⟨cur₁, out₁, by rwa [List.reverse_cons, List.append_assoc, List.singleton_append], fun k => ?_⟩
    rw [List.length_append, Nat.add_assoc, hat.walk_path hcode hj hb, hwalk, Nat.add_assoc]

end

/-- DECODE of a stream that begins with the codewords of a message and a path to an internal node has emitted the
message and stands there (R242). -/
theorem decodeWalk_at {s : State} {msg : List Byte} {q : Bits} {i : Nat} (hc : CodecOk s)
    (hb : s.built = true) (he : encodable s.cb msg)
    (hbits : holdsBits s.mem (srcAddr s) (codeBits s.cb msg ++ q))
    (hq : follow s.node s.root.toNat q = some i) (hi : leafSym s.node i = none) :
    ∃ cur out, StandsAt s.node s.root.toNat cur out i msg.reverse ∧
      ∀ k, 8 * srcLen s = (codeBits s.cb msg ++ q).length + k →
        decodeWalk s = walk s.node s.root.toNat s.mem (srcAddr s) k cur (codeBits s.cb msg ++ q).length out := by
  have ht := hc.trie hb
  have hlast := ht.rootLast
  have hsize := ht.size
  have hle := ht.length_follow_le (by omega) hq
  have hroot : leafSym s.node s.root.toNat = none := by
    by_contra hleaf
    rw [ht.eq_root_of_leaf hleaf (i := i) (by omega)] at hi
    exact hleaf hi
  obtain ⟨w, l, r, hnode⟩ := internal_of_leafSym (by omega) hroot
  obtain ⟨w', l', r', hnode'⟩ := internal_of_leafSym (by omega) hi
  obtain ⟨hmsg, hpath⟩ := bitsAt_append.1 (bitsAt_of_holdsBits hbits)
  obtain ⟨cur, out, hat, hwalk⟩ := (standsAt_internal (out := []) hnode).walk_message
    ((hc.codebook hb).paths hroot) he hmsg
  rw [List.append_nil] at hat
  by_cases hnil : q = []
  · subst hnil
    cases hq
    rw [List.append_nil]
    exact ⟨cur, out, hat, fun k hk => by rw [decodeWalk, hk, hwalk, Nat.zero_add]⟩
  · refine ⟨i, msg.reverse, standsAt_internal hnode', fun k hk => ?_⟩
    rw [decodeWalk, hk, List.length_append, Nat.add_assoc, hwalk, hat.walk_path hnil hq hpath,
      Nat.zero_add]

/-! ## Bytes that nothing has written -/

theorem execCount_of_unwritten {s : State} {k : Nat} (hb : s.built = false) (hs : srcOk s)
    (ht : s.total.toNat + srcLen s ≤ Config.totalMax) (hk : k < srcLen s)
    (hr : s.mem.read (srcAddr s + k) = none) : execCount s = .fault .unwrittenByte := by
  rw [execCount, hb, if_neg Bool.false_ne_true, if_neg (not_not.2 hs), if_neg (Nat.not_lt.2 ht),
    Memory.readBytes_eq_none.2 ⟨k, hk, hr⟩]

theorem execEncode_of_unwritten {s : State} (hb : s.built = true) (hr : rangesOk s)
    (h : translate s.cb s.mem (srcAddr s) (srcLen s) 0 = .unwritten) :
    execEncode s = .fault .unwrittenByte := by
  rw [execEncode, if_neg (not_not.2 hb), if_neg (not_not.2 hr), h]

theorem execDecode_of_unwritten {s : State} (hb : s.built = true) (hr : rangesOk s)
    (h : decodeWalk s = .unwritten) : execDecode s = .fault .unwrittenByte := by
  rw [execDecode, if_neg (not_not.2 hb), if_neg (not_not.2 hr), h]

/-- Settles O20: each reader comes to the byte and stops there; ENCODE's loop after the codewords before it,
DECODE's walk at an internal node. -/
theorem unwrittenBytesFault : Obligations.UnwrittenBytesFault := by
  refine ⟨?host, fun s k => execCount_of_unwritten, ?encode, ?decode⟩
  case host =>
    intro s a size k hb ha hsize hal hk hr
    exact busRead_of_unwritten (regionOf_dmem s.params ha) ⟨hsize, hal⟩ hb hk hr
  case encode =>
    intro s pre hb hr he hh hlt hnone
    obtain ⟨n, hn⟩ : ∃ n, srcLen s = pre.length + (n + 1) := ⟨srcLen s - pre.length - 1, by omega⟩
    refine execEncode_of_unwritten hb hr ?_
    rw [hn, translate_append (n + 1) hh he, Nat.zero_add, translate_unwritten hnone]
    rfl
  case decode =>
    intro s msg q i k hc hb hr he hh hlen hq hi hk hnone
    obtain ⟨cur, out, ⟨w, l, r, -, hset⟩, hwalk⟩ := decodeWalk_at hc hb he hh hq hi
    have hbit : streamBit s.mem (srcAddr s) (codeBits s.cb msg ++ q).length = none := by
      rw [hlen, streamBit, Nat.mul_div_cancel_left k (by decide), hnone]
      rfl
    obtain ⟨n, hn⟩ : ∃ n, 8 * srcLen s = (codeBits s.cb msg ++ q).length + (n + 1) :=
      ⟨8 * srcLen s - 8 * k - 1, by omega⟩
    exact execDecode_of_unwritten hb hr ((hwalk _ hn).trans (walk_unwritten hset hbit))

/-! ## The refusals of ENCODE and DECODE -/

theorem execEncode_unbuilt {s : State} (h : s.built = false) :
    execEncode s = .next (raiseBulk .notBuilt 0 0 s) := by
  rw [execEncode, h]
  rfl

theorem execEncode_badRange {s : State} (hb : s.built = true) (h : ¬ rangesOk s) :
    execEncode s = .next (raiseBulk .badRange 0 0 s) := by
  rw [execEncode, if_neg (not_not.2 hb), if_pos h]

theorem execDecode_badRange {s : State} (hb : s.built = true) (h : ¬ rangesOk s) :
    execDecode s = .next (raiseBulk .badRange 0 0 s) := by
  rw [execDecode, if_neg (not_not.2 hb), if_pos h]

/-- The three causes of BAD_RANGE (R87, R88). -/
theorem not_rangesOk_iff {s : State} : ¬ rangesOk s ↔
    dmemSize s.params < srcAddr s + srcLen s ∨ dmemSize s.params < dstAddr s + dstCap s ∨
      overlap (srcAddr s) (srcLen s) (dstAddr s) (dstCap s) := by
  rw [not_and_or, not_and_or, not_not, Nat.not_le, Nat.not_le]

/-- Settles O42: the two commands share their first two checks. -/
theorem encodeAndDecodeRefuseInOrder : Obligations.EncodeAndDecodeRefuseInOrder := by
  intro s i hi
  obtain rfl | rfl := hi
  · exact ⟨execEncode_unbuilt, fun hb h => execEncode_badRange hb (not_rangesOk_iff.2 h)⟩
  · exact ⟨execDecode_unbuilt, fun hb h => execDecode_badRange hb (not_rangesOk_iff.2 h)⟩

/-! ## A poll of WAIT -/

/-- The host moves on its own turn, and when no turn is left and nothing is pending (R123). -/
theorem step_of_hostTurn {s : State} {turns : List Turn}
    (h : s.schedule = .host :: turns ∨ (s.busy = false ∧ s.schedule = [] ∧ turns = [])) :
    step s = hostTurn { s with schedule := turns } := by
  obtain h | ⟨hb, h, rfl⟩ := h
  · rw [step, h]
  · have hs : { s with schedule := [] } = s := by rw [← h]
    rw [hs, step, h, hb]
    rfl

/-- A poll goes on exactly if BUSY = 0 (R122). -/
theorem pollStatus_eq_ite (rest : List HostOp) (s : State) :
    pollStatus rest s = if s.busy then readReg .status s else { readReg .status s with host := rest } := by
  rw [pollStatus, readValue_status_busy]

/-- Settles O59: the poll is a STATUS read, whose bit 0 is BUSY. -/
theorem waitPollChangesOnlyTheHost : Obligations.WaitPollChangesOnlyTheHost := by
  intro s rest turns hw hturn
  have hstep : step s = .next (pollStatus rest { s with schedule := turns }) := by
    rw [step_of_hostTurn hturn, hostTurn, hw]
  refine ⟨_, readValue .status { s with schedule := turns }, hstep, readValue_status_busy _, ?_⟩
  rw [pollStatus_eq_ite]
  cases hb : s.busy with
  | true => rfl
  | false => rfl

end Sys2Proof.Machine

/-! PROOFS. The command word: what decodes, to what, and which words are illegal (30_encoding.md R110 to R118);
the turns that run it (R112, R117, R123). -/

namespace Sys2Proof.Machine

/-! ## The command word -/

/-- The commands that have a word are those whose index fits the IDX field (R110). -/
theorem wf_iff_indexOf_lt {i : Instr} : i.wf ↔ indexOf i < 1024 := by
  cases i with
  | cbLookup | nodeRead | freqRead => exact Iff.rfl
  | _ => exact iff_of_true trivial (by decide)

theorem noIndex_eq_ok {idx : Nat} {i j : Instr} : noIndex idx i = .ok j ↔ idx = 0 ∧ i = j := by
  rw [noIndex]
  split
  next h => rw [Except.ok.injEq, and_iff_right h]
  next h => exact iff_of_false nofun fun ⟨hidx, _⟩ => h hidx

theorem noIndex_eq_error {idx : Nat} {i : Instr} : (∃ e, noIndex idx i = .error e) ↔ idx ≠ 0 := by
  rw [noIndex]
  split
  next h => exact iff_of_false nofun (not_not.2 h)
  next h => exact iff_of_true ⟨_, rfl⟩ h

/-- The opcode map sends exactly a command's own opcode and index to it (R111). -/
theorem decodeOp_eq_ok {op idx : Nat} {i : Instr} :
    decodeOp op idx = .ok i ↔ (opcode i).toNat = op ∧ indexOf i = idx := by
  constructor
  · intro h
    unfold decodeOp at h
    split at h
    case h_10 => cases h
    case h_7 | h_8 | h_9 => cases h; exact ⟨rfl, rfl⟩
    all_goals
      obtain ⟨rfl, rfl⟩ := noIndex_eq_ok.1 h
      exact ⟨rfl, rfl⟩
  · rintro ⟨rfl, rfl⟩
    cases i <;> rfl

/-- The opcode map rejects a reserved opcode, and an index where there must be none (R114, R115). -/
theorem decodeOp_eq_error {op idx : Nat} :
    (∃ e, decodeOp op idx = .error e) ↔ 8 < op ∨ (op < 6 ∧ idx ≠ 0) := by
  unfold decodeOp
  split
  case h_10 =>
    refine iff_of_true ⟨_, rfl⟩ (.inl ?_)
    simp only [imp_false] at *
    omega
  case h_7 | h_8 | h_9 => exact iff_of_false nofun (by omega)
  all_goals
    rw [noIndex_eq_error]
    omega

/-- The words that decode are those with zero reserved fields whose OP and IDX are the command's (R114). -/
theorem decode_eq_ok {w : Word} {i : Instr} : decode w = .ok i ↔
    fieldRsvHi w = 0 ∧ fieldRsvLo w = 0 ∧ opcode i = fieldOp w ∧ indexOf i = (fieldIdx w).toNat := by
  rw [← BitVec.toNat_inj (x := opcode i), ← decodeOp_eq_ok, decode]
  split
  next h => exact iff_of_false nofun fun ⟨hhi, _⟩ => h hhi
  next h =>
    split
    next h' => exact iff_of_false nofun fun ⟨_, hlo, _⟩ => h' hlo
    next h' => rw [and_iff_right (not_not.1 h), and_iff_right (not_not.1 h')]

/-! The four fields by value (R110) -/

theorem toNat_fieldRsvHi (w : Word) : (fieldRsvHi w).toNat = w.toNat / 2 ^ 26 := by
  rw [fieldRsvHi, BitVec.extractLsb'_toNat, Nat.shiftRight_eq_div_pow]
  exact Nat.mod_eq_of_lt (Nat.div_lt_of_lt_mul w.isLt)

theorem toNat_fieldIdx (w : Word) : (fieldIdx w).toNat = w.toNat / 2 ^ 16 % 2 ^ 10 := by
  rw [fieldIdx, BitVec.extractLsb'_toNat, Nat.shiftRight_eq_div_pow]

theorem toNat_fieldRsvLo (w : Word) : (fieldRsvLo w).toNat = w.toNat / 2 ^ 8 % 2 ^ 8 := by
  rw [fieldRsvLo, BitVec.extractLsb'_toNat, Nat.shiftRight_eq_div_pow]

theorem toNat_fieldOp (w : Word) : (fieldOp w).toNat = w.toNat % 2 ^ 8 := by
  rw [fieldOp, BitVec.extractLsb'_toNat, Nat.shiftRight_zero]

/-- A word is its four fields put together (R110). -/
theorem append_fields (w : Word) : fieldRsvHi w ++ fieldIdx w ++ fieldRsvLo w ++ fieldOp w = w := by
  apply BitVec.eq_of_toNat_eq
  simp only [toNat_append_eq_add, toNat_fieldRsvHi, toNat_fieldIdx, toNat_fieldRsvLo, toNat_fieldOp]
  omega

/-- Settles O3: the fields of a command's word are its own (`EncodingFields`), and those are what `decode` reads. -/
theorem encodeThenDecode : Obligations.EncodeThenDecode := by
  intro i hwf
  obtain ⟨hhi, hlo, hop, hidx⟩ := Laws.EncodingFields.of_index_lt i (wf_iff_indexOf_lt.1 hwf) hwf
  exact decode_eq_ok.2 ⟨hhi, hlo, hop.symm, hidx.symm⟩

/-- Settles O4: the word is put together from the fields that `decode` has read. -/
theorem decodeThenEncode : Obligations.DecodeThenEncode := by
  intro w i h
  obtain ⟨hhi, hlo, hop, hidx⟩ := decode_eq_ok.1 h
  refine ⟨wf_iff_indexOf_lt.2 (hidx ▸ (fieldIdx w).isLt), ?_⟩
  rw [encode, hidx, BitVec.ofNat_toNat, BitVec.setWidth_eq, hop, ← hhi, ← hlo, append_fields]

/-- The words that R118 calls illegal are those that `decode` rejects. -/
theorem illegalWord_iff {w : Word} : illegalWord w.toNat ↔ ∃ e, decode w = .error e := by
  have hhi : w.toNat / 2 ^ 26 = 0 ↔ fieldRsvHi w = 0 := by
    rw [← BitVec.toNat_inj, toNat_fieldRsvHi]
    rfl
  have hlo : w.toNat / 2 ^ 8 % 2 ^ 8 = 0 ↔ fieldRsvLo w = 0 := by
    rw [← BitVec.toNat_inj, toNat_fieldRsvLo]
    rfl
  rw [illegalWord, ← toNat_fieldOp, ← toNat_fieldIdx, ← decodeOp_eq_error, decode, Ne, hhi, Ne, hlo]
  split
  next h => exact iff_of_true (.inl h) ⟨_, rfl⟩
  next h =>
    split
    next h' => exact iff_of_true (.inr (.inl h')) ⟨_, rfl⟩
    next h' => simp only [h, h', false_or]

/-- The engine's step with an illegal word (R114, R118). -/
theorem engineStep_of_illegalWord {s : State} (h : illegalWord s.lCmd.toNat) :
    engineStep s = .next (raiseError .illegalCommand s) := by
  obtain ⟨e, he⟩ := illegalWord_iff.1 h
  rw [engineStep, he]

/-- The engine's step with a command's word (R116). -/
theorem engineStep_of_decode {s : State} {i : Instr} (h : decode s.lCmd = .ok i) : engineStep s = exec i s := by
  rw [engineStep, h]

/-- Settles O2: `decode` rejects exactly the illegal words, and a rejection only completes. -/
theorem illegalWordsOnlyReportIllegalCommand : Obligations.IllegalWordsOnlyReportIllegalCommand :=
  ⟨fun _ => illegalWord_iff, fun _ => engineStep_of_illegalWord⟩

/-- Settles O1, by evaluating `decode` at each word. -/
theorem commandWordsDecode : Obligations.CommandWordsDecode :=
  ⟨rfl, rfl, rfl, rfl, rfl, rfl, rfl, rfl, rfl, rfl, rfl, rfl, rfl, rfl, rfl⟩

/-! ## Turns -/

/-- The engine takes its turn while a word is pending: on its own turn, and when no turn is left (R123). -/
theorem step_of_engineStep {s : State} {turns : List Turn} (hb : s.busy = true)
    (h : s.schedule = .engine :: turns ∨ (s.schedule = [] ∧ turns = [])) :
    step s = engineStep { s with schedule := turns } := by
  obtain h | ⟨h, rfl⟩ := h
  · rw [step, h]
    exact if_pos hb
  · have hs : { s with schedule := [] } = s := by rw [← h]
    rw [hs, step, h]
    exact if_pos hb

/-- Settles O5: a turn with a pending word is `engineStep`, of an illegal word or of a command; the host's turn is
its next transaction. -/
theorem stepRunsTheDecodedCommand : Obligations.StepRunsTheDecodedCommand := by
  have last : ∀ s : State, s.busy = true → s.schedule = [] → step s = engineStep s := by
    intro s hb hs
    rw [step_of_engineStep hb (.inr ⟨hs, rfl⟩), ← hs]
  refine ⟨fun s rest hb hs => step_of_engineStep hb (.inl hs), last, fun s rest hb hw hs => ?_,
    fun s hb hw hs => ?_, fun s i rest hb hi hs => ?_, fun s i hb hi hs => ?_, fun s rest hb hs => ?_,
    fun s tx rest ops hs hh => ?_, fun s tx ops hb hs hh => ?_⟩
  · rw [step_of_engineStep hb (.inl hs)]
    exact engineStep_of_illegalWord (s := { s with schedule := rest }) hw
  · rw [last s hb hs]
    exact engineStep_of_illegalWord hw
  · rw [step_of_engineStep hb (.inl hs)]
    exact engineStep_of_decode (s := { s with schedule := rest }) hi
  · rw [last s hb hs, engineStep_of_decode hi]
  · rw [step, hs]
    exact if_neg (hb ▸ Bool.false_ne_true)
  · rw [step_of_hostTurn (.inl hs), hostTurn, hh]
  · rw [step_of_hostTurn (.inr ⟨hb, hs, rfl⟩), hostTurn, hh, ← hs]

/-- Settles O10: two facts about what a command has written. -/
theorem everyCompletionSetsTheFlags : Obligations.EveryCompletionSetsTheFlags := by
  intro i s t h
  obtain ⟨hc, herr⟩ := exec_completed h
  exact ⟨hc, herr, exec_sameRest h⟩

/-- Settles O7: the write is `accept`, whose pending word the engine's step then completes if it is illegal. -/
theorem idleCommandWriteIsAccepted : Obligations.IdleCommandWriteIsAccepted := by
  intro s v hb
  refine ⟨?_, Bool.and_false _, fun hw => engineStep_of_illegalWord (s := accept v s) hw⟩
  rw [busWrite_register s v (by decide) (by decide)]
  exact congrArg _ (writeCmd_of_idle v hb)

end Sys2Proof.Machine

/-! PROOFS. A CMD write during a command (30_encoding.md R113), and the end of WAIT (R122, R300). -/

namespace Sys2Proof.Machine

/-! ## What no command reads or writes -/

/-- The fields that no command reads: OVR, the turns to come, what the host has read and the counter of free
values. -/
structure Rest where
  ovr : Bool
  turns : List Turn
  data : Option Word
  draws : Nat

/-- `s` with these fields as in `r`. -/
def withRest (r : Rest) (s : State) : State :=
  { s with ovr := r.ovr, schedule := r.turns, readData := r.data, draws := r.draws }

section
variable (r : Rest) (s : State)

theorem emitStream_withRest (bs : Bits) :
    emitStream bs (withRest r s) = withRest r (emitStream bs s) := by
  rw [emitStream, emitStream, apply_ite (withRest r)]
  rfl

theorem emitSymbols_withRest (out : List Byte) (p : Nat) :
    emitSymbols out p (withRest r s) = withRest r (emitSymbols out p s) := by
  rw [emitSymbols, emitSymbols, apply_ite (withRest r)]
  rfl

/-- A command ends in the same way whatever these fields hold (R113, R116): the two runs read the same, so they
pass the same checks. -/
theorem exec_withRest (i : Instr) : exec i (withRest r s) = mapNext (withRest r) (exec i s) := by
  cases i with
  | nop | clear => rfl
  | count =>
    have hread : (withRest r s).mem.readBytes (srcAddr (withRest r s)) (srcLen (withRest r s)) =
      s.mem.readBytes (srcAddr s) (srcLen s) := rfl
    rw [exec, exec, execCount, execCount, hread, mapNext_ite, mapNext_ite, mapNext_ite]
    cases s.mem.readBytes (srcAddr s) (srcLen s) <;> rfl
  | build =>
    rw [exec, exec, execBuild, execBuild, mapNext_ite]
    rfl
  | encode =>
    have hcode : translate (withRest r s).cb (withRest r s).mem (srcAddr (withRest r s))
      (srcLen (withRest r s)) 0 = translate s.cb s.mem (srcAddr s) (srcLen s) 0 := rfl
    rw [exec, exec, execEncode, execEncode, hcode, mapNext_ite, mapNext_ite]
    simp only [emitStream_withRest]
    cases translate s.cb s.mem (srcAddr s) (srcLen s) 0 <;> rfl
  | decode =>
    have hwalk : decodeWalk (withRest r s) = decodeWalk s := rfl
    rw [exec, exec, execDecode, execDecode, hwalk, mapNext_ite, mapNext_ite]
    simp only [emitSymbols_withRest]
    cases decodeWalk s <;> rfl
  | cbLookup idx =>
    rw [exec, exec, execCbLookup, execCbLookup, mapNext_ite, apply_dite (mapNext (withRest r))]
    rfl
  | nodeRead idx =>
    have hnode : (withRest r s).node[idx]? = s.node[idx]? := rfl
    rw [exec, exec, execNodeRead, execNodeRead, hnode, mapNext_ite, mapNext_ite]
    cases s.node[idx]? <;> rfl
  | freqRead idx =>
    rw [exec, exec, execFreqRead, execFreqRead, apply_dite (mapNext (withRest r))]
    rfl

theorem engineStep_withRest : engineStep (withRest r s) =
    mapNext (withRest r) (engineStep s) := by
  have hcmd : decode (withRest r s).lCmd = decode s.lCmd := rfl
  rw [engineStep, engineStep, hcmd]
  cases decode s.lCmd with
  | ok i => exact exec_withRest r s i
  | error e => rfl

end

/-- The engine's step completes, and writes nothing of the rest. -/
theorem engineStep_completed {s t : State} (h : engineStep s = .next t) : t.busy = false ∧ SameRest s t := by
  obtain ⟨i, -, h⟩ | ⟨e, -, rfl⟩ := engineStep_next h
  · exact ⟨(exec_completed h).1.busy, exec_sameRest h⟩
  · exact ⟨rfl, rfl, rfl, rfl, rfl, rfl, rfl, rfl, rfl, rfl, rfl⟩

/-! ## OVR -/

theorem regionOf_eq_registers {p : Params} {addr o : Nat} (h : regionOf p addr = .registers o) :
    addr = busBase p + o := by
  unfold regionOf at h
  dsimp only at h
  split at h
  · cases h
  · split at h
    · simp only [Region.registers.injEq] at h
      omega
    · split at h <;> cases h

/-- Only a STATUS write of bit 3 clears OVR (R36). -/
theorem writeReg_ovr {r : Reg} {v : Word} {s : State} (h : s.ovr = true) :
    (writeReg r v s).ovr = true ∨ (r = .status ∧ v.getLsbD 3 = true) := by
  cases r with
  | status =>
    cases hv : v.getLsbD 3 with
    | true => exact .inr ⟨rfl, rfl⟩
    | false => exact .inl (by rw [writeReg, writeStatus, h, hv]; rfl)
  | cmd =>
    obtain ⟨-, hw⟩ | ⟨-, hw⟩ := writeCmd_cases v s
    · exact .inl (by rw [writeReg, hw]; exact h)
    · exact .inl (by rw [writeReg, hw])
  | _ => exact .inl h

/-- The host's turn keeps OVR = 1 but for a STATUS write of bit 3. -/
theorem hostTurn_ovr {s t : State} (hs : s.ovr = true) (h : hostTurn s = .next t) : t.ovr = true ∨
    ∃ w ops, s.host = .bus (.write (busBase s.params + 0x010) 4 w) :: ops ∧ t.host = ops ∧
      w.getLsbD 3 = true := by
  obtain ⟨-, rfl⟩ | ⟨_, _, _, -, h⟩ | ⟨addr, size, w, ops, hh, h⟩ | ⟨ops, -, rfl⟩ := hostTurn_next h
  · exact .inl hs
  · obtain ⟨_, -, -, rfl⟩ | ⟨_, _, -, -, -, -, rfl⟩ := busRead_next h
    · exact .inl hs
    · exact .inl hs
  · obtain ⟨o, hr, ⟨rfl, -⟩, rfl⟩ | ⟨_, -, -, -, rfl⟩ := busWrite_next h
    · refine (writeReg_ovr (s := { s with host := ops }) hs).imp_right fun ⟨hreg, hw⟩ =>
        ⟨w, ops, ?_, by rw [hreg]; rfl, hw⟩
      have ho := regOffset_regAt (o := o) (by rw [hreg]; exact Reg.noConfusion)
      rw [hreg] at ho
      rw [hh, regionOf_eq_registers hr, ← ho]
      rfl
    · exact .inl hs
  · obtain h | h := pollStatus_eq ops s
    · exact .inl (by rw [h]; exact hs)
    · exact .inl (by rw [h]; exact hs)

/-- Settles O8: the write is `writeCmd` of a busy block, no command reads OVR, and only the host's turn and reset
write 0 to it. -/
theorem busyCommandWriteIsDropped : Obligations.BusyCommandWriteIsDropped := by
  refine ⟨fun s v hb => ?_, fun s t h => ?_, fun s t hs h => ?_⟩
  · rw [busWrite_register s v (by decide) (by decide)]
    exact congrArg _ (writeCmd_of_busy v hb)
  · obtain ⟨-, hrest⟩ := engineStep_completed h
    calc engineStep { s with ovr := true }
      _ = mapNext (withRest ⟨true, s.schedule, s.readData, s.draws⟩) (.next t) := by
        rw [← h]; exact engineStep_withRest ⟨true, s.schedule, s.readData, s.draws⟩ s
      _ = .next { t with ovr := true } := by
        rw [← hrest.schedule, ← hrest.readData, ← hrest.draws]; rfl
  · obtain ⟨rest, -, ⟨-, h⟩ | h | ⟨hr, -⟩ | ⟨-, -, rfl⟩⟩ := step_next h
    · obtain ⟨-, hrest⟩ := engineStep_completed h
      exact .inl (hrest.ovr.trans hs)
    · exact (hostTurn_ovr (s := { s with schedule := rest }) hs h).imp_right .inr
    · exact .inr (.inl ⟨rest, hr⟩)
    · exact .inl hs

/-! ## Every command completes -/

/-- ENCODE's loop stops on no byte if all have been written (R91). -/
theorem translate_ne_unwritten {cb : Vector Bits 257} {m : Memory} {a n i : Nat}
    (h : ∀ k < n, m.read (a + (i + k)) ≠ none) : translate cb m a n i ≠ .unwritten := by
  induction n generalizing i with
  | zero => exact nofun
  | succ n ih =>
    obtain ⟨b, hb⟩ := Option.ne_none_iff_exists'.1 (h 0 (Nat.succ_pos n))
    rw [Nat.add_zero] at hb
    have htail := ih (i := i + 1) fun k hk => by
      rw [Nat.add_assoc, Nat.add_comm 1]
      exact h (k + 1) (Nat.succ_lt_succ hk)
    rw [translate, hb]
    dsimp only
    split
    · exact nofun
    · cases ht : translate cb m a n (i + 1) with
      | unwritten => exact absurd ht htail
      | bits | unknown => exact nofun

/-- In a trie the walk stands at a node that needs a bit or at the sentinel's leaf (R242, R245). -/
theorem TrieOk.settle_ne_stuck {node : Vector Node 513} {n root cur : Nat} (ht : TrieOk node n root)
    (hc : cur < n) (out : List Byte) : settle node root cur out ≠ .stuck := by
  have hlast := ht.rootLast
  have hsize := ht.size
  by_cases hroot : leafSym node root = none
  · obtain ⟨v, l, r, hrootNode⟩ := internal_of_leafSym (by omega) hroot
    cases hcur : leafSym node cur with
    | none =>
      obtain ⟨_, _, _, hnode⟩ := internal_of_leafSym (by omega) hcur
      rw [settle_internal hnode]
      exact nofun
    | some k =>
      obtain ⟨w, sym, hnode, -⟩ := leafSym_eq_some hcur
      by_cases hs : sym.toNat = Config.sent
      · rw [settle_sentinel hnode hs]
        exact nofun
      · rw [settle_symbol hnode hs hrootNode]
        exact nofun
  · obtain ⟨w, sym, hnode, hsym⟩ := leafSym_eq_some (ht.root_leaf hroot)
    rw [ht.eq_root_of_leaf hroot hc, settle_sentinel hnode hsym]
    exact nofun

/-- In a trie the walk over written bytes ends (R245, R247). -/
theorem TrieOk.walk_ends {node : Vector Node 513} {n root : Nat} (ht : TrieOk node n root) {m : Memory}
    {a k cur p : Nat} (hc : cur < n) (hm : ∀ q < p + k, streamBit m a q ≠ none) (out : List Byte) :
    walk node root m a k cur p out ≠ .stuck ∧ walk node root m a k cur p out ≠ .unwritten := by
  have hlast := ht.rootLast
  induction k generalizing cur p out with
  | zero =>
    cases hset : settle node root cur out with
    | stuck => exact absurd hset (ht.settle_ne_stuck hc out)
    | stop => rw [walk_stop hset]; exact ⟨nofun, nofun⟩
    | atNode => rw [walk_truncated hset]; exact ⟨nofun, nofun⟩
  | succ k ih =>
    cases hset : settle node root cur out with
    | stuck => exact absurd hset (ht.settle_ne_stuck hc out)
    | stop => rw [walk_stop hset]; exact ⟨nofun, nofun⟩
    | atNode l r out' =>
      obtain ⟨hl, hr⟩ := settle_atNode_lt ht.closed (by omega) hc hset
      obtain ⟨b, hb⟩ := Option.ne_none_iff_exists'.1 (hm p (by omega))
      rw [walk_bit hset hb]
      exact ih (by split; exacts [hr, hl]) (fun q hq => hm q (by omega)) out'

theorem execBuild_completes (s : State) : ∃ t, execBuild s = .next t := by
  rw [execBuild]
  split <;> exact ⟨_, rfl⟩

theorem execCbLookup_completes (idx : Nat) (s : State) : ∃ t, execCbLookup idx s = .next t := by
  rw [execCbLookup]
  split
  · exact ⟨_, rfl⟩
  · split <;> exact ⟨_, rfl⟩

theorem execFreqRead_completes (idx : Nat) (s : State) : ∃ t, execFreqRead idx s = .next t := by
  rw [execFreqRead]
  split <;> exact ⟨_, rfl⟩

/-- The arena of a trie holds every node below NODE_COUNT (R178). -/
theorem execNodeRead_completes {s : State} (hc : CodecOk s) (idx : Nat) :
    ∃ t, execNodeRead idx s = .next t := by
  rw [execNodeRead]
  split
  · exact ⟨_, rfl⟩
  next hb =>
    split
    · exact ⟨_, rfl⟩
    next hi =>
      have hsize := (hc.trie (not_not.1 hb)).size
      rw [Vector.getElem?_eq_getElem (by omega)]
      exact ⟨_, rfl⟩

section
variable {s : State} (hm : ∀ k < srcLen s, s.mem.read (srcAddr s + k) ≠ none)
include hm

theorem execCount_completes : ∃ t, execCount s = .next t := by
  have hread : s.mem.readBytes (srcAddr s) (srcLen s) ≠ none := fun h => by
    obtain ⟨k, hk, hnone⟩ := Memory.readBytes_eq_none.1 h
    exact hm k hk hnone
  obtain ⟨bs, hbs⟩ := Option.ne_none_iff_exists'.1 hread
  rw [execCount, hbs]
  split
  · exact ⟨_, rfl⟩
  · split
    · exact ⟨_, rfl⟩
    · split <;> exact ⟨_, rfl⟩

theorem execEncode_completes : ∃ t, execEncode s = .next t := by
  have hcode : translate s.cb s.mem (srcAddr s) (srcLen s) 0 ≠ .unwritten :=
    translate_ne_unwritten fun k hk => by rw [Nat.zero_add]; exact hm k hk
  rw [execEncode]
  split
  · exact ⟨_, rfl⟩
  · split
    · exact ⟨_, rfl⟩
    · split
      next h => exact absurd h hcode
      · exact ⟨_, rfl⟩
      · exact ⟨_, rfl⟩

theorem execDecode_completes (hc : CodecOk s) : ∃ t, execDecode s = .next t := by
  cases hb : s.built with
  | false => exact ⟨_, execDecode_unbuilt hb⟩
  | true =>
    have ht := hc.trie hb
    have hlast := ht.rootLast
    obtain ⟨hstuck, hunwritten⟩ : decodeWalk s ≠ .stuck ∧ decodeWalk s ≠ .unwritten := by
      refine ht.walk_ends (by omega) (fun q hq => ?_) []
      exact mt Option.map_eq_none_iff.1 (hm (q / 8) (by omega))
    rw [execDecode]
    split
    · exact ⟨_, rfl⟩
    · split
      · exact ⟨_, rfl⟩
      · split
        next h => exact absurd h hunwritten
        next h => exact absurd h hstuck
        · exact ⟨_, rfl⟩
        · exact ⟨_, rfl⟩

end

/-- Every command completes in a state that meets the codec invariants, if its source bytes have been written
(R245, R247, R300). -/
theorem exec_completes {i : Instr} {s : State} (hc : CodecOk s)
    (hm : i = .count ∨ i = .encode ∨ i = .decode → ∀ k < srcLen s, s.mem.read (srcAddr s + k) ≠ none) :
    ∃ t, exec i s = .next t := by
  cases i with
  | nop | clear => exact ⟨_, rfl⟩
  | count => exact execCount_completes (hm (.inl rfl))
  | build => exact execBuild_completes s
  | encode => exact execEncode_completes (hm (.inr (.inl rfl)))
  | decode => exact execDecode_completes (hm (.inr (.inr rfl))) hc
  | cbLookup idx => exact execCbLookup_completes idx s
  | nodeRead idx => exact execNodeRead_completes hc idx
  | freqRead idx => exact execFreqRead_completes idx s

/-! ## WAIT -/

theorem run_of_step {s t : State} (h : step s = .next t) (k : Nat) : core.run (k + 1) s = core.run k t := by
  have hstep : core.step s = .next t := h
  simp only [Host.Core.run, hstep]

/-- The host's turn in a WAIT is a poll (R122). -/
theorem step_of_wait {s : State} {rest : List HostOp} {turns : List Turn} (hw : s.host = .wait :: rest)
    (h : s.schedule = .host :: turns ∨ (s.busy = false ∧ s.schedule = [] ∧ turns = [])) :
    step s = .next (pollStatus rest { s with schedule := turns }) := by
  rw [step_of_hostTurn h, hostTurn, hw]

/-- While a command is pending, the polls of a WAIT change only what the host has read, the counter of free values
and the turns to come (R122). -/
theorem run_polls {s : State} {rest : List HostOp} {n : Nat} (hb : s.busy = true)
    (hw : s.host = .wait :: rest) (hs : s.schedule = List.replicate n .host) (k : Nat) :
    ∃ data draws, core.run (n + k) s = core.run k (withRest ⟨s.ovr, [], data, draws⟩ s) := by
  induction n generalizing s with
  | zero =>
    refine ⟨s.readData, s.draws, ?_⟩
    have hsame : withRest ⟨s.ovr, s.schedule, s.readData, s.draws⟩ s = s := rfl
    rw [Nat.zero_add, show [] = s.schedule from hs.symm, hsame]
  | succ n ih =>
    have hpoll : step s = .next (readReg .status { s with schedule := List.replicate n .host }) := by
      rw [step_of_wait hw (.inl hs), pollStatus_eq_ite, if_pos hb]
    obtain ⟨data, draws, hrun⟩ :=
      ih (s := readReg .status { s with schedule := List.replicate n .host }) hb hw rfl
    exact ⟨data, draws, by rw [Nat.add_right_comm, run_of_step hpoll, hrun]; rfl⟩

/-- The poll after the completion ends the WAIT (R122). -/
theorem step_poll_of_idle {s : State} {rest : List HostOp} (hb : s.busy = false)
    (hw : s.host = .wait :: rest) (hs : s.schedule = []) :
    step s = .next { readReg .status s with host := rest } := by
  rw [step_of_wait hw (.inr ⟨hb, hs, rfl⟩), ← hs, pollStatus_eq_ite, if_neg (hb ▸ Bool.false_ne_true)]

/-- Settles O6: the polls leave the pending word as it is, the engine's step completes, and the next poll reads
BUSY = 0. -/
theorem waitEndsWhenTheCommandCompletes : Obligations.WaitEndsWhenTheCommandCompletes := by
  intro n s rest hb hcmd hw hs
  obtain ⟨u, hu⟩ : ∃ u, engineStep s = .next u := by
    obtain hill | ⟨i, hi, hi'⟩ := hcmd
    · exact ⟨_, engineStep_of_illegalWord hill⟩
    · rw [engineStep_of_decode hi]
      obtain rfl | rfl | rfl | ⟨k, rfl⟩ | ⟨k, rfl⟩ | ⟨hc, hm⟩ := hi'
      · exact ⟨_, rfl⟩
      · exact ⟨_, rfl⟩
      · exact execBuild_completes s
      · exact execCbLookup_completes k s
      · exact execFreqRead_completes k s
      · exact exec_completes hc hm
  obtain ⟨hub, hrest⟩ := engineStep_completed hu
  obtain ⟨data, draws, hrun⟩ := run_polls hb hw hs 2
  have hengine : step (withRest ⟨s.ovr, [], data, draws⟩ s) = .next (withRest ⟨s.ovr, [], data, draws⟩ u) := by
    rw [step_of_engineStep (s := withRest ⟨s.ovr, [], data, draws⟩ s) hb (.inr ⟨rfl, rfl⟩)]
    exact (engineStep_withRest ⟨s.ovr, [], data, draws⟩ s).trans (by rw [hu]; rfl)
  have hpoll := step_poll_of_idle (s := withRest ⟨s.ovr, [], data, draws⟩ u) hub (hrest.host.trans hw) rfl
  rw [run_of_step hengine, run_of_step hpoll] at hrun
  exact ⟨_, u, hrun, hub, hu, by rw [← hrest.ovr]; rfl⟩

end Sys2Proof.Machine

/-! PROOFS. NOP and CLEAR (40_control.md R140, R141). -/

namespace Sys2Proof.Machine

/-- CLEAR refuses nothing (R141). -/
theorem exec_clear (s : State) : exec .clear s = .next (complete errOk (clearCodec s)) := rfl

/-- Settles O21: NOP is its completion, which writes ERR, BUSY and DONE only. -/
theorem nopOnlyCompletes : Obligations.NopOnlyCompletes := fun _ => rfl

/-- Settles O22: the codec is the one `exec_clear_codec` names, and the frame is what the frame lemmas of the
commands leave to CLEAR. -/
theorem clearEmptiesTheCodec : Obligations.ClearEmptiesTheCodec := by
  intro s
  have h := exec_clear s
  obtain ⟨hfreq, htotal, hcb, hcount, hroot, hbuilt⟩ := exec_clear_codec s _ h
  obtain ⟨hcompleted, -⟩ := exec_completed h
  refine ⟨_, h, hcompleted, fun k hk => ?_, htotal, fun k hk => ?_, hcount, hroot, hbuilt,
    exec_sameResults h nofun nofun nofun, exec_sameLookup h nofun nofun nofun, exec_sameRest h,
    fun _ => by rw [exec_mem h nofun nofun]⟩
  · simp only [hfreq, Vector.getElem_replicate]
  · simp only [hcb, Vector.getElem_replicate]

end Sys2Proof.Machine

/-! PROOFS. COUNT and FREQ_READ (41_frequency.md R151, R152; 60_exceptions.md R262). -/

namespace Sys2Proof.Machine

/-! ## COUNT's loop -/

/-- One source byte adds 1 to its own counter and leaves the other 255. -/
theorem getElem_bump (freq : Vector Word 256) (b : Byte) {k : Nat} (h : k < 256) :
    (bump freq b)[k] = if b = BitVec.ofNat 8 k then freq[k] + 1 else freq[k] := by
  have hb : b.toNat = k ↔ b = BitVec.ofNat 8 k := by
    rw [← BitVec.toNat_inj, BitVec.toNat_ofNat, Nat.mod_eq_of_lt h]
  rw [bump, Vector.getElem_set]
  split
  next he => subst he; rw [if_pos (hb.1 rfl)]
  next he => rw [if_neg (mt hb.2 he)]

theorem getElem_countBytes (freq : Vector Word 256) (bs : List Byte) {k : Nat} (h : k < 256) :
    (countBytes freq bs)[k] = freq[k] + BitVec.ofNat 32 (bs.count (BitVec.ofNat 8 k)) := by
  induction bs generalizing freq with
  | nil => exact (BitVec.add_zero _).symm
  | cons b bs ih =>
    have hstep : (countBytes freq (b :: bs))[k] =
        (bump freq b)[k] + BitVec.ofNat 32 (bs.count (BitVec.ofNat 8 k)) := ih (bump freq b)
    rw [hstep, getElem_bump freq b h]
    split
    next he =>
      rw [he, List.count_cons_self, BitVec.add_assoc, Nat.add_comm, BitVec.ofNat_add]
      rfl
    next he => rw [List.count_cons_of_ne he]

theorem countBytes_append (freq : Vector Word 256) (bs cs : List Byte) :
    countBytes freq (bs ++ cs) = countBytes (countBytes freq bs) cs :=
  List.foldl_append

/-- Adjacent pieces of DMEM's contents are one piece. -/
theorem holdsBytes_append {m : Memory} {a : Nat} {bs cs : List Byte} (hb : holdsBytes m a bs)
    (hc : holdsBytes m (a + bs.length) cs) : holdsBytes m a (bs ++ cs) := by
  induction bs generalizing a with
  | nil => exact hc
  | cons b bs ih =>
    obtain ⟨hfirst, hrest⟩ := holdsBytes_cons.1 hb
    rw [List.length_cons, ← Nat.add_assoc, Nat.add_right_comm] at hc
    exact holdsBytes_cons.2 ⟨hfirst, ih hrest hc⟩

/-! ## When COUNT succeeds, and with what -/

/-- COUNT's checks pass in `s`, and its source range holds the bytes `bs` (R151, R262). -/
structure CountReady (s : State) (bs : List Byte) : Prop where
  unbuilt : s.built = false
  range : srcOk s
  fits : s.total.toNat + srcLen s ≤ Config.totalMax
  length : bs.length = srcLen s
  bytes : holdsBytes s.mem (srcAddr s) bs

/-- `s` with the source bytes `bs` counted (R151). -/
def counted (bs : List Byte) (s : State) : State :=
  finishBulk s.latch.srcLen 0
    { s with freq := countBytes s.freq bs, total := s.total + s.latch.srcLen }

theorem CountReady.exec_count {s : State} {bs : List Byte} (h : CountReady s bs) :
    exec .count s = .next (counted bs s) :=
  execCount_eq h.unbuilt h.range h.fits h.length h.bytes

theorem countReady_of_exec_count {s t : State} (h : exec .count s = .next t) (ht : t.err = errOk) :
    ∃ bs, CountReady s bs ∧ t = counted bs s := by
  obtain ⟨-, rfl⟩ | ⟨-, -, rfl⟩ | ⟨-, -, -, rfl⟩ | ⟨hb, hr, hf, bs, hl, hh, rfl⟩ := execCount_next h
  · exact absurd ht (by decide : errCode .alreadyBuilt ≠ errOk)
  · exact absurd ht (by decide : errCode .badRange ≠ errOk)
  · exact absurd ht (by decide : errCode .corpusOverflow ≠ errOk)
  · exact ⟨bs, ⟨hb, hr, hf, hl, hh⟩, rfl⟩

/-- The check against TOTAL_MAX keeps TOTAL from wrapping. -/
theorem CountReady.toNat_total {s : State} {bs : List Byte} (h : CountReady s bs) :
    (counted bs s).total.toNat = s.total.toNat + srcLen s :=
  BitVec.toNat_add_of_lt (h.fits.trans_lt (by decide))

/-- Settles O23: what COUNT writes is `counted`'s, and its frame is what the frame lemmas of the commands leave
to COUNT. -/
theorem countAddsTheSourceBytes : Obligations.CountAddsTheSourceBytes := by
  intro s bs hb hs hf hl hh
  have hc : CountReady s bs := ⟨hb, hs, hf, hl, hh⟩
  have h := hc.exec_count
  exact ⟨_, h, (exec_completed h).1, fun _ hk => getElem_countBytes s.freq bs hk, hc.toNat_total,
    rfl, rfl, rfl, rfl, rfl, rfl, rfl, rfl, exec_sameLookup h nofun nofun nofun, exec_sameRest h,
    fun _ => by rw [exec_mem h nofun nofun]⟩

/-! ## Counting in pieces -/

/-- `s` with a source range latched (R39). -/
def withSource (a n d c : Word) (s : State) : State :=
  { s with latch := { srcAddr := a, srcLen := n, dstAddr := d, dstCap := c } }

/-- The first piece ends inside DMEM, so the address of the second does not wrap; and what the second adds to
TOTAL fits on top of the first, so the joined length does not wrap. -/
theorem CountReady.append {s : State} {a n m d c : Word} {bs cs : List Byte}
    (hb : CountReady (withSource a n d c s) bs)
    (hc : CountReady (withSource (a + n) m d c (counted bs (withSource a n d c s))) cs) :
    CountReady (withSource a (n + m) d c s) (bs ++ cs) := by
  have hsize := dmemSize_le s.params
  have hrange : a.toNat + n.toNat ≤ dmemSize s.params := hb.range
  have hmid : (a + n).toNat = a.toNat + n.toNat := BitVec.toNat_add_of_lt (by omega)
  have hrange' : (a + n).toNat + m.toNat ≤ dmemSize s.params := hc.range
  have hlen : (n + m).toNat = n.toNat + m.toNat := BitVec.toNat_add_of_lt (by omega)
  have htotal : (counted bs (withSource a n d c s)).total.toNat = s.total.toNat + n.toNat := hb.toNat_total
  have hfits : (counted bs (withSource a n d c s)).total.toNat + m.toNat ≤ Config.totalMax := hc.fits
  have hbs : bs.length = n.toNat := hb.length
  have hcs : cs.length = m.toNat := hc.length
  exact {
    unbuilt := hb.unbuilt
    range := show a.toNat + (n + m).toNat ≤ dmemSize s.params by omega
    fits := show s.total.toNat + (n + m).toNat ≤ Config.totalMax by omega
    length := show (bs ++ cs).length = (n + m).toNat by rw [List.length_append]; omega
    bytes := holdsBytes_append hb.bytes (by
      have hbytes : holdsBytes s.mem (a + n).toNat cs := hc.bytes
      rwa [hmid, ← hbs] at hbytes) }

/-- Settles O25: the two pieces are one range that COUNT accepts, and the loop over both is the loop over the
first, then over the second. -/
theorem countInPiecesEqualsCountAtOnce : Obligations.CountInPiecesEqualsCountAtOnce := by
  intro s t u a n m d c ht hte hu hue
  obtain ⟨bs, hb, rfl⟩ := countReady_of_exec_count ht hte
  obtain ⟨cs, hc, rfl⟩ := countReady_of_exec_count hu hue
  exact ⟨_, (hb.append hc).exec_count, rfl, countBytes_append s.freq bs cs,
    (BitVec.add_assoc s.total n m).symm⟩

/-! ## The refusals of COUNT, and FREQ_READ -/

theorem execCount_built {s : State} (h : s.built = true) :
    execCount s = .next (raiseBulk .alreadyBuilt 0 0 s) := by
  rw [execCount, if_pos h]

theorem execCount_badRange {s : State} (hb : s.built = false) (h : ¬ srcOk s) :
    execCount s = .next (raiseBulk .badRange 0 0 s) := by
  rw [execCount, hb, if_neg Bool.false_ne_true, if_pos h]

theorem execCount_overflow {s : State} (hb : s.built = false) (hs : srcOk s)
    (h : Config.totalMax < s.total.toNat + srcLen s) :
    execCount s = .next (raiseBulk .corpusOverflow 0 0 s) := by
  rw [execCount, hb, if_neg Bool.false_ne_true, if_neg (not_not.2 hs), if_pos h]

/-- Settles O24: COUNT's checks, in the order of R262. -/
theorem countRefusesInOrder : Obligations.CountRefusesInOrder := fun _ =>
  ⟨execCount_built, fun hb h => execCount_badRange hb (Nat.not_le.2 h), execCount_overflow⟩

theorem execFreqRead_of_lt {idx : Nat} (s : State) (h : idx < 256) : execFreqRead idx s =
    .next (complete errOk { s with res0 := s.freq[idx], res1 := 0 }) := by
  rw [execFreqRead, dif_pos h]

theorem execFreqRead_of_le {idx : Nat} (s : State) (h : 256 ≤ idx) :
    execFreqRead idx s = .next (raiseError .badIndex s) := by
  rw [execFreqRead, dif_neg (Nat.not_lt.2 h)]

/-- Settles O26: FREQ_READ has one check, that the index is a byte value. -/
theorem freqReadReturnsTheCounter : Obligations.FreqReadReturnsTheCounter :=
  ⟨fun s _ => execFreqRead_of_lt s, fun s _ => execFreqRead_of_le s⟩

end Sys2Proof.Machine

/-! PROOFS. The tie-break arbiter (42_trie_builder.md R173, R174). -/

namespace Sys2Proof.Machine

/-! ## Keys -/

theorem keyLt_eq_true {a b : Nat × Nat × Nat} : keyLt a b = true ↔
    a.1 < b.1 ∨ a.1 = b.1 ∧ (a.2.1 < b.2.1 ∨ a.2.1 = b.2.1 ∧ a.2.2 < b.2.2) := by
  simp [keyLt]

theorem keyLt_irrefl (a : Nat × Nat × Nat) : keyLt a a = false := by
  rw [Bool.eq_false_iff, ne_eq, keyLt_eq_true]
  omega

theorem keyLt_trans {a b c : Nat × Nat × Nat} (hab : keyLt a b = true) (hbc : keyLt b c = true) :
    keyLt a c = true := by
  rw [keyLt_eq_true] at *
  omega

/-- Different keys are ordered one way and not the other. -/
theorem keyLt_eq_not {a b : Nat × Nat × Nat} (h : a ≠ b) : keyLt a b = !keyLt b a := by
  have hparts : ¬ (a.1 = b.1 ∧ a.2.1 = b.2.1 ∧ a.2.2 = b.2.2) := fun ⟨h1, h2, h3⟩ =>
    h (Prod.ext h1 (Prod.ext h2 h3))
  rw [Bool.eq_not, ne_eq, Bool.eq_iff_iff, keyLt_eq_true, keyLt_eq_true]
  omega

/-- The sentinel's tk is the odd number just above that of the byte with its code point (R173). -/
theorem symKey_eq (cp : Byte) (sym : Idx) :
    symKey cp sym = 2 * codePoint cp sym.toNat + if sym.toNat = 256 then 1 else 0 := by
  simp only [symKey, codePoint, Config.sent]
  split <;> rfl

/-- Different symbols have different tk (R174). -/
theorem symKey_injective {cp : Byte} {a b : Idx} (h : symKey cp a = symKey cp b) : a = b := by
  refine BitVec.eq_of_toNat_eq ?_
  simp only [symKey, Config.sent] at h
  split at h <;> split at h <;> omega

/-! ## The arbiter -/

section
variable {cp : Byte} {node : Vector Node 513}

theorem precedes_eq {i j : Nat} {x y : Node} (hi : node[i]? = some x) (hj : node[j]? = some y) :
    precedes cp node i j = keyLt (nodeKey cp i x) (nodeKey cp j y) := by
  rw [precedes, hi, hj]

theorem precedes_irrefl (i : Nat) : precedes cp node i i = false := by
  cases hi : node[i]? with
  | none => rw [precedes, hi]
  | some x => rw [precedes_eq hi hi, keyLt_irrefl]

/-- The arbiter orders existing nodes only. -/
theorem precedes_eq_true {i j : Nat} (h : precedes cp node i j = true) : ∃ x y, node[i]? = some x ∧
    node[j]? = some y ∧ keyLt (nodeKey cp i x) (nodeKey cp j y) = true := by
  rw [precedes] at h
  split at h
  · exact ⟨_, _, ‹_›, ‹_›, h⟩
  · cases h

theorem precedes_trans {i j k : Nat} (hij : precedes cp node i j = true)
    (hjk : precedes cp node j k = true) : precedes cp node i k = true := by
  obtain ⟨x, y, hi, hj, hxy⟩ := precedes_eq_true hij
  obtain ⟨y', z, hj', hk, hyz⟩ := precedes_eq_true hjk
  cases hj.symm.trans hj'
  rw [precedes_eq hi hk]
  exact keyLt_trans hxy hyz

/-- Among the first `n` nodes, different leaves hold different symbols. -/
def DistinctLeaves (node : Vector Node 513) (n : Nat) : Prop :=
  ∀ i < n, ∀ j < n, leafSym node i ≠ none → leafSym node i = leafSym node j → i = j

/-- A key names its node: a leaf by its symbol, an internal node by its index (R174). -/
theorem DistinctLeaves.eq_of_nodeKey {n : Nat} (hd : DistinctLeaves node n) {i j : Nat} (hi : i < n)
    (hj : j < n) {x y : Node} (hx : node[i]? = some x) (hy : node[j]? = some y)
    (h : nodeKey cp i x = nodeKey cp j y) : i = j := by
  rcases x with ⟨w, a⟩ | ⟨w, l, r⟩ <;> rcases y with ⟨v, b⟩ | ⟨v, l', r'⟩
  · have hab : a = b := symKey_injective (congrArg (fun key => key.2.2) h)
    subst hab
    exact hd i hi j hj (by rw [leafSym, hx]; nofun) (by rw [leafSym, leafSym, hx, hy])
  · exact absurd (congrArg (fun key => key.2.1) h) Nat.zero_ne_one
  · exact absurd (congrArg (fun key => key.2.1) h) Nat.one_ne_zero
  · exact congrArg (fun key => key.2.2) h

theorem DistinctLeaves.precedes_eq_not {n : Nat} (hd : DistinctLeaves node n) (hn : n ≤ 513) {i j : Nat}
    (hi : i < n) (hj : j < n) (hij : i ≠ j) : precedes cp node i j = !precedes cp node j i := by
  have hx : node[i]? = some node[i] := Vector.getElem?_eq_getElem _
  have hy : node[j]? = some node[j] := Vector.getElem?_eq_getElem _
  rw [precedes_eq hx hy, precedes_eq hy hx]
  exact keyLt_eq_not fun h => hij (hd.eq_of_nodeKey hi hj hx hy h)

/-! ## The order by kinds of nodes (R173) -/

theorem precedes_leaf_leaf {i j : Nat} {w v : Word} {a b : Idx} (hi : node[i]? = some (.leaf w a))
    (hj : node[j]? = some (.leaf v b)) : precedes cp node i j = true ↔ w.toNat < v.toNat ∨ (w = v ∧
      (codePoint cp a.toNat < codePoint cp b.toNat ∨
        (codePoint cp a.toNat = codePoint cp b.toNat ∧ a.toNat ≠ 256 ∧ b.toNat = 256))) := by
  rw [precedes_eq hi hj, keyLt_eq_true, ← BitVec.toNat_inj]
  simp only [nodeKey, symKey_eq, true_and]
  split <;> split <;> omega

theorem precedes_leaf_internal {i j : Nat} {w v : Word} {a l r : Idx} (hi : node[i]? = some (.leaf w a))
    (hj : node[j]? = some (.internal v l r)) : precedes cp node i j = true ↔ w.toNat ≤ v.toNat := by
  rw [precedes_eq hi hj, keyLt_eq_true]
  simp only [nodeKey]
  omega

theorem precedes_internal_leaf {i j : Nat} {w v : Word} {a l r : Idx}
    (hi : node[i]? = some (.internal v l r)) (hj : node[j]? = some (.leaf w a)) :
    precedes cp node i j = true ↔ v.toNat < w.toNat := by
  rw [precedes_eq hi hj, keyLt_eq_true]
  simp only [nodeKey]
  omega

theorem precedes_internal_internal {i j : Nat} {w v : Word} {l r l' r' : Idx}
    (hi : node[i]? = some (.internal w l r)) (hj : node[j]? = some (.internal v l' r')) :
    precedes cp node i j = true ↔ w.toNat < v.toNat ∨ (w = v ∧ i < j) := by
  rw [precedes_eq hi hj, keyLt_eq_true, ← BitVec.toNat_inj]
  simp only [nodeKey, true_and]
  omega

end

/-- Settles O32: one lemma per pair of kinds. -/
theorem tieBreakFollowsTheFourKeys : Obligations.TieBreakFollowsTheFourKeys :=
  ⟨rfl, fun _ _ _ _ => ⟨fun _ _ _ _ => precedes_leaf_leaf,
    fun _ _ _ _ _ hi hj => ⟨precedes_leaf_internal hi hj, precedes_internal_leaf hj hi⟩,
    fun _ _ _ _ _ _ => precedes_internal_internal⟩⟩

/-- Settles O33: keys are compared lexicographically, and different nodes have different keys. -/
theorem arbiterIsAStrictTotalOrder : Obligations.ArbiterIsAStrictTotalOrder :=
  fun _ _ _ hn hd i hi _ hj _ _ =>
    ⟨precedes_irrefl i, DistinctLeaves.precedes_eq_not hd hn hi hj, precedes_trans⟩

end Sys2Proof.Machine

/-! PROOFS. How BUILD and NODE_READ complete (42_trie_builder.md R170, R178, R179). -/

namespace Sys2Proof.Machine

/-- BUILD of an unbuilt codec installs the trie of its counts (R170). -/
theorem exec_build {s : State} (h : s.built = false) : exec .build s =
    .next (complete errOk (installCodec (buildTrie s.params.sentinelCp s.node s.inq s.freq) s)) :=
  if_neg (by rw [h]; exact Bool.false_ne_true)

theorem exec_build_built {s : State} (h : s.built = true) :
    exec .build s = .next (raiseError .alreadyBuilt s) :=
  if_pos h

/-- Settles O28: the frame is what the frame lemmas of the commands leave to BUILD. -/
theorem buildFreezesTheCodec : Obligations.BuildFreezesTheCodec := by
  refine ⟨fun s hb => ?_, fun s hb => exec_build_built hb⟩
  have h := exec_build hb
  obtain ⟨hcompleted, -⟩ := exec_completed h
  obtain ⟨hfreq, htotal⟩ := exec_freq_total h nofun nofun
  exact ⟨_, h, hcompleted, rfl, hfreq, htotal, exec_sameResults h nofun nofun nofun,
    exec_sameLookup h nofun nofun nofun, exec_sameRest h, fun _ => by rw [exec_mem h nofun nofun]⟩

theorem nodeInfo_leaf (w : Word) (sym : Idx) : nodeInfo (.leaf w sym) = BitVec.ofNat 32 sym.toNat :=
  (BitVec.ofNat_toNat 32 sym).symm

/-- The three fields of an internal node's info word do not overlap (R179). -/
theorem nodeInfo_internal (w : Word) (left right : Idx) : nodeInfo (.internal w left right) =
    BitVec.ofNat 32 (2 ^ 31 + 2 ^ 16 * right.toNat + left.toNat) := by
  have hl := left.isLt
  have hr := right.isLt
  have hlow : right.toNat <<< 16 ||| left.toNat = 2 ^ 16 * right.toNat + left.toNat := by
    rw [← Nat.shiftLeft_add_eq_or_of_lt (by omega), Nat.shiftLeft_eq, Nat.mul_comm]
  have hhigh : 1 <<< 31 ||| (2 ^ 16 * right.toNat + left.toNat) =
      2 ^ 31 + (2 ^ 16 * right.toNat + left.toNat) :=
    (Nat.shiftLeft_add_eq_or_of_lt (by omega) 1).symm
  apply BitVec.eq_of_toNat_eq
  simp (disch := omega) only [nodeInfo, BitVec.or_assoc, BitVec.toNat_or, BitVec.toNat_shiftLeft,
    BitVec.toNat_setWidth, BitVec.toNat_ofNat, Nat.mod_eq_of_lt]
  rw [hlow, Nat.add_assoc]
  exact hhigh

/-- NODE_READ of a node in use (R178). -/
theorem execNodeRead_of_lt {idx : Nat} {s : State} {x : Node} (hb : s.built = true)
    (hi : idx < s.nodeCount.toNat) (hx : s.node[idx]? = some x) : execNodeRead idx s =
      .next (complete errOk { s with res0 := nodeWeight x, res1 := nodeInfo x }) := by
  rw [execNodeRead, if_neg (not_not.2 hb), if_neg (Nat.not_le.2 hi), hx]

theorem execNodeRead_unbuilt (idx : Nat) {s : State} (h : s.built = false) :
    execNodeRead idx s = .next (raiseError .notBuilt s) :=
  if_pos (by rw [h]; exact Bool.false_ne_true)

/-- Settles O38: one equation per outcome, and the info word of each kind. -/
theorem nodeReadReturnsTheNode : Obligations.NodeReadReturnsTheNode := by
  refine fun s idx => ⟨fun w sym hb hi hx => ?_, fun w l r hb hi hx => ?_, execNodeRead_unbuilt idx,
    fun hb hi => ?_⟩
  · rw [exec, execNodeRead_of_lt hb hi hx, nodeInfo_leaf]
    rfl
  · rw [exec, execNodeRead_of_lt hb hi hx, nodeInfo_internal]
    rfl
  · rw [exec, execNodeRead_of_le hi, if_neg (not_not.2 hb)]
    rfl

end Sys2Proof.Machine

/-! PROOFS. What BUILD makes (42_trie_builder.md R171, R174, R176): the leaves in order, one binary tree, and
nothing of what the machine held before but the counts and SENTINEL_CP. -/

namespace Sys2Proof.Machine

/-! ## The leaves in order -/

theorem leavesFrom_append (s : Nat) (cs ds : List Word) :
    leavesFrom s (cs ++ ds) = leavesFrom s cs ++ leavesFrom (s + cs.length) ds := by
  induction cs generalizing s with
  | nil => rfl
  | cons c cs ih =>
    have hs : s + 1 + cs.length = s + (c :: cs).length := by rw [List.length_cons]; omega
    rw [List.cons_append, leavesFrom, leavesFrom, ih, hs]
    split <;> rfl

theorem leavesFrom_singleton (s : Nat) (c : Word) :
    leavesFrom s [c] = if c = 0 then [] else [.leaf c (BitVec.ofNat 10 s)] := by
  rw [leavesFrom, leavesFrom]

theorem take_succ_counts (freq : Vector Word 256) {k : Nat} (h : k < 256) :
    freq.toList.take (k + 1) = freq.toList.take k ++ [freq[k]] := by
  rw [List.take_succ_eq_append_getElem (by simpa using h), Vector.getElem_toList]

theorem corpusBelow_succ (freq : Vector Word 256) {k : Nat} (h : k < 256) :
    corpusBelow freq (k + 1) = corpusBelow freq k + if freq[k] = 0 then 0 else 1 := by
  rw [corpusBelow, List.range_succ, List.filter_append, List.length_append, corpusBelow]
  by_cases h0 : freq[k] = 0#32 <;> simp [h, h0]

/-- The leaves of the counters below `k` are as many as the corpus bytes below `k` (R171). -/
theorem length_leavesFrom_take (freq : Vector Word 256) {k : Nat} (h : k ≤ 256) :
    (leavesFrom 0 (freq.toList.take k)).length = corpusBelow freq k := by
  induction k with
  | zero => rfl
  | succ k ih =>
    rw [take_succ_counts freq h, leavesFrom_append, List.length_append, ih (by omega),
      leavesFrom_singleton, corpusBelow_succ freq h]
    split <;> rfl

theorem leafCount_eq (freq : Vector Word 256) : (seedLeaves freq).length = leafCount freq := by
  have hall : freq.toList.take 256 = freq.toList := List.take_of_length_le (by simp)
  rw [seedLeaves, List.length_append, ← hall, length_leavesFrom_take freq (Nat.le_refl 256)]
  rfl

/-- The leaf of a corpus byte stands after those of the lower ones (R171). -/
theorem seedLeaves_corpusBelow {freq : Vector Word 256} {k : Nat} (h : k < 256) (h0 : freq[k] ≠ 0) :
    (seedLeaves freq)[corpusBelow freq k]? = some (.leaf freq[k] (BitVec.ofNat 10 k)) := by
  have hsplit : freq.toList = freq.toList.take k ++ ([freq[k]] ++ freq.toList.drop (k + 1)) := by
    rw [← List.append_assoc, ← take_succ_counts freq h, List.take_append_drop]
  have hk : 0 + (freq.toList.take k).length = k := by simp; omega
  rw [seedLeaves, hsplit, leavesFrom_append, leavesFrom_append, leavesFrom_singleton, if_neg h0, hk,
    ← length_leavesFrom_take freq h.le]
  simp

/-! ## The builder of an unbuilt machine -/

/-- The builder whose codec BUILD installs (R170). -/
abbrev builderOf (s : State) : Builder := buildTrie s.params.sentinelCp s.node s.inq s.freq

theorem shape_builderOf (s : State) : Shape s.freq (builderOf s) := shape_buildTrie _ _ _ _

theorem n_builderOf (s : State) : (builderOf s).n + 1 = 2 * leafCount s.freq :=
  leafCount_eq s.freq ▸ n_buildTrie _ _ _ _

theorem n_builderOf_le (s : State) : (builderOf s).n ≤ 513 := n_buildTrie_le _ _ _ _

theorem rootOf_builderOf (s : State) : rootOf (builderOf s) + 1 = (builderOf s).n :=
  rootOf_buildTrie _ _ _ _

/-- NODE_COUNT holds the number of nodes (R176). -/
theorem toNat_n_builderOf (s : State) : (BitVec.ofNat 10 (builderOf s).n).toNat = (builderOf s).n :=
  toNat_ofNat_idx ((n_builderOf_le s).trans_lt (by decide))

/-- ROOT holds the index of the last node (R176). -/
theorem toNat_rootOf_builderOf (s : State) :
    (BitVec.ofNat 10 (rootOf (builderOf s))).toNat = rootOf (builderOf s) := by
  have hle := n_builderOf_le s
  have hroot := rootOf_builderOf s
  exact toNat_ofNat_idx (by omega)

/-- The leaves of the counts stand at the lowest indices of the arena (R171). -/
theorem node_builderOf {s : State} {i : Nat} {x : Node} (h : (seedLeaves s.freq)[i]? = some x) :
    (builderOf s).node[i]? = some x := by
  obtain ⟨hi, -⟩ := List.getElem?_eq_some_iff.1 h
  exact ((shape_builderOf s).leaves i hi).trans h

theorem sentinel_builderOf (s : State) :
    (builderOf s).node[leafCount s.freq - 1]? = some (.leaf 1 256) :=
  node_builderOf (leafCount_eq s.freq ▸ seedLeaves_last s.freq)

/-- Settles O29: the leaves of seed() are never moved. -/
theorem buildSeedsTheLeavesInOrder : Obligations.BuildSeedsTheLeavesInOrder := fun s hb =>
  ⟨_, exec_build hb, fun _ hk h0 => node_builderOf (seedLeaves_corpusBelow hk h0),
    sentinel_builderOf s⟩

/-! ## One binary tree -/

theorem Shape.leafSym_ne_none {freq : Vector Word 256} {b : Builder} (h : Shape freq b) {i : Nat}
    (hi : i < (seedLeaves freq).length) : leafSym b.node i ≠ none := by
  obtain ⟨w, sym, hx, -⟩ := mem_seedLeaves (List.getElem_mem hi)
  rw [leafSym_eq_of_lt h hi, List.getElem?_eq_getElem hi, hx]
  exact Option.some_ne_none sym.toNat

/-- A node that is out of the queue has exactly one parent (R172). -/
theorem Shape.parent_unique {freq : Vector Word 256} {b : Builder} (h : Shape freq b) {i : Nat}
    (hi : i < b.n) (hq : i ∉ queue b) : ∃ p < b.n, isChild b.node i p = true ∧
      ∀ p' < b.n, isChild b.node i p' = true → p' = p := by
  have hlen := h.parents i hi
  rw [if_neg hq] at hlen
  obtain ⟨p, hp⟩ := List.length_eq_one_iff.1 hlen
  have hmem : ∀ q, (q < b.n ∧ isChild b.node i q = true) ↔ q = p := fun q => by
    rw [← List.mem_range, ← List.mem_filter, ← parentsOf, hp, List.mem_singleton]
  obtain ⟨hpn, hc⟩ := (hmem p).2 rfl
  exact ⟨p, hpn, hc, fun q hqn hqc => (hmem q).1 ⟨hqn, hqc⟩⟩

/-- Settles O30: only the root is left in the queue, so every other node has one parent. -/
theorem buildMakesOneBinaryTree : Obligations.BuildMakesOneBinaryTree := by
  intro s hb
  have hshape := shape_builderOf s
  have hqueue : queue (builderOf s) = [rootOf (builderOf s)] := queue_buildTrie _ _ _ _
  have hroot := rootOf_builderOf s
  have hn := n_builderOf s
  have hle := (length_seedLeaves s.freq).2
  have hlen := leafCount_eq s.freq
  refine ⟨_, exec_build hb, ?_⟩
  simp only [complete_nodeCount, complete_root, complete_node, installCodec, toNat_n_builderOf,
    toNat_rootOf_builderOf]
  refine ⟨by omega, by omega, hroot, fun i hi => hshape.leafSym_ne_none (by omega),
    fun i hi => hshape.merged i (by omega), fun i hi => ?_⟩
  exact hshape.parent_unique (by omega) (by rw [hqueue, List.mem_singleton]; omega)

/-! ## A function of FREQ and SENTINEL_CP -/

/-- Settles O34: the two machines differ for BUILD in the old arena and queue only, and it reads neither. -/
theorem buildDependsOnCountsAndCodePointOnly : Obligations.BuildDependsOnCountsAndCodePointOnly := by
  intro s s' hb hb' hfreq hcp
  have hsame : SameBuilder (builderOf s) (builderOf s') := by
    rw [builderOf, builderOf, hfreq, hcp]
    exact sameBuilder_buildTrie _ _ _ _ _ _
  have hroot := rootOf_builderOf s
  have hv := sameVisible_installCodec hsame (shape_builderOf s) (by omega) (n_builderOf_le s)
    s'.node s'.inq s
  exact ⟨_, _, exec_build hb, exec_build hb', hv.nodeCount, hv.root, hv.cb, hv.node⟩

end Sys2Proof.Machine

/-! PROOFS. Every round of merge() takes the two least queued nodes (42_trie_builder.md R172, R174, R175). -/

namespace Sys2Proof.Machine

/-! ## The queue in the arbiter's order -/

section
variable {freq : Vector Word 256} {b : Builder}

theorem Shape.n_le (h : Shape freq b) : b.n ≤ 513 := by
  have hcount := h.count
  have hqueue := List.length_pos_of_mem h.last.2
  have hle := (length_seedLeaves freq).2
  omega

/-- The leaves are those of seed(), whose symbols are different (R171). -/
theorem Shape.distinctLeaves (h : Shape freq b) : DistinctLeaves b.node b.n := by
  intro i hi j hj hs he
  have hi := h.lt_of_leafSym hi hs
  have hj := h.lt_of_leafSym hj (he ▸ hs)
  rw [leafSym_eq_of_lt h hi, leafSym_eq_of_lt h hj, List.getElem?_eq_getElem hi,
    List.getElem?_eq_getElem hj] at he
  refine (List.getElem?_inj (by simpa using hi) (nodup_seedLeaves freq)).1 ?_
  rw [List.getElem?_map, List.getElem?_map, List.getElem?_eq_getElem hi, List.getElem?_eq_getElem hj]
  exact congrArg some he

/-- The queued nodes are those without a parent (R172). -/
theorem Shape.queuedAt_n (h : Shape freq b) {j : Nat} : queuedAt b.node b.n j ↔ j ∈ queue b := by
  have hparents : (parentsOf b.node b.n j).length = 0 ↔ ∀ i < b.n, isChild b.node j i = false := by
    simp [parentsOf]
  rw [queuedAt, ← hparents]
  constructor
  · rintro ⟨hj, h0⟩
    by_contra hq
    rw [h.parents j hj, if_neg hq] at h0
    exact Nat.one_ne_zero h0
  · intro hq
    have hj := (mem_queue.1 hq).1
    exact ⟨hj, by rw [h.parents j hj, if_pos hq]⟩

end

/-- The least queued node precedes the others (R172, R174). -/
theorem least_precedes {cp : Byte} {b : Builder} (hd : DistinctLeaves b.node b.n) (hn : b.n ≤ 513) {x : Nat}
    (hx : least cp b = some x) : ∀ j ∈ queue b, j ≠ x → precedes cp b.node x j = true := by
  refine minBy_least (fun i hi j hj hij => ?_) (fun _ _ _ _ _ _ => precedes_trans) hx
  rw [hd.precedes_eq_not hn (mem_queue.1 hi).1 (mem_queue.1 hj).1 hij]
  cases precedes cp b.node j i with
  | false => exact .inl rfl
  | true => exact .inr rfl

/-! ## The two least -/

/-- When node `m` is made, `x` is the least queued node and `y` the least of the others (R172). -/
structure TwoLeast (cp : Byte) (node : Vector Node 513) (m x y : Nat) : Prop where
  fst : queuedAt node m x
  snd : queuedAt node m y
  fst_least : ∀ j, queuedAt node m j → j ≠ x → precedes cp node x j = true
  snd_least : ∀ j, queuedAt node m j → j ≠ x → j ≠ y → precedes cp node y j = true

theorem precedes_congr {node node' : Vector Node 513} {m : Nat} (h : AgreeBelow m node node') (cp : Byte)
    {i j : Nat} (hi : i < m) (hj : j < m) : precedes cp node' i j = precedes cp node i j := by
  rw [precedes, precedes, h i hi, h j hj]

theorem queuedAt_congr {node node' : Vector Node 513} {m : Nat} (h : AgreeBelow m node node') {j : Nat} :
    queuedAt node' m j ↔ queuedAt node m j := by
  have hchild : ∀ i < m, isChild node' j i = isChild node j i := fun i hi => by
    rw [isChild, isChild, h i hi]
  exact and_congr_right fun _ => forall₂_congr fun i hi => by rw [hchild i hi]

/-- The queue at node `m` depends on the nodes below `m` only. -/
theorem TwoLeast.congr {cp : Byte} {node node' : Vector Node 513} {m x y : Nat} (h : TwoLeast cp node m x y)
    (ha : AgreeBelow m node node') : TwoLeast cp node' m x y where
  fst := (queuedAt_congr ha).2 h.fst
  snd := (queuedAt_congr ha).2 h.snd
  fst_least j hj hx := by
    have hj := (queuedAt_congr ha).1 hj
    rw [precedes_congr ha cp h.fst.1 hj.1]
    exact h.fst_least j hj hx
  snd_least j hj hx hy := by
    have hj := (queuedAt_congr ha).1 hj
    rw [precedes_congr ha cp h.snd.1 hj.1]
    exact h.snd_least j hj hx hy

/-- The nodes that a round of merge() takes are the two least. -/
theorem Shape.twoLeast {freq : Vector Word 256} {b : Builder} (h : Shape freq b) {cp : Byte} {x y : Nat}
    (hx : least cp b = some x) (hy : least cp (dequeue x b) = some y) : TwoLeast cp b.node b.n x y where
  fst := h.queuedAt_n.2 (least_mem hx)
  snd := h.queuedAt_n.2 (least_two hx hy).2.1
  fst_least j hj hjx := least_precedes h.distinctLeaves h.n_le hx j (h.queuedAt_n.1 hj) hjx
  snd_least j hj hjx hjy :=
    least_precedes (b := dequeue x b) h.distinctLeaves h.n_le hy j
      (mem_queue_dequeue.2 ⟨h.queuedAt_n.1 hj, hjx⟩) hjy

/-! ## merge() -/

/-- Each internal node is the parent of what were the two least queued nodes, the least on its left, with the
32-bit sum of their weights (R172, R175). -/
def MergesTwoLeast (cp : Byte) (b : Builder) : Prop :=
  ∀ m < b.n, ∀ w left right, b.node[m]? = some (.internal w left right) →
    TwoLeast cp b.node m left.toNat right.toNat ∧
      w = weightAt b.node left.toNat + weightAt b.node right.toNat

/-- A round leaves the nodes in use as they are. -/
theorem agreeBelow_mergeRound (x y : Nat) (b : Builder) {m : Nat} (hm : m ≤ b.n) :
    AgreeBelow m b.node (mergeRound x y b).node :=
  fun _ hi => mergeRound_node_lt (hi.trans_le hm)

theorem MergesTwoLeast.mergeRound {freq : Vector Word 256} {cp : Byte} {b : Builder} {x y : Nat}
    (h : MergesTwoLeast cp b) (hs : Shape freq b) (hx : least cp b = some x)
    (hy : least cp (dequeue x b) = some y) : MergesTwoLeast cp (mergeRound x y b) := by
  have hold := hs.twoLeast hx hy
  obtain ⟨hxq, hyq, hxy⟩ := least_two hx hy
  have hn := hs.room hxq hyq hxy
  have hxn := (mem_queue.1 hxq).1
  have hyn := (mem_queue.1 hyq).1
  intro m hm w l r hnode
  rw [mergeRound_n] at hm
  obtain hm | rfl := Nat.lt_succ_iff_lt_or_eq.1 hm
  · rw [mergeRound_node_lt hm] at hnode
    obtain ⟨htwo, hw⟩ := h m hm w l r hnode
    refine ⟨htwo.congr (agreeBelow_mergeRound x y b hm.le), ?_⟩
    rw [weightAt_mergeRound_lt (htwo.fst.1.trans hm), weightAt_mergeRound_lt (htwo.snd.1.trans hm), hw]
  · rw [mergeRound_node_self hn, parentOf] at hnode
    cases hnode
    rw [toNat_ofNat_idx (by omega), toNat_ofNat_idx (by omega), weightAt_mergeRound_lt hxn,
      weightAt_mergeRound_lt hyn]
    exact ⟨hold.congr (agreeBelow_mergeRound x y b (Nat.le_refl _)), rfl⟩

theorem MergesTwoLeast.merge {freq : Vector Word 256} {cp : Byte} {k : Nat} {b : Builder}
    (h : MergesTwoLeast cp b) (hs : Shape freq b) : MergesTwoLeast cp (merge cp k b) := by
  induction k generalizing b with
  | zero => exact h
  | succ k ih =>
    obtain ⟨x, y, hx, hy, he⟩ | ⟨-, he⟩ := merge_succ cp k b
    · obtain ⟨hxq, hyq, hxy⟩ := least_two hx hy
      rw [he]
      exact ih (h.mergeRound hs hx hy) (hs.mergeRound hxq hyq hxy)
    · rwa [he]

/-- seed() makes leaves only. -/
theorem mergesTwoLeast_seed (cp : Byte) (node : Vector Node 513) (inq : Vector Bool 513)
    (freq : Vector Word 256) : MergesTwoLeast cp (seed node inq freq) := by
  intro m hm w l r hnode
  obtain ⟨hn, hleaves, -⟩ := seed_spec node inq freq
  rw [hleaves m (by omega)] at hnode
  exact absurd hnode seedLeaves_ne_internal

theorem mergesTwoLeast_builderOf (s : State) : MergesTwoLeast s.params.sentinelCp (builderOf s) :=
  (mergesTwoLeast_seed _ _ _ _).merge (shape_seed _ _ _)

/-- Settles O31: a round takes the two least queued nodes, and what is queued at a node depends on the nodes
below it, which later rounds leave alone. -/
theorem buildMergesTheTwoLeast : Obligations.BuildMergesTheTwoLeast := by
  refine fun s hb => ⟨_, exec_build hb, fun m w l r hm hnode => ?_⟩
  obtain ⟨htwo, hw⟩ := mergesTwoLeast_builderOf s m (toNat_n_builderOf s ▸ hm) w l r hnode
  exact ⟨htwo.fst, htwo.snd, htwo.fst_least, htwo.snd_least, hw⟩

end Sys2Proof.Machine

/-! PROOFS. What BUILD makes of the empty corpus and of one distinct byte (42_trie_builder.md R177;
43_codebook.md R200, R201). -/

namespace Sys2Proof.Machine

/-! ## The number of leaves -/

/-- Zero counters add nothing to the count of corpus bytes. -/
theorem corpusBelow_of_zero {freq : Vector Word 256} {k : Nat} (hk : k ≤ 256)
    (h : ∀ j (hj : j < 256), j < k → freq[j] = 0) : corpusBelow freq k = 0 := by
  induction k with
  | zero => rfl
  | succ k ih =>
    rw [corpusBelow_succ freq hk, ih (by omega) fun j hj hjk => h j hj (by omega),
      if_pos (h k hk (Nat.lt_succ_self k))]

theorem leafCount_of_empty {freq : Vector Word 256} (h : ∀ k (hk : k < 256), freq[k] = 0) :
    leafCount freq = 1 := by
  rw [leafCount, corpusBelow_of_zero (Nat.le_refl 256) fun j hj _ => h j hj]

/-! ## One distinct byte -/

/-- `a` is the only byte value of the corpus. -/
structure OneByte (freq : Vector Word 256) (a : Nat) : Prop where
  lt : a < 256
  present : freq[a] ≠ 0
  only : ∀ k (h : k < 256), k ≠ a → freq[k] = 0

theorem OneByte.corpusBelow_self {freq : Vector Word 256} {a : Nat} (h : OneByte freq a) :
    corpusBelow freq a = 0 :=
  corpusBelow_of_zero h.lt.le fun j hj hja => h.only j hj hja.ne

theorem OneByte.corpusBelow_of_lt {freq : Vector Word 256} {a k : Nat} (h : OneByte freq a) (hk : k ≤ 256)
    (hak : a < k) : corpusBelow freq k = 1 := by
  induction k, hak using Nat.le_induction with
  | base => rw [corpusBelow_succ freq h.lt, h.corpusBelow_self, if_neg h.present]
  | succ k hak ih =>
    have hk0 : freq[k] = 0 := h.only k hk (Nat.ne_of_gt hak)
    rw [corpusBelow_succ freq hk, ih (by omega), if_pos hk0]

theorem OneByte.leafCount {freq : Vector Word 256} {a : Nat} (h : OneByte freq a) : leafCount freq = 2 := by
  rw [Machine.leafCount, h.corpusBelow_of_lt (Nat.le_refl 256) h.lt]

section
variable {s : State} {a : Nat} (h : OneByte s.freq a)
include h

theorem OneByte.n : (builderOf s).n = 3 := by
  have hn := n_builderOf s
  rw [h.leafCount] at hn
  omega

theorem OneByte.rootOf : rootOf (builderOf s) = 2 := by
  have hroot := rootOf_builderOf s
  rw [h.n] at hroot
  omega

theorem OneByte.node_zero :
    (builderOf s).node[0]? = some (.leaf (s.freq[a]'h.lt) (BitVec.ofNat 10 a)) := by
  have hleaf := node_builderOf (seedLeaves_corpusBelow h.lt h.present)
  rwa [h.corpusBelow_self] at hleaf

theorem OneByte.node_one : (builderOf s).node[1]? = some (.leaf 1 256) := by
  have hleaf := sentinel_builderOf s
  rwa [h.leafCount] at hleaf

/-- The sentinel's leaf is the least exactly if the byte's count is at least 2 or its value is above
SENTINEL_CP (R173, R177). -/
theorem OneByte.sentinel_precedes : precedes s.params.sentinelCp (builderOf s).node 1 0 = true ↔
    2 ≤ (s.freq[a]'h.lt).toNat ∨ s.params.sentinelCp.toNat < a := by
  have ha := h.lt
  have hpos : (s.freq[a]'h.lt).toNat ≠ 0 := fun h0 => h.present (BitVec.eq_of_toNat_eq h0)
  have hidx : (BitVec.ofNat 10 a).toNat = a := toNat_ofNat_idx (by omega)
  have hbyte : codePoint s.params.sentinelCp a = a := if_neg (Nat.ne_of_lt ha)
  have hsent : codePoint s.params.sentinelCp (256 : Idx).toNat = s.params.sentinelCp.toNat := rfl
  rw [precedes_leaf_leaf h.node_one h.node_zero, hidx, hbyte, hsent, ← BitVec.toNat_inj]
  simp only [BitVec.ofNat_eq_ofNat, BitVec.toNat_ofNat]
  omega

/-- The two leaves are merged, the least on the left (R172). -/
theorem OneByte.node_two : ∃ left right : Idx, (left = 0 ∧ right = 1 ∨ left = 1 ∧ right = 0) ∧
    (builderOf s).node[2]? = some (.internal (s.freq[a]'h.lt + 1) left right) ∧
    precedes s.params.sentinelCp (builderOf s).node left.toNat right.toNat = true := by
  have hlen := h.leafCount
  obtain ⟨w, l, r, hnode, hl, hr, hlr⟩ :=
    (shape_builderOf s).merged 2 (by rw [leafCount_eq, hlen]) (by rw [h.n]; decide)
  obtain ⟨htwo, hw⟩ := mergesTwoLeast_builderOf s 2 (by rw [h.n]; decide) w l r hnode
  have hrl : r.toNat ≠ l.toNat := fun he => hlr (BitVec.eq_of_toNat_eq he).symm
  have hcases : l = 0 ∧ r = 1 ∨ l = 1 ∧ r = 0 := by
    bv_omega
  have hsum : w = s.freq[a]'h.lt + 1 := by
    obtain ⟨rfl, rfl⟩ | ⟨rfl, rfl⟩ := hcases
    · rw [hw]; exact congrArg₂ (· + ·) (weightAt_eq h.node_zero) (weightAt_eq h.node_one)
    · rw [hw, BitVec.add_comm]; exact congrArg₂ (· + ·) (weightAt_eq h.node_zero) (weightAt_eq h.node_one)
  exact ⟨l, r, hcases, hsum ▸ hnode, htwo.fst_least _ htwo.snd hrl⟩

end

/-! ## The codebook of two leaves -/

theorem visit_leaf {node : Vector Node 513} {i : Nat} {w : Word} {sym : Idx}
    (h : node[i]? = some (.leaf w sym)) (d : Nat) (path : Bits) (cb : Vector Bits 257) :
    visit node (d + 1) i path cb = cb.setIfInBounds sym.toNat path := by
  rw [visit, h]

theorem deriveCodebook_two {node : Vector Node 513} {root : Nat} {w v u : Word} {left right a b : Idx}
    (hroot : node[root]? = some (.internal w left right)) (hl : node[left.toNat]? = some (.leaf v a))
    (hr : node[right.toNat]? = some (.leaf u b)) : deriveCodebook node root =
      ((Vector.replicate 257 []).setIfInBounds a.toNat [false]).setIfInBounds b.toNat [true] := by
  rw [deriveCodebook_internal (by rw [leafSym, hroot]), visit, hroot]
  exact (visit_leaf hr 511 _ _).trans
    (congrArg (fun cb => cb.setIfInBounds b.toNat [true]) (visit_leaf hl 511 _ _))

/-- A root with two leaves gives the left one's symbol "0" and the right one's "1" (R200). -/
theorem codewords_two {node : Vector Node 513} {root : Nat} {w v u : Word} {left right a b : Idx} {i j : Nat}
    (hroot : node[root]? = some (.internal w left right)) (hl : node[left.toNat]? = some (.leaf v a))
    (hr : node[right.toNat]? = some (.leaf u b)) (ha : a.toNat = i) (hb : b.toNat = j) (hij : i ≠ j)
    (hi : i < 257) (hj : j < 257) :
    (deriveCodebook node root)[i] = [false] ∧ (deriveCodebook node root)[j] = [true] := by
  simp [deriveCodebook_two hroot hl hr, ha, hb, hij.symm]

/-! ## BUILD -/

/-- BUILD of the empty corpus makes the sentinel's leaf alone, with the codeword "0" (R177, R201). -/
theorem build_empty {s : State} (hb : s.built = false) (h : ∀ k (hk : k < 256), s.freq[k] = 0) :
    ∃ t, exec .build s = .next t ∧ t.nodeCount = 1 ∧ t.root = 0 ∧ t.node[0]? = some (.leaf 1 256) ∧
      t.cb[256] = [false] ∧ ∀ k (hk : k < 256), t.cb[k] = [] := by
  have hleaf := sentinel_builderOf s
  have hn := n_builderOf s
  have hroot := rootOf_builderOf s
  rw [leafCount_of_empty h] at hleaf hn
  have hn : (builderOf s).n = 1 := by omega
  have hroot : rootOf (builderOf s) = 0 := by omega
  have hcb : deriveCodebook (builderOf s).node (rootOf (builderOf s)) =
      (Vector.replicate 257 []).setIfInBounds 256 [false] :=
    deriveCodebook_leaf (by rw [hroot, leafSym, hleaf]; rfl)
  refine ⟨_, exec_build hb, congrArg (BitVec.ofNat 10) hn, congrArg (BitVec.ofNat 10) hroot, hleaf, ?_⟩
  simp only [complete_cb, installCodec, hcb]
  exact ⟨Vector.getElem_setIfInBounds_self _, fun k hk => by
    rw [Vector.getElem_setIfInBounds_ne _ hk.ne', Vector.getElem_replicate]⟩

/-- Settles O35: with one distinct byte the arbiter's order of the two leaves decides the sides, and the sides
the codewords. -/
theorem degenerateCorporaBuildOneOrTwoLeaves : Obligations.DegenerateCorporaBuildOneOrTwoLeaves := by
  refine ⟨fun _ => build_empty, fun s a ha hb h0 hz => ?_⟩
  have h : OneByte s.freq a := ⟨ha, h0, hz⟩
  have hne : a ≠ 256 := Nat.ne_of_lt ha
  have hidx : (BitVec.ofNat 10 a).toNat = a := toNat_ofNat_idx (by omega)
  refine ⟨_, exec_build hb, congrArg (BitVec.ofNat 10) h.n, congrArg (BitVec.ofNat 10) h.rootOf,
    h.node_zero, h.node_one, ?_⟩
  obtain ⟨l, r, ⟨rfl, rfl⟩ | ⟨rfl, rfl⟩, hnode, hlr⟩ := h.node_two
  · have hcond : ¬ (2 ≤ s.freq[a].toNat ∨ s.params.sentinelCp.toNat < a) := fun hc =>
      absurd (precedes_trans hlr (h.sentinel_precedes.2 hc)) (Bool.eq_false_iff.1 (precedes_irrefl 0))
    rw [if_neg hcond]
    have hcb := codewords_two (j := 256) (h.rootOf ▸ hnode) h.node_zero h.node_one hidx rfl hne
      (by omega) (by decide)
    exact ⟨hnode, hcb.symm⟩
  · rw [if_pos (h.sentinel_precedes.1 hlr)]
    have hcb := codewords_two (i := 256) (h.rootOf ▸ hnode) h.node_one h.node_zero rfl hidx hne.symm
      (by decide) (by omega)
    exact ⟨hnode, hcb⟩

end Sys2Proof.Machine

/-! PROOFS. The codebook that BUILD derives, for every table of counts (43_codebook.md R200, R202), and CB_LOOKUP
(R204, R205). -/

namespace Sys2Proof.Machine

/-! ## The symbols that have a leaf -/

theorem mem_leavesFrom_singleton {n k : Nat} (hn : n < 2 ^ 10) (c : Word) :
    some k ∈ (leavesFrom n [c]).map nodeSym ↔ k = n ∧ c ≠ 0 := by
  rw [leavesFrom_singleton]
  by_cases h0 : c = 0
  · simp [h0]
  · rw [if_neg h0, List.map_singleton, List.mem_singleton, nodeSym, toNat_ofNat_idx hn, Option.some.injEq,
      and_iff_left h0]

/-- The leaves of the counters below `n` hold the corpus bytes below `n` (R171). -/
theorem mem_leavesFrom_take (freq : Vector Word 256) {n k : Nat} (hn : n ≤ 256) :
    some k ∈ (leavesFrom 0 (freq.toList.take n)).map nodeSym ↔ k < n ∧ freq[k]? ≠ some 0 := by
  induction n with
  | zero => simp [leavesFrom]
  | succ n ih =>
    have hlen : 0 + (freq.toList.take n).length = n := by simp; omega
    have hn0 : freq[n] ≠ 0 ↔ freq[n]? ≠ some 0 := by
      rw [Vector.getElem?_eq_getElem hn, Ne, Ne, Option.some.injEq]
    have hkn : k = n ∧ freq[n]? ≠ some 0 ↔ k = n ∧ freq[k]? ≠ some 0 :=
      and_congr_right fun hk => by rw [hk]
    rw [take_succ_counts freq hn, leavesFrom_append, List.map_append, List.mem_append, ih (by omega), hlen,
      mem_leavesFrom_singleton (by omega), hn0, hkn, ← or_and_right, Nat.lt_succ_iff_lt_or_eq]

theorem mem_sentinelLeaf {k : Nat} :
    some k ∈ [Node.leaf 1 (BitVec.ofNat 10 Config.sent)].map nodeSym ↔ k = Config.sent := by
  rw [List.map_singleton, List.mem_singleton, nodeSym, toNat_ofNat_idx (by decide), Option.some.injEq]

theorem mem_seedLeaves_iff_hasLeaf (freq : Vector Word 256) (k : Nat) :
    some k ∈ (seedLeaves freq).map nodeSym ↔ hasLeaf freq k := by
  have hall : freq.toList.take 256 = freq.toList := List.take_of_length_le (by simp)
  rw [seedLeaves, List.map_append, List.mem_append, ← hall, mem_leavesFrom_take freq (Nat.le_refl 256),
    mem_sentinelLeaf, or_comm]

/-- With one leaf the sentinel is the only symbol (R177). -/
theorem hasLeaf_iff_of_one {freq : Vector Word 256} (h1 : (seedLeaves freq).length = 1) {k : Nat} :
    hasLeaf freq k ↔ k = Config.sent := by
  have hnil : leavesFrom 0 freq.toList = [] := by simpa [seedLeaves] using h1
  rw [← mem_seedLeaves_iff_hasLeaf, seedLeaves, hnil, List.nil_append, mem_sentinelLeaf]

/-- The nodes that hold a symbol are those of seed(). -/
theorem Shape.exists_leafSym_iff {freq : Vector Word 256} {b : Builder} (h : Shape freq b) {k : Nat} :
    (∃ i < b.n, leafSym b.node i = some k) ↔ hasLeaf freq k := by
  rw [← mem_seedLeaves_iff_hasLeaf, List.mem_map]
  constructor
  · rintro ⟨i, hi, hs⟩
    rw [leafSym_eq_of_lt h (h.lt_of_leafSym hi (by rw [hs]; exact Option.some_ne_none k))] at hs
    obtain ⟨x, hx, hs⟩ := Option.bind_eq_some_iff.1 hs
    exact ⟨x, List.mem_of_getElem? hx, hs⟩
  · rintro ⟨x, hx, hs⟩
    obtain ⟨i, hx⟩ := List.mem_iff_getElem?.1 hx
    obtain ⟨hi, -⟩ := List.getElem?_eq_some_iff.1 hx
    exact ⟨i, hi.trans_le h.seeded, by rw [leafSym_eq_of_lt h hi, hx]; exact hs⟩

/-! ## Paths in what merge() leaves

The lemmas on the paths of a `TrieOk` arena suppose exact weights. These hold of every table of counts. -/

theorem follow_lt {node : Vector Node 513} {n i j : Nat} {q : Bits} (hc : Closed n node) (hi : i < n)
    (h : follow node i q = some j) : j < n := by
  induction q generalizing i with
  | nil => cases h; exact hi
  | cons c q ih =>
    obtain ⟨w, l, r, hnode, h⟩ := follow_cons h
    obtain ⟨hl, hr⟩ := hc i hi w l r hnode
    exact ih (by split; exacts [hr, hl]) h

theorem exists_follow_of_isChild {node : Vector Node 513} {i p : Nat} (h : isChild node i p = true) :
    ∃ c, follow node p [c] = some i := by
  obtain ⟨w, l, r, hnode, rfl | rfl⟩ := isChild_eq_true.1 h
  · exact ⟨false, follow_internal hnode false []⟩
  · exact ⟨true, follow_internal hnode true []⟩

section
variable {freq : Vector Word 256} {b : Builder} (h : Shape freq b)
include h

/-- A path is at most as long as there are internal nodes up to the one it begins at (R202). -/
theorem Shape.length_follow_le {i j : Nat} {q : Bits} (hi : i < b.n) (hq : follow b.node i q = some j) :
    q.length ≤ i + 1 - (seedLeaves freq).length := by
  induction q generalizing i with
  | nil => exact Nat.zero_le _
  | cons c q ih =>
    obtain ⟨w, l, r, hnode, hq⟩ := follow_cons hq
    obtain ⟨hlo, hl, hr, -⟩ := h.internal hi hnode
    have hc : (if c then r.toNat else l.toNat) < i := by split; exacts [hr, hl]
    have hlen := ih (hc.trans hi) hq
    rw [List.length_cons]
    omega

variable (hqueue : queue b = [rootOf b])
include hqueue

/-- With L leaves the root is node 2L - 2 (R176). -/
theorem Shape.rootOf_add_two : rootOf b + 2 = 2 * (seedLeaves freq).length := by
  have hroot := h.rootOf_succ hqueue
  have hcount := h.count
  rw [hqueue, List.length_singleton] at hcount
  omega

/-- Every node is reached from the root: its parent is, and it has one (R176). -/
theorem Shape.reachable {i : Nat} (hi : i < b.n) : ∃ q, follow b.node (rootOf b) q = some i := by
  induction hk : b.n - i using Nat.strong_induction_on generalizing i with
  | _ k ih =>
    by_cases hir : i = rootOf b
    · exact ⟨[], hir ▸ rfl⟩
    · obtain ⟨p, hp, hc, -⟩ := h.parent_unique hi (by rw [hqueue, List.mem_singleton]; exact hir)
      have hip : i < p := by
        obtain ⟨w, l, r, hnode, hlr⟩ := isChild_eq_true.1 hc
        obtain ⟨-, hl, hr, -⟩ := h.internal hp hnode
        omega
      obtain ⟨q, hq⟩ := ih (b.n - p) (by omega) hp rfl
      obtain ⟨c, hc⟩ := exists_follow_of_isChild hc
      exact ⟨q ++ [c], by rw [follow_append, hq, Option.bind_some, hc]⟩

/-! ## The codebook -/

/-- With one leaf the sentinel's codeword is "0", and there is no other (R201). -/
theorem Shape.deriveCodebook_one (h1 : (seedLeaves freq).length = 1) :
    deriveCodebook b.node (rootOf b) = (Vector.replicate 257 []).setIfInBounds Config.sent [false] := by
  have hlast := h.rootOf_add_two hqueue
  have hroot : rootOf b = (seedLeaves freq).length - 1 := by omega
  refine deriveCodebook_leaf ?_
  rw [hroot, leafSym_eq_of_lt h (by omega), seedLeaves_last]
  rfl

/-- With two leaves or more the root is no leaf (R176). -/
theorem Shape.leafSym_rootOf (h2 : 2 ≤ (seedLeaves freq).length) : leafSym b.node (rootOf b) = none := by
  have hroot := h.rootOf_add_two hqueue
  have hlast := h.rootOf_succ hqueue
  by_contra hs
  have := h.lt_of_leafSym (by omega) hs
  omega

theorem Shape.pathsOk (h2 : 2 ≤ (seedLeaves freq).length) :
    PathsOk b.node (rootOf b) (deriveCodebook b.node (rootOf b)) := by
  rw [deriveCodebook_internal (h.leafSym_rootOf hqueue h2)]
  exact pathsOk_visit rfl fun k hk hne => absurd (Vector.getElem_replicate hk) hne

/-- The symbol of every leaf has a codeword (R200). -/
theorem Shape.codeword_ne_nil {k : Nat} (hk : k < 257) (hleaf : hasLeaf freq k)
    (h2 : 2 ≤ (seedLeaves freq).length) : (deriveCodebook b.node (rootOf b))[k] ≠ [] := by
  have hroot := h.rootOf_add_two hqueue
  have hlast := h.rootOf_succ hqueue
  have hnone := h.leafSym_rootOf hqueue h2
  have hsize := h.n_le
  obtain ⟨i, hi, hs⟩ := h.exists_leafSym_iff.2 hleaf
  obtain ⟨q, hq⟩ := h.reachable hqueue hi
  have hlen := h.length_follow_le (by omega) hq
  have hq0 : q ≠ [] := by
    rintro rfl
    cases hq
    rw [hnone] at hs
    cases hs
  rw [deriveCodebook_internal hnone]
  exact visit_reaches hk hq hs (by omega) hq0

/-- Exactly the symbols with a leaf have a codeword (R202). -/
theorem Shape.codeword_ne_nil_iff {k : Nat} (hk : k < 257) :
    (deriveCodebook b.node (rootOf b))[k] ≠ [] ↔ hasLeaf freq k := by
  have hpos := (length_seedLeaves freq).1
  have hlast := h.rootOf_succ hqueue
  by_cases h1 : (seedLeaves freq).length = 1
  · rw [hasLeaf_iff_of_one h1, eq_comm (a := k)]
    simp [h.deriveCodebook_one hqueue h1, Vector.getElem_setIfInBounds]
  · have h2 : 2 ≤ (seedLeaves freq).length := by omega
    refine ⟨fun hne => ?_, fun hleaf => h.codeword_ne_nil hqueue hk hleaf h2⟩
    obtain ⟨j, hj, hs⟩ := Option.bind_eq_some_iff.1 (h.pathsOk hqueue h2 k hk hne)
    exact h.exists_leafSym_iff.1 ⟨j, follow_lt h.closed (by omega) hj, hs⟩

/-- Each codeword of a trie of two leaves or more leads to its symbol's leaf, by at most L - 1 bits (R202). -/
theorem Shape.codeword_path {k : Nat} (hk : k < 257) (hleaf : hasLeaf freq k)
    (h2 : 2 ≤ (seedLeaves freq).length) :
    (follow b.node (rootOf b) (deriveCodebook b.node (rootOf b))[k]).bind (leafSym b.node) = some k ∧
      (deriveCodebook b.node (rootOf b))[k].length ≤ (seedLeaves freq).length - 1 := by
  have hroot := h.rootOf_add_two hqueue
  have hlast := h.rootOf_succ hqueue
  have hpath := h.pathsOk hqueue h2 k hk (h.codeword_ne_nil hqueue hk hleaf h2)
  obtain ⟨j, hj, -⟩ := Option.bind_eq_some_iff.1 hpath
  have hlen := h.length_follow_le (by omega) hj
  exact ⟨hpath, by omega⟩

end

/-- The first codeword ends at a leaf, from which no bit leads on to the second's (R202). -/
theorem PathsOk.not_prefix {node : Vector Node 513} {root : Nat} {cb : Vector Bits 257}
    (h : PathsOk node root cb) {j k : Nat} (hj : j < 257) (hk : k < 257) (hjk : j ≠ k) (hj0 : cb[j] ≠ [])
    (hk0 : cb[k] ≠ []) : ¬ cb[j] <+: cb[k] := by
  rintro ⟨q, hq⟩
  have hpath := h k hk hk0
  obtain ⟨i, hi, hs⟩ := Option.bind_eq_some_iff.1 (h j hj hj0)
  rw [← hq, follow_append, hi, Option.bind_some] at hpath
  cases q with
  | nil => exact hjk (Option.some.inj (hs.symm.trans hpath))
  | cons c q =>
    obtain ⟨m, hm, -⟩ := Option.bind_eq_some_iff.1 hpath
    obtain ⟨w, l, r, hnode, -⟩ := follow_cons hm
    rw [leafSym, hnode] at hs
    cases hs

theorem Shape.codebook_prefixFree {freq : Vector Word 256} {b : Builder} (h : Shape freq b)
    (hqueue : queue b = [rootOf b]) {j k : Nat} (hj : j < 257) (hk : k < 257) (hjk : j ≠ k)
    (hj0 : (deriveCodebook b.node (rootOf b))[j] ≠ []) (hk0 : (deriveCodebook b.node (rootOf b))[k] ≠ []) :
    ¬ (deriveCodebook b.node (rootOf b))[j] <+: (deriveCodebook b.node (rootOf b))[k] := by
  have hpos := (length_seedLeaves freq).1
  by_cases h1 : (seedLeaves freq).length = 1
  · have hjs := (hasLeaf_iff_of_one h1).1 ((h.codeword_ne_nil_iff hqueue hj).1 hj0)
    have hks := (hasLeaf_iff_of_one h1).1 ((h.codeword_ne_nil_iff hqueue hk).1 hk0)
    exact absurd (hjs.trans hks.symm) hjk
  · exact (h.pathsOk hqueue (by omega)).not_prefix hj hk hjk hj0 hk0

/-! ## BUILD -/

theorem queue_builderOf (s : State) : queue (builderOf s) = [rootOf (builderOf s)] := queue_buildTrie _ _ _ _

/-- Settles O36: every leaf is reached from the root, and a path passes internal nodes only, of which there are
L - 1. -/
theorem codewordsAreRootToLeafPaths : Obligations.CodewordsAreRootToLeafPaths := by
  intro s hb
  have hshape := shape_builderOf s
  have hqueue := queue_builderOf s
  refine ⟨_, exec_build hb, ?_⟩
  simp only [complete_cb, complete_node, complete_root, installCodec, toNat_rootOf_builderOf, ← leafCount_eq]
  refine ⟨fun k hk => hshape.codeword_ne_nil_iff hqueue hk,
    fun h2 k hk hleaf => hshape.codeword_path hqueue hk hleaf h2, fun h1 => ?_⟩
  simp [hshape.deriveCodebook_one hqueue h1]

/-- Settles O37: a codeword ends at a leaf, from which no bit leads on. -/
theorem codebookIsPrefixFree : Obligations.CodebookIsPrefixFree := fun s hb =>
  ⟨_, exec_build hb, fun _ _ hj hk => (shape_builderOf s).codebook_prefixFree (queue_builderOf s) hj hk⟩

/-! ## CB_LOOKUP -/

theorem execCbLookup_of_lt {idx : Nat} {s : State} (hb : s.built = true) (h : idx < 257) :
    execCbLookup idx s = .next (complete errOk
      { s with res0 := BitVec.ofNat 32 s.cb[idx].length, res1 := 0, cwbits := packCode s.cb[idx] }) := by
  rw [execCbLookup, if_neg (not_not.2 hb), dif_pos h]

theorem execCbLookup_of_le {idx : Nat} {s : State} (hb : s.built = true) (h : 257 ≤ idx) :
    execCbLookup idx s = .next (raiseError .badIndex s) := by
  rw [execCbLookup, if_neg (not_not.2 hb), dif_neg (Nat.not_lt.2 h)]

theorem execCbLookup_unbuilt (idx : Nat) {s : State} (h : s.built = false) :
    execCbLookup idx s = .next (raiseError .notBuilt s) :=
  if_pos (by rw [h]; exact Bool.false_ne_true)

/-- The CWBITS words of a codeword, bit by bit (R205). -/
theorem packCode_getLsbD (bs : Bits) {w j : Nat} (hw : w < 8) (hj : j < 32) :
    (packCode bs)[w].getLsbD (31 - j) = bs.getD (32 * w + j) false := by
  rw [packCode, Vector.getElem_ofFn, packWord_getLsbD bs w hj]

/-- Settles O39: the frame is what the frame lemmas of the commands leave to CB_LOOKUP. -/
theorem cbLookupReturnsTheCodeword : Obligations.CbLookupReturnsTheCodeword := by
  refine ⟨fun s idx hi hb => ?_, fun s idx => ⟨execCbLookup_unbuilt idx, execCbLookup_of_le⟩⟩
  have h : exec (.cbLookup idx) s = _ := execCbLookup_of_lt hb hi
  obtain ⟨hcompleted, -⟩ := exec_completed h
  exact ⟨_, h, hcompleted, rfl, rfl, fun _ hw _ hj => packCode_getLsbD _ hw hj,
    (exec_codecFrame h nofun nofun nofun).sameCodec, exec_sameResults h nofun nofun nofun, exec_sameRest h,
    fun _ => by rw [exec_mem h nofun nofun]⟩

end Sys2Proof.Machine

/-! PROOFS. ENCODE (44_encoder.md R220 to R223): the stream it writes, the first byte it does not know and the
length laws; and the round trip through DECODE (R225). -/

namespace Sys2Proof.Machine

/-! ## Parts of what DMEM holds -/

/-- The two parts of a piece of DMEM's contents. -/
theorem holdsBytes_of_append {m : Memory} {a : Nat} {bs cs : List Byte} (h : holdsBytes m a (bs ++ cs)) :
    holdsBytes m a bs ∧ holdsBytes m (a + bs.length) cs := by
  induction bs generalizing a with
  | nil => exact ⟨nofun, h⟩
  | cons b bs ih =>
    obtain ⟨hb, h⟩ := holdsBytes_cons.1 h
    obtain ⟨hbs, hcs⟩ := ih h
    rw [Nat.add_right_comm] at hcs
    exact ⟨holdsBytes_cons.2 ⟨hb, hbs⟩, hcs⟩

theorem holdsBits_of_append {m : Memory} {a : Nat} {bs cs : Bits} (h : holdsBits m a (bs ++ cs)) :
    holdsBits m a bs := fun p hp => by
  rw [h p (by rw [List.length_append]; omega), List.getElem_append_left hp]

/-! ## The outcomes of ENCODE's loop -/

theorem execEncode_of_bits {s : State} {bs : Bits} (hb : s.built = true) (hr : rangesOk s)
    (h : translate s.cb s.mem (srcAddr s) (srcLen s) 0 = .bits bs) :
    execEncode s = .next (emitStream (bs ++ codeOfSent s.cb) s) := by
  rw [execEncode, if_neg (not_not.2 hb), if_neg (not_not.2 hr), h]

theorem execEncode_of_unknown {s : State} {pos : Nat} (hb : s.built = true) (hr : rangesOk s)
    (h : translate s.cb s.mem (srcAddr s) (srcLen s) 0 = .unknown pos) :
    execEncode s = .next (raiseBulk .unknownSymbol 0 (BitVec.ofNat 32 pos) s) := by
  rw [execEncode, if_neg (not_not.2 hb), if_neg (not_not.2 hr), h]

theorem translate_unknown {cb : Vector Bits 257} {m : Memory} {a n i : Nat} {b : Byte}
    (h : m.read (a + i) = some b) (hb : codeOfByte cb b = []) : translate cb m a (n + 1) i = .unknown i := by
  rw [translate, h]
  exact if_pos hb

theorem prepend_eq_bits {c bs : Bits} {t : Translation} (h : prepend c t = .bits bs) : ∃ cs, t = .bits cs := by
  cases t with
  | bits cs => exact ⟨cs, rfl⟩
  | unknown | unwritten => cases h

/-- The loop comes to the end of a message only if every byte has a codeword (R220). -/
theorem encodable_of_translate {cb : Vector Bits 257} {m : Memory} {a i : Nat} {msg : List Byte} {bs : Bits}
    (hm : holdsBytes m (a + i) msg) (h : translate cb m a msg.length i = .bits bs) : encodable cb msg := by
  induction msg generalizing i bs with
  | nil => exact nofun
  | cons b msg ih =>
    obtain ⟨hb, hm⟩ := holdsBytes_cons.1 hm
    by_cases hcode : codeOfByte cb b = []
    · rw [List.length_cons, translate_unknown hb hcode] at h
      cases h
    · rw [List.length_cons, translate, hb] at h
      dsimp only at h
      rw [if_neg hcode] at h
      obtain ⟨cs, hcs⟩ := prepend_eq_bits h
      exact List.forall_mem_cons.2 ⟨hcode, ih hm hcs⟩

/-- Settles O41: the loop passes the bytes with codewords and stops at the first without, before the capacity
check. -/
theorem encodeReportsTheFirstUnknownByte : Obligations.EncodeReportsTheFirstUnknownByte := by
  intro s pre b hb hr hlt hh he hcode
  obtain ⟨hpre, hlast⟩ := holdsBytes_of_append hh
  obtain ⟨hread, -⟩ := holdsBytes_cons.1 hlast
  obtain ⟨n, hn⟩ : ∃ n, srcLen s = pre.length + (n + 1) := ⟨srcLen s - pre.length - 1, by omega⟩
  refine execEncode_of_unknown hb hr ?_
  rw [hn, translate_append (n + 1) hpre he, Nat.zero_add, translate_unknown hread hcode]
  rfl

/-! ## When ENCODE has a stream to write -/

/-- ENCODE's checks pass in `s` up to its output stage, and its source range holds the message `msg`, whose bytes
all have codewords (R220, R262). -/
structure EncodeReady (s : State) (msg : List Byte) : Prop where
  built : s.built = true
  range : rangesOk s
  length : msg.length = srcLen s
  bytes : holdsBytes s.mem (srcAddr s) msg
  encodable : encodable s.cb msg

theorem EncodeReady.exec_encode {s : State} {msg : List Byte} (h : EncodeReady s msg) :
    exec .encode s = .next (emitStream (streamOf s.cb msg) s) :=
  execEncode_of_bits h.built h.range (by rw [← h.length]; exact translate_encodable h.bytes h.encodable)

/-- `s` with the stream `bs` written out (R220, R222). -/
def encoded (bs : Bits) (s : State) : State :=
  finishBulk (BitVec.ofNat 32 (bytesFor bs.length)) (BitVec.ofNat 32 bs.length)
    { s with
      mem := s.mem.writeBytes (dstAddr s)
        (packBytes (bytesFor bs.length) (padTo (8 * bytesFor bs.length) bs)) }

theorem emitStream_of_le {bs : Bits} {s : State} (h : bytesFor bs.length ≤ dstCap s) :
    emitStream bs s = encoded bs s :=
  if_neg (Nat.not_lt.2 h)

theorem emitStream_of_lt {bs : Bits} {s : State} (h : dstCap s < bytesFor bs.length) :
    emitStream bs s = raiseBulk .outputOverflow (BitVec.ofNat 32 (bytesFor bs.length)) 0 s :=
  if_pos h

/-- A successful ENCODE has passed every check and written the message's stream. -/
theorem encodeReady_of_exec_encode {s t : State} {msg : List Byte} (h : exec .encode s = .next t)
    (ht : t.err = errOk) (hl : msg.length = srcLen s) (hh : holdsBytes s.mem (srcAddr s) msg) :
    EncodeReady s msg ∧ bytesFor (streamOf s.cb msg).length ≤ dstCap s ∧ t = encoded (streamOf s.cb msg) s := by
  obtain ⟨-, rfl⟩ | ⟨-, -, rfl⟩ | ⟨-, -, pos, -, rfl⟩ | ⟨hb, hr, bs, hbs, -⟩ := execEncode_next h
  · exact absurd ht (by decide : errCode .notBuilt ≠ errOk)
  · exact absurd ht (by decide : errCode .badRange ≠ errOk)
  · exact absurd ht (by decide : errCode .unknownSymbol ≠ errOk)
  · rw [← hl] at hbs
    have hready : EncodeReady s msg := ⟨hb, hr, hl, hh, encodable_of_translate hh hbs⟩
    obtain rfl := Host.Outcome.next.inj (hready.exec_encode.symm.trans h)
    obtain ⟨-, hemit⟩ | ⟨hfit, hemit⟩ := emitStream_cases (streamOf s.cb msg) s
    · rw [hemit] at ht
      exact absurd ht (by decide : errCode .outputOverflow ≠ errOk)
    · exact ⟨hready, hfit, hemit⟩

/-! ## What ENCODE writes -/

theorem le_eight_mul_bytesFor (n : Nat) : n ≤ 8 * bytesFor n := by
  rw [bytesFor]
  omega

theorem padTo_of_le {n : Nat} {bs : Bits} (h : bs.length ≤ n) :
    padTo n bs = bs ++ List.replicate (n - bs.length) false := by
  rw [padTo, List.take_of_length_le h]

/-- The stream and zero bits up to a whole byte stand at DST_ADDR (R90, R222). -/
theorem holdsBits_encoded (bs : Bits) (s : State) : holdsBits (encoded bs s).mem (dstAddr s)
    (bs ++ List.replicate (8 * bytesFor bs.length - bs.length) false) := by
  rw [← padTo_of_le (le_eight_mul_bytesFor bs.length)]
  intro p hp
  rw [List.getElem_eq_getD false]
  rw [length_padTo] at hp
  exact streamBit_writeBytes s.mem (dstAddr s) _ _ hp

theorem sameOutside_encoded (bs : Bits) (s : State) :
    sameOutside s.mem (encoded bs s).mem (dstAddr s) (bytesFor bs.length) := by
  have h := sameOutside_writeBytes s.mem (dstAddr s)
    (packBytes (bytesFor bs.length) (padTo (8 * bytesFor bs.length) bs))
  rwa [length_packBytes] at h

/-- Settles O40: the output stage either writes the padded stream or raises OUTPUT_OVERFLOW, and the frame is what
the frame lemmas of the commands leave to ENCODE. -/
theorem encodeWritesThePaddedStream : Obligations.EncodeWritesThePaddedStream := by
  intro s msg hb hr hl hh he
  have h := EncodeReady.exec_encode ⟨hb, hr, hl, hh, he⟩
  refine ⟨fun hfit => ?_, fun hlt => by rw [h, emitStream_of_lt hlt]; rfl⟩
  rw [emitStream_of_le hfit] at h
  exact ⟨_, h, (exec_completed h).1, rfl, rfl, rfl, holdsBits_encoded _ s, sameOutside_encoded _ s,
    (exec_codecFrame h nofun nofun nofun).sameCodec, exec_sameLookup h nofun nofun nofun, exec_sameRest h⟩

/-! ## The length laws -/

section
variable {bs : Bits} {s : State} (hr : rangesOk s) (hfit : bytesFor bs.length ≤ dstCap s)
include hr hfit

/-- A stream that fits its destination is far shorter than 2^32 (R87). -/
theorem bytesFor_le_of_fits : bytesFor bs.length ≤ 2 ^ 23 :=
  (Nat.le_add_left _ _).trans ((dstAddr_add_le hr hfit).trans (dmemSize_le s.params))

theorem encoded_resultLen_toNat : (encoded bs s).resultLen.toNat = bytesFor bs.length := by
  have hle := bytesFor_le_of_fits hr hfit
  exact (BitVec.toNat_ofNat _ 32).trans (Nat.mod_eq_of_lt (by omega))

theorem encoded_resultBits_toNat : (encoded bs s).resultBits.toNat = bs.length := by
  have hle := bytesFor_le_of_fits hr hfit
  have hbits := le_eight_mul_bytesFor bs.length
  exact (BitVec.toNat_ofNat _ 32).trans (Nat.mod_eq_of_lt (by omega))

end

/-- The sentinel always has a codeword (R202). -/
theorem CodecOk.codeOfSent_ne_nil {s : State} (hc : CodecOk s) (hb : s.built = true) : codeOfSent s.cb ≠ [] := by
  obtain ⟨i, hi, hsent⟩ := (hc.trie hb).sentinel
  obtain ⟨_, hne⟩ := (hc.codebook hb).present i hi _ hsent
  exact hne

theorem length_streamOf (cb : Vector Bits 257) (msg : List Byte) : (streamOf cb msg).length =
    (msg.map fun b => (codeOfByte cb b).length).sum + (codeOfSent cb).length := by
  rw [streamOf, codeBits, List.length_append, List.length_flatMap]

/-- Settles O43: the stream is written whole, its length does not wrap, and the sentinel's codeword is not
empty. -/
theorem encodeLengthLaws : Obligations.EncodeLengthLaws := by
  intro s t msg hc h ht hl hh
  obtain ⟨hready, hfit, rfl⟩ := encodeReady_of_exec_encode h ht hl hh
  have hsent := List.length_pos_iff.2 (hc.codeOfSent_ne_nil hready.built)
  rw [encoded_resultBits_toNat hready.range hfit, encoded_resultLen_toNat hready.range hfit, bytesFor,
    length_streamOf]
  omega

/-! ## DECODE of a whole stream -/

theorem execDecode_of_stop {s : State} {out : List Byte} {p : Nat} (hb : s.built = true) (hr : rangesOk s)
    (h : decodeWalk s = .stop out p) : execDecode s = .next (emitSymbols out p s) := by
  rw [execDecode, if_neg (not_not.2 hb), if_neg (not_not.2 hr), h]

/-- In a trie of two leaves or more the walk over a message's stream emits the message and stops at the sentinel's
leaf (R242, R243). -/
theorem decodeWalk_stream {s : State} {msg : List Byte} (hc : CodecOk s) (hb : s.built = true)
    (hroot : leafSym s.node s.root.toNat = none) (he : encodable s.cb msg)
    (hlen : (streamOf s.cb msg).length ≤ 8 * srcLen s)
    (hbits : holdsBits s.mem (srcAddr s) (streamOf s.cb msg)) :
    decodeWalk s = .stop msg (streamOf s.cb msg).length := by
  have ht := hc.trie hb
  have hlast := ht.rootLast
  have hsize := ht.size
  have hpaths := (hc.codebook hb).paths hroot
  have hsent := hc.codeOfSent_ne_nil hb
  obtain ⟨w, l, r, hnode⟩ := internal_of_leafSym (by omega) hroot
  obtain ⟨j, hj, hleaf⟩ := Option.bind_eq_some_iff.1 (hpaths 256 (by omega) hsent)
  obtain ⟨v, sym, hstop, hsym⟩ := leafSym_eq_some hleaf
  obtain ⟨hmsg, hend⟩ := bitsAt_append.1 (bitsAt_of_holdsBits hbits)
  obtain ⟨cur, out, hat, hwalk⟩ := (standsAt_internal (out := []) hnode).walk_message hpaths he hmsg
  rw [streamOf, List.length_append] at hlen ⊢
  obtain ⟨k, hk⟩ := Nat.exists_eq_add_of_le hlen
  rw [decodeWalk, hk, Nat.add_assoc, hwalk, hat.walk_path hsent hj hend,
    walk_stop (settle_sentinel hstop hsym), List.append_nil, List.reverse_reverse, Nat.zero_add]

/-- In the one-leaf trie the walk stops before it needs a bit (R246). -/
theorem decodeWalk_oneLeaf {s : State} (hc : CodecOk s) (hb : s.built = true)
    (hroot : leafSym s.node s.root.toNat ≠ none) : decodeWalk s = .stop [] 0 := by
  obtain ⟨w, sym, hnode, hsym⟩ := leafSym_eq_some ((hc.trie hb).root_leaf hroot)
  exact walk_stop (settle_sentinel hnode hsym)

/-- In the one-leaf trie no byte has a codeword, so only the empty message is encodable (R201). -/
theorem eq_nil_of_encodable_oneLeaf {s : State} {msg : List Byte} (hc : CodecOk s) (hb : s.built = true)
    (hroot : leafSym s.node s.root.toNat ≠ none) (he : encodable s.cb msg) : msg = [] := by
  refine List.eq_nil_iff_forall_not_mem.2 fun b hmem => he b hmem ?_
  have hlt := b.isLt
  have hne : Config.sent ≠ b.toNat := by simp only [Config.sent]; omega
  rw [(hc.codebook hb).oneLeaf hroot, codeOfByte, Vector.getElem_setIfInBounds_ne _ hne, Vector.getElem_replicate]

/-- In every built codec the walk over a message's stream gives the message. -/
theorem exists_decodeWalk_stream {s : State} {msg : List Byte} (hc : CodecOk s) (hb : s.built = true)
    (he : encodable s.cb msg) (hlen : (streamOf s.cb msg).length ≤ 8 * srcLen s)
    (hbits : holdsBits s.mem (srcAddr s) (streamOf s.cb msg)) : ∃ p, decodeWalk s = .stop msg p := by
  by_cases hroot : leafSym s.node s.root.toNat = none
  · exact ⟨_, decodeWalk_stream hc hb hroot he hlen hbits⟩
  · rw [eq_nil_of_encodable_oneLeaf hc hb hroot he]
    exact ⟨0, decodeWalk_oneLeaf hc hb hroot⟩

/-! ## The round trip -/

/-- `s` with the symbols `out` written out, after `p` bits (R240). -/
def decoded (out : List Byte) (p : Nat) (s : State) : State :=
  finishBulk (BitVec.ofNat 32 out.length) (BitVec.ofNat 32 p)
    { s with mem := s.mem.writeBytes (dstAddr s) out }

theorem emitSymbols_of_le {out : List Byte} {s : State} (h : out.length ≤ dstCap s) (p : Nat) :
    emitSymbols out p s = decoded out p s :=
  if_neg (Nat.not_lt.2 h)

/-- `s` with the range that ENCODE wrote latched as the source and another one as the destination (R39, R225). -/
def latchedForDecode (a c : Word) (s : State) : State :=
  { s with latch := { srcAddr := s.latch.dstAddr, srcLen := s.resultLen, dstAddr := a, dstCap := c } }

/-- The source of that DECODE is ENCODE's output, which stayed inside its own destination (R87). -/
theorem rangesOk_latchedForDecode {bs : Bits} {s : State} (hr : rangesOk s) (hfit : bytesFor bs.length ≤ dstCap s)
    {a c : Word} (hin : inRange s.params a.toNat c.toNat)
    (hover : ¬ overlap (dstAddr s) (encoded bs s).resultLen.toNat a.toNat c.toNat) :
    rangesOk (latchedForDecode a c (encoded bs s)) := by
  refine ⟨?_, hin, hover⟩
  have hsrc := dstAddr_add_le hr hfit
  rwa [← encoded_resultLen_toNat hr hfit] at hsrc

/-- DECODE of what ENCODE wrote walks over the message's stream (R225). -/
theorem EncodeReady.exists_decodeWalk {s : State} {msg : List Byte} (h : EncodeReady s msg) (hc : CodecOk s)
    (hfit : bytesFor (streamOf s.cb msg).length ≤ dstCap s) (a c : Word) :
    ∃ p, decodeWalk (latchedForDecode a c (encoded (streamOf s.cb msg) s)) = .stop msg p := by
  have hframe : CodecFrame s (latchedForDecode a c (encoded (streamOf s.cb msg) s)) := { CodecFrame.refl s with }
  have hbits := holdsBits_of_append (holdsBits_encoded (streamOf s.cb msg) s)
  refine exists_decodeWalk_stream (hframe.codecOk hc) h.built h.encodable ?_ hbits
  have hlen := le_eight_mul_bytesFor (streamOf s.cb msg).length
  rwa [← encoded_resultLen_toNat h.range hfit] at hlen

/-- Settles O51: ENCODE's output is the message's stream and zero bits, DECODE's walk over the stream gives the
message back in every built codec, and the message fits the destination. -/
theorem decodeOfEncodeIsTheMessage : Obligations.DecodeOfEncodeIsTheMessage := by
  intro s msg hc hb hr hl hh he hfit
  have hready : EncodeReady s msg := ⟨hb, hr, hl, hh, he⟩
  have h := hready.exec_encode
  rw [emitStream_of_le hfit] at h
  refine ⟨_, h, rfl, fun a c hin hcap hover => ?_⟩
  obtain ⟨p, hp⟩ := hready.exists_decodeWalk hc hfit a c
  have hu := execDecode_of_stop (s := latchedForDecode a c (encoded (streamOf s.cb msg) s)) hb
    (rangesOk_latchedForDecode hr hfit hin hover) hp
  rw [emitSymbols_of_le hcap] at hu
  exact ⟨_, hu, rfl, rfl, holdsBytes_writeBytes _ a.toNat msg⟩

end Sys2Proof.Machine

/-! PROOFS. DECODE (45_decoder.md R240 to R248): the message it writes, the truncated source, the one-leaf trie,
the bytes it does not read; and the completion of every command (R300). -/

namespace Sys2Proof.Machine

/-! ## DECODE of a message that fits -/

theorem exec_decode_of_fit {s : State} {out : List Byte} {p : Nat} (hb : s.built = true) (hr : rangesOk s)
    (h : decodeWalk s = .stop out p) (hfit : out.length ≤ dstCap s) :
    exec .decode s = .next (decoded out p s) :=
  (execDecode_of_stop hb hr h).trans (congrArg Host.Outcome.next (emitSymbols_of_le hfit p))

/-! ## The one-leaf trie -/

theorem decodeWalk_of_sentinel_root {s : State} (h : leafSym s.node s.root.toNat = some Config.sent) :
    decodeWalk s = .stop [] 0 := by
  obtain ⟨w, sym, hnode, hsym⟩ := leafSym_eq_some h
  exact walk_stop (settle_sentinel hnode hsym)

/-- Settles O47: the walk stops at the root before its first bit, and the empty message fits every capacity. -/
theorem decodeOfTheOneLeafTrieReadsNothing : Obligations.DecodeOfTheOneLeafTrieReadsNothing :=
  fun _ hb hr hroot => exec_decode_of_fit hb hr (decodeWalk_of_sentinel_root hroot) (Nat.zero_le _)

/-! ## The message -/

theorem emitSymbols_of_lt {out : List Byte} {s : State} (h : dstCap s < out.length) (p : Nat) :
    emitSymbols out p s = raiseBulk .outputOverflow (BitVec.ofNat 32 out.length) 0 s :=
  if_pos h

/-- Settles O44: the walk over the stream gives the message, and the output stage either writes it or raises
OUTPUT_OVERFLOW; the frame is what the frame lemmas of the commands leave to DECODE. -/
theorem decodeReturnsTheMessage : Obligations.DecodeReturnsTheMessage := by
  intro s msg hc hb hr hroot he hlen hbits
  have hstop := decodeWalk_stream hc hb hroot he hlen hbits
  refine ⟨fun hfit => ?_, fun hlt => (execDecode_of_stop hb hr hstop).trans
    (congrArg Host.Outcome.next (emitSymbols_of_lt hlt _))⟩
  have h := exec_decode_of_fit hb hr hstop hfit
  exact ⟨_, h, (exec_completed h).1, rfl, rfl, rfl, holdsBytes_writeBytes s.mem (dstAddr s) msg,
    sameOutside_writeBytes s.mem (dstAddr s) msg, (exec_codecFrame h nofun nofun nofun).sameCodec,
    exec_sameLookup h nofun nofun nofun, exec_sameRest h⟩

/-! ## The truncated source -/

theorem execDecode_of_truncated {s : State} (hb : s.built = true) (hr : rangesOk s)
    (h : decodeWalk s = .truncated) : execDecode s = .next (raiseBulk .truncatedInput 0 s.latch.srcLen s) := by
  rw [execDecode, if_neg (not_not.2 hb), if_neg (not_not.2 hr), h]

/-- Settles O45: the whole codewords and the path use up the source, and the walk stands at an internal node. -/
theorem decodeReportsTruncation : Obligations.DecodeReportsTruncation := by
  intro s msg q i hc hb hr he hbits hlen hq hi
  obtain ⟨cur, out, ⟨w, l, r, -, hset⟩, hwalk⟩ := decodeWalk_at hc hb he hbits hq hi
  exact execDecode_of_truncated hb hr ((hwalk 0 hlen.symm).trans (walk_truncated hset))

/-! ## What follows the sentinel -/

section
variable {node : Vector Node 513} {root a k cur p p' : Nat} {m m' : Memory} {out res : List Byte}

/-- A walk that stops has done so before its next bit, or there is one and the walk after it stops (R240). -/
theorem walk_eq_stop (h : walk node root m a k cur p out = .stop res p') :
    (∃ out', settle node root cur out = .stop out' ∧ res = out'.reverse ∧ p' = p) ∨
    (∃ n l r out' b, k = n + 1 ∧ settle node root cur out = .atNode l r out' ∧ streamBit m a p = some b ∧
      walk node root m a n (if b then r.toNat else l.toNat) (p + 1) out' = .stop res p') := by
  cases hset : settle node root cur out with
  | stuck => cases k <;> rw [walk, hset] at h <;> cases h
  | stop out' =>
    rw [walk_stop hset] at h
    cases h
    exact .inl ⟨out', rfl, rfl, rfl⟩
  | atNode l r out' =>
    cases k with
    | zero => rw [walk_truncated hset] at h; cases h
    | succ n =>
      cases hbit : streamBit m a p with
      | none => rw [walk_unwritten hset hbit] at h; cases h
      | some b =>
        rw [walk_bit hset hbit] at h
        exact .inr ⟨n, l, r, out', b, rfl, rfl, rfl, h⟩

/-- The bits a walk has consumed when it stops are some of the `k` that were left (R241). -/
theorem walk_stop_bounds (h : walk node root m a k cur p out = .stop res p') : p ≤ p' ∧ p' ≤ p + k := by
  induction k generalizing cur p out with
  | zero =>
    obtain ⟨out', -, -, rfl⟩ | ⟨n, l, r, out', b, hk, -⟩ := walk_eq_stop h
    · exact ⟨le_rfl, le_rfl⟩
    · cases hk
  | succ k ih =>
    obtain ⟨out', -, -, rfl⟩ | ⟨n, l, r, out', b, hk, -, -, hnext⟩ := walk_eq_stop h
    · exact ⟨le_rfl, Nat.le_add_right _ _⟩
    · cases hk
      obtain ⟨hle, hle'⟩ := ih hnext
      omega

/-- A walk that stops depends on no bit but those it has consumed (R243). -/
theorem walk_stop_congr (h : walk node root m a k cur p out = .stop res p')
    (hm : ∀ q < p', streamBit m' a q = streamBit m a q) : walk node root m' a k cur p out = .stop res p' := by
  induction k generalizing cur p out with
  | zero =>
    obtain ⟨out', hset, rfl, rfl⟩ | ⟨n, l, r, out', b, hk, -⟩ := walk_eq_stop h
    · exact walk_stop hset
    · cases hk
  | succ k ih =>
    obtain ⟨out', hset, rfl, rfl⟩ | ⟨n, l, r, out', b, hk, hset, hbit, hnext⟩ := walk_eq_stop h
    · exact walk_stop hset
    · cases hk
      obtain ⟨hlt, -⟩ := walk_stop_bounds hnext
      rw [walk_bit hset ((hm p hlt).trans hbit)]
      exact ih hnext

end

/-- A successful DECODE has passed its checks, stopped at the sentinel and written what fits. -/
theorem decoded_of_exec_decode {s t : State} (h : exec .decode s = .next t) (ht : t.err = errOk) :
    s.built = true ∧ rangesOk s ∧
      ∃ out p, decodeWalk s = .stop out p ∧ out.length ≤ dstCap s ∧ t = decoded out p s := by
  obtain ⟨-, rfl⟩ | ⟨-, -, rfl⟩ | ⟨-, -, -, rfl⟩ | ⟨hb, hr, out, p, hstop, rfl⟩ := execDecode_next h
  · exact absurd ht (by decide : errCode .notBuilt ≠ errOk)
  · exact absurd ht (by decide : errCode .badRange ≠ errOk)
  · exact absurd ht (by decide : errCode .truncatedInput ≠ errOk)
  · obtain ⟨-, hemit⟩ | ⟨hfit, hemit⟩ := emitSymbols_cases out p s
    · rw [hemit] at ht
      exact absurd ht (by decide : errCode .outputOverflow ≠ errOk)
    · exact ⟨hb, hr, out, p, hstop, hfit, hemit⟩

/-- RESULT_BITS of a DECODE in range does not wrap (R87, R242). -/
theorem decoded_resultBits_toNat {s : State} {out : List Byte} {p : Nat} (hr : rangesOk s)
    (h : decodeWalk s = .stop out p) : (decoded out p s).resultBits.toNat = p := by
  obtain ⟨hsrc, -⟩ := hr
  obtain ⟨-, hp⟩ := walk_stop_bounds h
  have hmem := dmemSize_le s.params
  exact (BitVec.toNat_ofNat p 32).trans (Nat.mod_eq_of_lt (by omega))

/-- The bits of a stream are those of its bytes (R90). -/
theorem streamBit_congr {m m' : Memory} {a n : Nat} (h : ∀ k, 8 * k < n → m'.read (a + k) = m.read (a + k)) :
    ∀ q < n, streamBit m' a q = streamBit m a q := fun q hq => by
  rw [streamBit, streamBit, h (q / 8) (by omega)]

/-- Settles O46: the walk over the other DMEM consumes the same bits and emits the same message, which both runs
then write at DST_ADDR. -/
theorem decodeIgnoresWhatFollowsTheSentinel : Obligations.DecodeIgnoresWhatFollowsTheSentinel := by
  intro s t m h ht hm
  obtain ⟨hb, hr, out, p, hstop, hfit, rfl⟩ := decoded_of_exec_decode h ht
  rw [decoded_resultBits_toNat hr hstop] at hm
  have hstop' : decodeWalk { s with mem := m } = .stop out p := walk_stop_congr hstop (streamBit_congr hm)
  refine ⟨_, exec_decode_of_fit hb hr hstop' hfit, rfl, rfl, rfl, fun k hk => ?_⟩
  have hk : k < out.length := hk.trans_le ((BitVec.toNat_ofNat _ 32).trans_le (Nat.mod_le _ _))
  exact (holdsBytes_writeBytes m (dstAddr s) out k hk).trans
    (holdsBytes_writeBytes s.mem (dstAddr s) out k hk).symm

/-! ## Every command completes -/

/-- Settles O50, command by command: in a trie DECODE's walk over written bytes ends. -/
theorem everyCommandCompletes : Obligations.EveryCommandCompletes := fun _ _ => exec_completes

end Sys2Proof.Machine

/-! PROOFS. The errors of each command (60_exceptions.md R262) and the interrupt line (R266, R267). -/

namespace Sys2Proof.Machine

/-! ## The errors of each command -/

section
variable {s t : State}

theorem execCount_err (h : execCount s = .next t) : t.err ∈ [0x00, 0x04, 0x06, 0x08] := by
  obtain ⟨-, rfl⟩ | ⟨-, -, rfl⟩ | ⟨-, -, -, rfl⟩ | ⟨-, -, -, _, -, -, rfl⟩ := execCount_next h
  · simp [errCode]
  · simp [errCode]
  · simp [errCode]
  · simp [errOk]

theorem execBuild_err (h : execBuild s = .next t) : t.err ∈ [0x00, 0x04] := by
  obtain ⟨-, rfl⟩ | ⟨-, _, -, rfl⟩ := execBuild_next h
  · simp [errCode]
  · simp [errOk]

theorem emitStream_err (bs : Bits) (s : State) :
    (emitStream bs s).err = errOk ∨ (emitStream bs s).err = errCode .outputOverflow := by
  obtain ⟨-, h⟩ | ⟨-, h⟩ := emitStream_cases bs s
  · exact .inr (by rw [h, raiseBulk_err])
  · exact .inl (by rw [h, finishBulk_err])

theorem execEncode_err (h : execEncode s = .next t) : t.err ∈ [0x00, 0x03, 0x06, 0x01, 0x05] := by
  obtain ⟨-, rfl⟩ | ⟨-, -, rfl⟩ | ⟨-, -, _, -, rfl⟩ | ⟨-, -, bs, -, rfl⟩ := execEncode_next h
  · simp [errCode]
  · simp [errCode]
  · simp [errCode]
  · obtain he | he := emitStream_err (bs ++ codeOfSent s.cb) s
    · simp [he, errOk]
    · simp [he, errCode]

theorem emitSymbols_err (out : List Byte) (p : Nat) (s : State) :
    (emitSymbols out p s).err = errOk ∨ (emitSymbols out p s).err = errCode .outputOverflow := by
  obtain ⟨-, h⟩ | ⟨-, h⟩ := emitSymbols_cases out p s
  · exact .inr (by rw [h, raiseBulk_err])
  · exact .inl (by rw [h, finishBulk_err])

theorem execDecode_err (h : execDecode s = .next t) : t.err ∈ [0x00, 0x03, 0x06, 0x02, 0x05] := by
  obtain ⟨-, rfl⟩ | ⟨-, -, rfl⟩ | ⟨-, -, -, rfl⟩ | ⟨-, -, out, p, -, rfl⟩ := execDecode_next h
  · simp [errCode]
  · simp [errCode]
  · simp [errCode]
  · obtain he | he := emitSymbols_err out p s
    · simp [he, errOk]
    · simp [he, errCode]

theorem execCbLookup_err {idx : Nat} (h : execCbLookup idx s = .next t) : t.err ∈ [0x00, 0x03, 0x07] := by
  obtain ⟨-, rfl⟩ | ⟨-, -, rfl⟩ | ⟨-, _, rfl⟩ := execCbLookup_next h
  · simp [errCode]
  · simp [errCode]
  · simp [errOk]

theorem execNodeRead_err {idx : Nat} (h : execNodeRead idx s = .next t) : t.err ∈ [0x00, 0x03, 0x07] := by
  obtain ⟨-, rfl⟩ | ⟨-, -, rfl⟩ | ⟨-, -, _, -, rfl⟩ := execNodeRead_next h
  · simp [errCode]
  · simp [errCode]
  · simp [errOk]

theorem execFreqRead_err {idx : Nat} (h : execFreqRead idx s = .next t) : t.err ∈ [0x00, 0x07] := by
  obtain ⟨_, rfl⟩ | ⟨-, rfl⟩ := execFreqRead_next h
  · simp [errOk]
  · simp [errCode]

end

/-- Settles O11: one lemma per command, over the cases it can end in. -/
theorem errorCodesOfEachCommand : Obligations.ErrorCodesOfEachCommand := fun _ _ =>
  ⟨fun h => by rw [execNop_next h]; rfl, fun h => by rw [execClear_next h]; rfl, execCount_err, execBuild_err,
    execEncode_err, execDecode_err, fun _ => ⟨execCbLookup_err, execNodeRead_err, execFreqRead_err⟩⟩

/-! ## The interrupt line -/

theorem irq_eq_true {s : State} : irq s = true ↔ s.ie = true ∧ s.done = true := Bool.and_eq_true_iff

/-- The engine's step, of a command or of an illegal word, sets DONE (R117). -/
theorem engineStep_done {s t : State} (h : engineStep s = .next t) : t.done = true := by
  obtain ⟨i, -, h⟩ | ⟨e, -, rfl⟩ := engineStep_next h
  · exact (exec_completed h).1.done
  · exact raiseError_done _ s

theorem engineStep_irq {s t : State} (h : engineStep s = .next t) : irq t = s.ie := by
  rw [irq, engineStep_done h, Bool.and_true, (engineStep_completed h).2.ie]

/-- An access that reaches a register was made at that register's address (R31, R85). -/
theorem addr_of_regAt {p : Params} {addr o : Nat} {r : Reg} (h : regionOf p addr = .registers o)
    (hr : regAt o = r) (hne : r ≠ .reserved) : addr = busBase p + regOffset r := by
  subst hr
  rw [regOffset_regAt hne]
  exact regionOf_eq_registers h

/-- Only a CTRL write writes IE (R35). -/
theorem writeReg_ie (r : Reg) (v : Word) (s : State) :
    (writeReg r v s).ie = s.ie ∨ (r = .ctrl ∧ (writeReg r v s).ie = v.getLsbD 0) := by
  cases r with
  | ctrl => exact .inr ⟨rfl, writeCtrl_ie v s⟩
  | cmd =>
    obtain ⟨-, hw⟩ | ⟨-, hw⟩ := writeCmd_cases v s
    · exact .inl (by rw [writeReg, hw, accept_ie])
    · exact .inl (by rw [writeReg, hw])
  | _ => exact .inl rfl

/-- The host's turn leaves IE as it is, or performs a CTRL write (R35). -/
theorem hostTurn_ie {s t : State} (h : hostTurn s = .next t) : t.ie = s.ie ∨
    ∃ w ops, s.host = .bus (.write (busBase s.params + 0x00C) 4 w) :: ops ∧ t.host = ops ∧
      t.ie = w.getLsbD 0 := by
  obtain ⟨-, rfl⟩ | ⟨_, _, _, -, h⟩ | ⟨addr, size, w, ops, hh, h⟩ | ⟨ops, -, rfl⟩ := hostTurn_next h
  · exact .inl rfl
  · obtain ⟨_, -, -, rfl⟩ | ⟨_, _, -, -, -, -, rfl⟩ := busRead_next h
    · exact .inl rfl
    · exact .inl rfl
  · obtain ⟨o, hr, ⟨rfl, -⟩, rfl⟩ | ⟨_, -, -, -, rfl⟩ := busWrite_next h
    · refine (writeReg_ie (regAt o) w { s with host := ops }).imp_right fun ⟨hreg, hie⟩ =>
        ⟨w, ops, ?_, by rw [hreg]; rfl, hie⟩
      rw [hh, addr_of_regAt hr hreg Reg.noConfusion]
      rfl
    · exact .inl rfl
  · obtain h | h := pollStatus_eq ops s
    · exact .inl (by rw [h]; rfl)
    · exact .inl (by rw [h]; rfl)

/-- The host's turn never sets DONE, so it raises irq only by a CTRL write that sets IE (R267). -/
theorem hostTurn_irq {s t : State} (h : hostTurn s = .next t) (hs : irq s = false) (ht : irq t = true) :
    s.done = true ∧ s.ie = false ∧ ∃ w ops,
      s.host = .bus (.write (busBase s.params + 0x00C) 4 w) :: ops ∧ t.host = ops ∧ w.getLsbD 0 = true := by
  obtain ⟨hie, hdone⟩ := irq_eq_true.1 ht
  have hd : s.done = true := ((hostFrame_hostTurn h).done hdone).1
  have hi : s.ie = false := by rwa [irq, hd, Bool.and_true] at hs
  obtain hsame | ⟨w, ops, hhost, hrest, hw⟩ := hostTurn_ie h
  · rw [hsame, hi] at hie
    exact absurd hie Bool.false_ne_true
  · exact ⟨hd, hi, w, ops, hhost, hrest, hw.symm.trans hie⟩

/-- Settles O12: the engine's step ends with DONE = 1, reset clears IE, and an idle turn leaves irq as it is. -/
theorem interruptLineFollowsCompletion : Obligations.InterruptLineFollowsCompletion := by
  refine ⟨fun _ => irq_eq_true, fun _ _ => engineStep_irq, fun s t h hs ht => ?_⟩
  obtain ⟨rest, -, ⟨hb, h⟩ | h | ⟨-, rfl⟩ | ⟨-, -, rfl⟩⟩ := step_next h
  · exact .inl ⟨hb, (engineStep_completed h).1, engineStep_done h⟩
  · exact .inr (hostTurn_irq (s := { s with schedule := rest }) h hs ht)
  · exact absurd (irq_eq_true.1 ht).1 Bool.false_ne_true
  · exact absurd (hs.symm.trans ht) Bool.false_ne_true

end Sys2Proof.Machine
